-- ==== Sys2Proof/Word.lean ====
section
/-! DEFINITION. The byte, byte sequences, and the names of the four buffer spaces. -/

namespace Sys2Proof

/-- A byte: an 8-bit unsigned value (R9). -/
abbrev Byte := BitVec 8

/-- A sequence of bytes, element 0 first (R9, R62). -/
abbrev Bytes := List Byte

/-- The four disjoint byte-addressed buffer spaces (R35, R60): `IN`, `OUT`, `MODE`, `NAME`. -/
inductive Space
  | input
  | output
  | mode
  | name
  deriving DecidableEq, Repr

end Sys2Proof
end

