-- ==== Sys2Proof/Config.lean ====
section
/-! DEFINITION. What one implementation fixes (the parameters of R7) and the free values: what the spec leaves
without a value is an opaque constant with no body, applied to a draw counter that State holds. -/

namespace Sys2Proof

/-- The parameters of R7, the model's arguments: the width of the length and index registers, the capacity of
`IN`, of `OUT`, and of each of the two header-field buffers. State carries them; no step changes them. -/
structure Params where
  /-- `LENW` -/
  lenw   : Nat
  /-- `IN_CAP` -/
  inCap  : Nat
  /-- `OUT_CAP` -/
  outCap : Nat
  /-- `AUX_CAP` -/
  auxCap : Nat
  deriving DecidableEq, Repr

/-- The parameter values `State.reset` has: `LENW` 32 and `AUX_CAP` 255 are R7's defaults; `IN_CAP` and `OUT_CAP`,
for which R7 gives no default, are the 256 of `95_test_vectors.md` section 3. DESIGN CHOICE, log 1, unsafe. -/
def Config.defaultParams : Params := { lenw := 32, inCap := 256, outCap := 256, auxCap := 255 }

/-- FREE VALUE: the byte an index of a buffer reads as while it has no defined value (R36, R43, R244; U3, U4, U5 of
`93_implementation_defined.md`), for a buffer, the draw that made its bytes unspecified, and the index. Log 3, safe. -/
opaque Config.freeByte : Space → Nat → Nat → Byte

/-- FREE VALUE: what a register without a defined value holds or reads as, for a draw and the register's place in a
list (R34, R292; U2, U6 of `93_implementation_defined.md`). Log 6 and log 13, safe. -/
opaque Config.freeWord : Nat → Nat → Nat

end Sys2Proof
end

