-- ==== Sys2Proof/Syntax.lean ====
section
/-! DEFINITION. The commands (R90), one constructor for each row of the opcode table, and the fields of the one
format `C8` (R91). Operands are implied and never encoded (R92), so no constructor has an argument. -/

namespace Sys2Proof

/-- The 14 commands of R90. -/
inductive Instr
  /-- `B64.ENC`, 0x00 -/
  | b64Enc
  /-- `B64.DEC`, 0x01 -/
  | b64Dec
  /-- `B64U.ENC`, 0x02 -/
  | b64uEnc
  /-- `B64U.DEC`, 0x03 -/
  | b64uDec
  /-- `B32.ENC`, 0x04 -/
  | b32Enc
  /-- `B32.DEC`, 0x05 -/
  | b32Dec
  /-- `B16.ENC`, 0x06 -/
  | b16Enc
  /-- `B16.DEC`, 0x07 -/
  | b16Dec
  /-- `UUL.ENC`, 0x08 -/
  | uulEnc
  /-- `UUL.DEC`, 0x09 -/
  | uulDec
  /-- `UUC.ENC`, 0x0A -/
  | uucEnc
  /-- `UUC.DEC`, 0x0B -/
  | uucDec
  /-- `UUF.ENC`, 0x0C -/
  | uufEnc
  /-- `UUF.DEC`, 0x0D -/
  | uufDec
  deriving DecidableEq, Repr

/-- Every command, in the order of R90's table. -/
def Instr.all : List Instr :=
  [.b64Enc, .b64Dec, .b64uEnc, .b64uDec, .b32Enc, .b32Dec, .b16Enc, .b16Dec, .uulEnc, .uulDec, .uucEnc, .uucDec,
    .uufEnc, .uufDec]

/-- The fields of the format `C8` (R91): `bits[7:4]` `ZERO`, `bits[3:1]` `CODEC`, `bits[0]` `DIR`. -/
structure C8 where
  zero  : BitVec 4
  codec : BitVec 3
  dir   : BitVec 1
  deriving DecidableEq, Repr

/-- The fields of each command (R93): `CODEC` 0 `B64`, 1 `B64U`, 2 `B32`, 3 `B16`, 4 `UUL`, 5 `UUC`, 6 `UUF`;
`DIR` 0 encode, 1 decode. -/
def Instr.fields : Instr → C8
  | .b64Enc  => ⟨0, 0, 0⟩
  | .b64Dec  => ⟨0, 0, 1⟩
  | .b64uEnc => ⟨0, 1, 0⟩
  | .b64uDec => ⟨0, 1, 1⟩
  | .b32Enc  => ⟨0, 2, 0⟩
  | .b32Dec  => ⟨0, 2, 1⟩
  | .b16Enc  => ⟨0, 3, 0⟩
  | .b16Dec  => ⟨0, 3, 1⟩
  | .uulEnc  => ⟨0, 4, 0⟩
  | .uulDec  => ⟨0, 4, 1⟩
  | .uucEnc  => ⟨0, 5, 0⟩
  | .uucDec  => ⟨0, 5, 1⟩
  | .uufEnc  => ⟨0, 6, 0⟩
  | .uufDec  => ⟨0, 6, 1⟩

end Sys2Proof
end

