-- ==== Sys2Proof/WellFormed.lean ====
section
/-! DEFINITION. Which command words are legal (R91, R94): the checks on the fields of the format `C8`. -/

namespace Sys2Proof

/-- R91: `bits[7:4]` `ZERO` must be 0b0000. -/
def C8.zeroOk (f : C8) : Bool := f.zero == 0

/-- R93, R94: `CODEC` 7 is reserved. -/
def C8.codecOk (f : C8) : Bool := f.codec != 7

/-- A command word is legal when both checks hold (R94). -/
def C8.wellFormed (f : C8) : Bool := f.zeroOk && f.codecOk

/-- A command is well-formed when its fields are. -/
def Instr.wellFormed (i : Instr) : Bool := i.fields.wellFormed

end Sys2Proof
end

