-- ==== Sys2Proof/Decode.lean ====
section
/-! DEFINITION. The command decoder, total on every command word and rejecting by name (R91, R94, R97), and after it
the encoder, written from the table of R90. -/

namespace Sys2Proof

/-- Why a command word is no command (R94). -/
inductive DecodeError
  /-- a non-zero bit in `bits[7:4]` -/
  | zeroFieldNotZero
  /-- `CODEC = 7` -/
  | reservedCodec
  deriving DecidableEq, Repr

/-- The fields of a command word (R91). -/
def fieldsOf (w : Byte) : C8 :=
  { zero := w.extractLsb' 4 4, codec := w.extractLsb' 1 3, dir := w.extractLsb' 0 1 }

/-- The command of a `CODEC` and `DIR` (R93); none for the reserved `CODEC = 7`. -/
def commandOf (codec dir : Nat) : Option Instr :=
  match codec, dir with
  | 0, 0 => some .b64Enc
  | 0, _ => some .b64Dec
  | 1, 0 => some .b64uEnc
  | 1, _ => some .b64uDec
  | 2, 0 => some .b32Enc
  | 2, _ => some .b32Dec
  | 3, 0 => some .b16Enc
  | 3, _ => some .b16Dec
  | 4, 0 => some .uulEnc
  | 4, _ => some .uulDec
  | 5, 0 => some .uucEnc
  | 5, _ => some .uucDec
  | 6, 0 => some .uufEnc
  | 6, _ => some .uufDec
  | _, _ => none

/-- The decoder (R91: "A decoder matches the whole word"; R94: every other word is illegal). -/
def decode (w : Byte) : Except DecodeError Instr :=
  if (fieldsOf w).zeroOk then
    match commandOf (fieldsOf w).codec.toNat (fieldsOf w).dir.toNat with
    | some i => .ok i
    | none => .error .reservedCodec
  else .error .zeroFieldNotZero

/-- The encoder: the `CMD` value of each command (R90's table). -/
def encode : Instr → Byte
  | .b64Enc  => 0x00#8
  | .b64Dec  => 0x01#8
  | .b64uEnc => 0x02#8
  | .b64uDec => 0x03#8
  | .b32Enc  => 0x04#8
  | .b32Dec  => 0x05#8
  | .b16Enc  => 0x06#8
  | .b16Dec  => 0x07#8
  | .uulEnc  => 0x08#8
  | .uulDec  => 0x09#8
  | .uucEnc  => 0x0A#8
  | .uucDec  => 0x0B#8
  | .uufEnc  => 0x0C#8
  | .uufDec  => 0x0D#8

/-- The decoder on a word given as the opcode table numbers its bits: bit 0 least significant, one byte (R91: every
command is exactly one byte). A word with a bit at or above bit 8 is no command word. -/
def decodeTableWord (nbits w : Nat) : Option Instr :=
  if w % 2 ^ nbits < 256 then
    match decode (BitVec.ofNat 8 (w % 2 ^ nbits)) with
    | .ok i => some i
    | .error _ => none
  else none

end Sys2Proof
end

