-- ==== Sys2Proof/Machine/State.lean ====
section
/-! DEFINITION. The state of the core and of its host interface, as plain data; the reasons a step can stop; the
inputs from outside; and the state after reset. -/

namespace Sys2Proof.Machine

/-- The kinds of failure of R98. `ioFailure` and `outOfMemory` are the host's and never produced by the core (R242). -/
inductive FailKind
  | invalidAlphabetChar
  | invalidLength
  | invalidPadding
  | invalidFormat
  | ioFailure
  | outOfMemory
  | illegalCommand
  | bufferTooSmall
  deriving DecidableEq, Repr

/-- A failure of a command: its kind and the position that `ERR_POS` records (R28, R240). -/
structure Failure where
  kind : FailKind
  pos  : Nat
  deriving DecidableEq, Repr

/-- What `STATUS` holds (R26): `OK`, or the kind of the failure. -/
inductive Status
  | ok
  | failed (k : FailKind)
  deriving DecidableEq, Repr

/-- What `PHASE` holds (R25); the code 3 never occurs (R22). -/
inductive Phase
  | idle
  | busy
  | done
  deriving DecidableEq, Repr

/-- The ten registers of the host interface (R22). -/
inductive Reg
  | cmd
  | inLen
  | modeLen
  | nameLen
  | ctrl
  | phase
  | status
  | outLen
  | errPos
  | reqLen
  deriving DecidableEq, Repr

/-- The working registers of R33, which exist for the duration of a command (R34), and the model's own count of the
unit steps still to do (R301; none before the first unit step). -/
structure Work where
  /-- `IP`: index of the next input byte -/
  ip        : Nat
  /-- `OP`: index of the next output byte -/
  op        : Nat
  /-- `ACC`, 40 bits; loaded by the units of `B32.DEC` only (DESIGN CHOICE, log 23) -/
  acc       : BitVec 40
  /-- `NBITS`, 6 bits: number of valid low bits in `ACC`; loaded with it (log 23) -/
  nbits     : BitVec 6
  /-- `LEN_S`: the input length after stripping -/
  lenS      : Nat
  /-- `PADCNT`: the stripped pad count of `B32.DEC` -/
  padCnt    : Nat
  /-- `LINE_START` -/
  lineStart : Nat
  /-- `LINE_END` -/
  lineEnd   : Nat
  /-- `BODY_END` -/
  bodyEnd   : Nat
  /-- the model's own: units still to do -/
  left      : Option Nat
  deriving DecidableEq, Repr

/-- A buffer space (R35): the bytes that have a defined value, as pairs of index and byte in rising order of the
index; an index that is not listed has no defined value and reads as the free byte of the draw `epoch` (log 3). -/
structure Buffer where
  cells : List Host.Cell
  epoch : Nat
  deriving DecidableEq, Repr

/-- One access of the host (R232): a register or one byte of a buffer, read or written. -/
inductive Access
  | readReg (r : Reg)
  | writeReg (r : Reg) (v : Nat)
  | readByte (sp : Space) (a : Nat)
  | writeByte (sp : Space) (a : Nat) (v : Byte)
  deriving DecidableEq, Repr

/-- What may happen next, in the order of the list `State.pending`: an access of the host, a turn of the core that
runs the started command as one atomic step, a turn of the core that runs one unit step of it (R227, R235), or the
reset input (R280). -/
inductive Event
  | host (a : Access)
  | core
  | unit
  | reset
  deriving DecidableEq, Repr

/-- Why the machine stops with a fault. -/
inductive Fault
  /-- Raised by a host write while `PHASE = BUSY` (R290, U1): outside the defined behaviour. Safe. -/
  | hostWriteWhileBusy
  /-- Raised by an access at or beyond a buffer's capacity (R61): there is no such index. The host can raise it;
  a unit step of the core would, and R70 says it never does. Safe. -/
  | noSuchIndex
  deriving DecidableEq, Repr

/-- Why an instruction has no meaning. -/
inductive Refusal
  /-- Raised by an arm of `exec` for an instruction without a meaning yet; no arm raises it now. Safe. -/
  | notModelled (mnemonic : String)
  deriving DecidableEq, Repr

/-- The whole state. Registers are R22's under their own names (`CTRL` and `REQ_LEN` are not stored: R24, R29);
lengths and indices are natural numbers below 2^LENW (log 2). -/
structure State where
  /-- the parameters of R7; no step changes them (log 1) -/
  par      : Params
  /-- `CMD` -/
  cmd      : BitVec 8
  /-- `IN_LEN` -/
  inLen    : Nat
  /-- `MODE_LEN` -/
  modeLen  : Nat
  /-- `NAME_LEN` -/
  nameLen  : Nat
  /-- `PHASE` -/
  phase    : Phase
  /-- `STATUS` -/
  status   : Status
  /-- `OUT_LEN` -/
  outLen   : Nat
  /-- `ERR_POS` -/
  errPos   : Nat
  /-- `IN` -/
  inBuf    : Buffer
  /-- `OUT` -/
  outBuf   : Buffer
  /-- `MODE` -/
  modeBuf  : Buffer
  /-- `NAME` -/
  nameBuf  : Buffer
  /-- the working registers of R33 -/
  work     : Work
  /-- the model's own: what happens next, oldest first (log 9) -/
  pending  : List Event
  /-- the model's own: what the host's last read delivered (log 16) -/
  lastRead : Option Nat
  /-- the model's own: the counter the free values are drawn from (log 3) -/
  draws    : Nat
  deriving DecidableEq, Repr

/-- The values a command starts its working registers from (R34): all zero, and no unit step made. -/
def Work.init : Work :=
  { ip := 0, op := 0, acc := 0, nbits := 0, lenS := 0, padCnt := 0, lineStart := 0, lineEnd := 0, bodyEnd := 0,
    left := none }

/-- The state after reset (R43): the registers at the values of R22, every buffer byte unspecified. The working
registers have no reset value (R34; DESIGN CHOICE, log 13); nothing is pending (log 9). -/
def State.reset : State :=
  { par := Config.defaultParams
    cmd := 0x00#8
    inLen := 0
    modeLen := 0
    nameLen := 0
    phase := .idle
    status := .ok
    outLen := 0
    errPos := 0
    inBuf := { cells := [], epoch := 0 }
    outBuf := { cells := [], epoch := 0 }
    modeBuf := { cells := [], epoch := 0 }
    nameBuf := { cells := [], epoch := 0 }
    work := Work.init
    pending := []
    lastRead := none
    draws := 1 }

end Sys2Proof.Machine
end

