-- ==== Sys2Proof/Machine/Flags.lean ====
section
/-! DEFINITION. The core's only status (R32): the codes of `STATUS` (R98) and `PHASE` (R22), and the numbers of the
registers (R22). -/

namespace Sys2Proof.Machine

/-- The `STATUS` code of a failure kind (R98). -/
def FailKind.code : FailKind → Nat
  | .invalidAlphabetChar => 1
  | .invalidLength => 2
  | .invalidPadding => 3
  | .invalidFormat => 4
  | .ioFailure => 5
  | .outOfMemory => 6
  | .illegalCommand => 7
  | .bufferTooSmall => 8

/-- What a read of `STATUS` returns (R26, R98). -/
def Status.code : Status → Nat
  | .ok => 0
  | .failed k => k.code

/-- What a read of `PHASE` returns (R22, R25). -/
def Phase.code : Phase → Nat
  | .idle => 0
  | .busy => 1
  | .done => 2

/-- The register numbers of R22. -/
def Reg.number : Reg → Nat
  | .cmd => 0
  | .inLen => 1
  | .modeLen => 2
  | .nameLen => 3
  | .ctrl => 4
  | .phase => 5
  | .status => 6
  | .outLen => 7
  | .errPos => 8
  | .reqLen => 9

/-- The level signal a platform may derive from `PHASE` (R260). -/
def State.doneSignal (s : State) : Bool := s.phase == .done

end Sys2Proof.Machine
end

