-- ==== Sys2Proof/Machine/Bits.lean ====
section
/-! DEFINITION. The arithmetic of R9 and R230 on natural numbers: bit slices, groups, rounded-up division. -/

namespace Sys2Proof.Machine

/-- `w[hi:lo]`, the unsigned value of bits `hi` down to `lo` of `w` (R9). -/
def bits (w hi lo : Nat) : Nat := (w >>> lo) % 2 ^ (hi + 1 - lo)

/-- The byte `w[hi:lo]` for a field of eight bits. -/
def byteAt (w hi lo : Nat) : Byte := BitVec.ofNat 8 (bits w hi lo)

/-- `ceil(x/m)` (R9). -/
def ceilDiv (x m : Nat) : Nat := (x + m - 1) / m

/-- A 3-byte group as a 24-bit integer, first byte most significant (R63, R65). -/
def group24 (b0 b1 b2 : Byte) : Nat := b0.toNat <<< 16 ||| b1.toNat <<< 8 ||| b2.toNat

/-- Four 6-bit values as a 24-bit integer, the first most significant (R136, R184). -/
def joinSextets (v0 v1 v2 v3 : Nat) : Nat := v0 <<< 18 ||| v1 <<< 12 ||| v2 <<< 6 ||| v3

/-- The bytes of `g` gathered into a 40-bit integer, first byte most significant, missing bytes taken as 0x00
(R65, R151). -/
def group40 (g : Bytes) : Nat :=
  (List.range 5).foldl (fun w j => w <<< 8 ||| (g.getD j 0x00#8).toNat) 0

end Sys2Proof.Machine
end

