-- ==== Sys2Proof/Machine/Size.lean ====
section
/-! DEFINITION. The size helpers: `ReqLen` (R220 to R224), computed over natural numbers. -/

namespace Sys2Proof.Machine

/-- The length of the envelope of `n` bytes with fields of `m` and `f` bytes (R203). -/
def envelopeLen (n m f : Nat) : Nat :=
  13 + m + f + 82 * (n / 60) + (if 0 < n % 60 then 2 + 4 * ceilDiv (n % 60) 3 else 0)

/-- `ReqLen` of a legal command (R221, R223). The source's formula for the bare line is not used (conflict C1). -/
def commandReqLen (i : Instr) (n m f : Nat) : Nat :=
  match i with
  | .b64Enc | .b64uEnc => 4 * ceilDiv n 3 + 1
  | .b32Enc => 8 * ceilDiv n 5 + 1
  | .b16Enc => 2 * n + 1
  | .uulEnc => 4 * ceilDiv n 3 + 1
  | .uucEnc => 4 * ceilDiv n 3 + 2
  | .uufEnc => envelopeLen n m f + 1
  | .b64Dec | .b64uDec | .b32Dec | .b16Dec | .uulDec | .uucDec | .uufDec => n

/-- `ReqLen` of a command word (R220); 0 for an illegal one (R224). -/
def reqLen (c : Byte) (n m f : Nat) : Nat :=
  match decode c with
  | .ok i => commandReqLen i n m f
  | .error _ => 0

end Sys2Proof.Machine
end

