-- ==== Sys2Proof/Machine/Tables.lean ====
section
/-! DEFINITION. The constants of R8 and R105, the four alphabets (R100 to R103) and their inverse tables (R38, R104),
and the uuencode symbol mapping (R106, R107). -/

namespace Sys2Proof.Machine

/-- The pad symbol `=` (R8, R105). -/
def pad : Byte := 0x3D#8
/-- CR (R105). -/
def cr : Byte := 0x0D#8
/-- LF (R105). -/
def lf : Byte := 0x0A#8
/-- The uuencode zero sentinel, a backtick (R8, R106). -/
def backtick : Byte := 0x60#8
/-- The terminating marker's value (R66; log 17). -/
def marker : Byte := 0x00#8
/-- Bytes of plaintext in one line of the envelope (R8, R202). -/
def chunkSize : Nat := 60
/-- The largest count of a counted line (R187). -/
def maxCount : Nat := 63

/-- `k` consecutive byte values from `c`. -/
def symbolRun (c k : Nat) : Bytes := (List.range k).map fun j => BitVec.ofNat 8 (c + j)

/-- `A64` (R100): `A`..`Z`, `a`..`z`, `0`..`9`, `+`, `/`. -/
def a64 : Bytes := symbolRun 0x41 26 ++ symbolRun 0x61 26 ++ symbolRun 0x30 10 ++ [0x2B#8, 0x2F#8]
/-- `A64U` (R101): as `A64` with `-` and `_` at 62 and 63. -/
def a64u : Bytes := symbolRun 0x41 26 ++ symbolRun 0x61 26 ++ symbolRun 0x30 10 ++ [0x2D#8, 0x5F#8]
/-- `A32` (R102): `A`..`Z`, `2`..`7`. -/
def a32 : Bytes := symbolRun 0x41 26 ++ symbolRun 0x32 6
/-- `A16` (R103): `0`..`9`, `A`..`F`. -/
def a16 : Bytes := symbolRun 0x30 10 ++ symbolRun 0x41 6

/-- The symbol of value `v` in an alphabet. R230: an index is always below the alphabet's size, so the value given
for a larger one is never used. -/
def symbol (a : Bytes) (v : Nat) : Byte := a.getD v 0x00#8

/-- The byte lies in `lo..hi`, both ends included. -/
def between (c : Byte) (lo hi : Nat) : Bool := lo ≤ c.toNat && c.toNat ≤ hi

/-- The part the two Base64 inverse tables share (R104). -/
def invLettersDigits (c : Byte) : Option Nat :=
  if between c 0x41 0x5A then some (c.toNat - 0x41)
  else if between c 0x61 0x7A then some (c.toNat - 0x47)
  else if between c 0x30 0x39 then some (c.toNat + 4)
  else none

/-- `INV64` (R104). -/
def inv64 (c : Byte) : Option Nat :=
  if c = 0x2B#8 then some 62 else if c = 0x2F#8 then some 63 else invLettersDigits c

/-- `INV64U` (R104). -/
def inv64u (c : Byte) : Option Nat :=
  if c = 0x2D#8 then some 62 else if c = 0x5F#8 then some 63 else invLettersDigits c

/-- `INV32` (R104). -/
def inv32 (c : Byte) : Option Nat :=
  if between c 0x41 0x5A then some (c.toNat - 0x41)
  else if between c 0x32 0x37 then some (c.toNat - 0x18)
  else none

/-- `INV16` (R104). -/
def inv16 (c : Byte) : Option Nat :=
  if between c 0x30 0x39 then some (c.toNat - 0x30)
  else if between c 0x41 0x46 then some (c.toNat - 0x37)
  else none

/-- `Upper` (R173). -/
def upper (c : Byte) : Byte := if between c 0x61 0x7A then c - 0x20#8 else c

/-- `UUchar` (R106): the zero remap applies at every place a uuencode symbol is emitted. -/
def uuChar (v : Nat) : Byte := if v = 0 then backtick else BitVec.ofNat 8 (v + 0x20)

/-- `UUval` (R107). -/
def uuVal (c : Byte) : Option Nat :=
  if c = backtick then some 0
  else if between c 0x20 0x5F then some (c.toNat - 0x20)
  else none

end Sys2Proof.Machine
end

