-- ==== Sys2Proof/Machine/Ops.lean ====
section
/-! DEFINITION. The named operations over buffers and result registers: reading and writing bytes (`MemRead`,
`MemWrite` of R10), the capacity check (R226), and completion, by success (R245) or by failure (R244), which is this
hardware's taking of an exception. There is no return from one: R249, "There is nothing to return from". -/

namespace Sys2Proof.Machine

/-- The bytes of a buffer that have a defined value: (index, byte) pairs. -/
abbrev Memory := List Host.Cell

/-- Canonical form: indices strictly rising, each below the capacity. An unlisted index has no defined value, so no
entry can equal what it reads as (log 3). -/
abbrev Memory.wf (cap : Nat) (m : Memory) : Prop :=
  m.Pairwise (fun x y => x.1 < y.1) ∧ ∀ x ∈ m, x.1 < cap

/-- The byte listed at an index, if one is. -/
def Memory.get? : Memory → Nat → Option Byte
  | [], _ => none
  | (k, v) :: m, a => if k = a then some v else Memory.get? m a

/-- Give the byte at an index a value. -/
def Memory.set : Memory → Nat → Byte → Memory
  | [], a, v => [(a, v)]
  | (k, w) :: m, a, v =>
    if a < k then (a, v) :: (k, w) :: m
    else if a = k then (a, v) :: m
    else (k, w) :: Memory.set m a v

/-- `MemWrite` (R10): the bytes `vs` at `a`, `a+1`, …, `vs[0]` at the lowest index. -/
def Memory.write : Memory → Nat → Bytes → Memory
  | m, _, [] => m
  | m, a, v :: vs => (Memory.write m (a + 1) vs).set a v

/-- One byte of a buffer (R61, R69); a free value where it has no defined one (R36, R43; log 3). -/
def Buffer.byte (sp : Space) (b : Buffer) (a : Nat) : Byte :=
  match Memory.get? b.cells a with
  | some v => v
  | none => Config.freeByte sp b.epoch a

/-- `MemRead` (R10): the bytes `[a..a+n)` of a buffer. -/
def Buffer.read (sp : Space) (b : Buffer) (a n : Nat) : Bytes :=
  (List.range n).map fun j => b.byte sp (a + j)

/-- The four buffers by name (R35: no index of one aliases another). -/
def State.buffer (s : State) : Space → Buffer
  | .input => s.inBuf
  | .output => s.outBuf
  | .mode => s.modeBuf
  | .name => s.nameBuf

/-- Replace one buffer. -/
def State.setBuffer (s : State) (sp : Space) (b : Buffer) : State :=
  match sp with
  | .input => { s with inBuf := b }
  | .output => { s with outBuf := b }
  | .mode => { s with modeBuf := b }
  | .name => { s with nameBuf := b }

/-- The capacity of a buffer (R7, R35). -/
def capOf (p : Params) : Space → Nat
  | .input => p.inCap
  | .output => p.outCap
  | .mode => p.auxCap
  | .name => p.auxCap

/-- One byte as the host or the core reads it. -/
def State.byte (s : State) (sp : Space) (a : Nat) : Byte := (s.buffer sp).byte sp a

/-- Give one byte of a buffer a value. -/
def State.setByte (s : State) (sp : Space) (a : Nat) (v : Byte) : State :=
  s.setBuffer sp { s.buffer sp with cells := Memory.set (s.buffer sp).cells a v }

/-- Working registers without a defined value (R34; U6; log 13), for a width and a draw. -/
def Work.free (lenw d : Nat) : Work :=
  { ip := Config.freeWord d 0 % 2 ^ lenw
    op := Config.freeWord d 1 % 2 ^ lenw
    acc := BitVec.ofNat 40 (Config.freeWord d 2)
    nbits := BitVec.ofNat 6 (Config.freeWord d 3)
    lenS := Config.freeWord d 4 % 2 ^ lenw
    padCnt := Config.freeWord d 5 % 2 ^ lenw
    lineStart := Config.freeWord d 6 % 2 ^ lenw
    lineEnd := Config.freeWord d 7 % 2 ^ lenw
    bodyEnd := Config.freeWord d 8 % 2 ^ lenw
    left := none }

/-- Completion (R228): the result registers are written, `OUT` holds the bytes `out` and every other byte of it has
no defined value (R36; log 4), the working registers have none (R34), and `PHASE` is `DONE`. -/
def State.complete (s : State) (st : Status) (pos len : Nat) (out : Memory) : State :=
  { s with
    status := st
    errPos := pos
    outLen := len
    outBuf := { cells := out, epoch := s.draws }
    work := Work.free s.par.lenw s.draws
    draws := s.draws + 1
    phase := .done }

/-- Failure completion, `raise K(pos)` (R244): `STATUS <- code(K); ERR_POS <- pos; OUT_LEN <- 0; PHASE <- DONE`, and
every byte of `OUT` unspecified (log 5). The one operation by which any failure is taken. -/
def State.raise (s : State) (f : Failure) : State := s.complete (.failed f.kind) f.pos 0 []

/-- Success completion (R245): the result bytes `d` and after them `tail` (an encode's terminating marker, R66; a
decode has none, R67) in `OUT`, `OUT_LEN <- |d|`, `STATUS <- OK`, `ERR_POS <- 0`, `PHASE <- DONE`. -/
def State.succeed (s : State) (d tail : Bytes) : State :=
  s.complete .ok 0 d.length (Memory.write [] 0 (d ++ tail))

/-- The capacity check of R226 for a legal command: true when the command's own rule runs. -/
def State.fits (s : State) (i : Instr) : Bool :=
  s.inLen ≤ s.par.inCap
    && (i != .uufEnc || (s.modeLen ≤ s.par.auxCap && s.nameLen ≤ s.par.auxCap))
    && commandReqLen i s.inLen s.modeLen s.nameLen ≤ s.par.outCap

/-- One command from `START` to completion (R225, R227, R228): the capacity check, then the command's own rule, whose
result or failure `own` is delivered; `tail` follows the result bytes of a success. -/
def State.runCommand (s : State) (i : Instr) (own : Except Failure Bytes) (tail : Bytes) : State :=
  if s.fits i then
    match own with
    | .ok d => s.succeed d tail
    | .error f => s.raise f
  else s.raise { kind := .bufferTooSmall, pos := 0 }

/-- An encode's tail: the terminating marker (R66). -/
def encodeTail : Bytes := [marker]

/-- A decode's tail: nothing (R67). -/
def decodeTail : Bytes := []

/-- Starting an illegal command word (R97). -/
def State.takeIllegal (s : State) : State := s.raise { kind := .illegalCommand, pos := 0 }

/-- `START` (R225): `PHASE <- BUSY`; the inputs it samples are the registers, which nothing can write while BUSY
(R21, R290; log 14). The working registers begin at R34's values. -/
def State.start (s : State) : State := { s with phase := .busy, work := Work.init }

/-- The reset input (R280, R281): the state of R43 for the same parameters, with every buffer byte and every working
register unspecified anew; the inputs still to come and the host's own last reading are no part of the core
(log 15). -/
def State.applyReset (s : State) : State :=
  { State.reset with
    par := s.par
    inBuf := { cells := [], epoch := s.draws }
    outBuf := { cells := [], epoch := s.draws }
    modeBuf := { cells := [], epoch := s.draws }
    nameBuf := { cells := [], epoch := s.draws }
    work := Work.free s.par.lenw s.draws
    pending := s.pending
    lastRead := s.lastRead
    draws := s.draws + 1 }

/-- A command word placed as the host's writes of `CMD` and `CTRL.START` place it, with the core's turn next
(log 10). -/
def State.placeCommand (s : State) (w : Byte) : State :=
  { s.start with cmd := w, pending := .core :: s.pending }

end Sys2Proof.Machine
end

