-- ==== Sys2Proof/Machine/Operands.lean ====
section
/-! DEFINITION. The operand forms. Operands are implied (R92): every command reads `IN[0..IN_LEN)`, and `UUF.ENC`
also `MODE[0..MODE_LEN)` and `NAME[0..NAME_LEN)`. Also the stripping of trailing line terminators (R133, R241). -/

namespace Sys2Proof.Machine

/-- `IN[0..IN_LEN)` (R92). -/
def State.inputBytes (s : State) : Bytes := s.inBuf.read .input 0 s.inLen

/-- `MODE[0..MODE_LEN)` (R92). -/
def State.modeBytes (s : State) : Bytes := s.modeBuf.read .mode 0 s.modeLen

/-- `NAME[0..NAME_LEN)` (R92). -/
def State.nameBytes (s : State) : Bytes := s.nameBuf.read .name 0 s.nameLen

/-- CR or LF (R105). -/
def isLineEnd (c : Byte) : Bool := c == cr || c == lf

/-- `t[0..L)` for `L = StripCRLF(t)` (R133): the text without its maximal trailing run of CR and LF bytes. -/
def stripCRLF (t : Bytes) : Bytes := t.rdropWhile isLineEnd

/-- The text without its maximal trailing run of pad bytes (R154). -/
def stripPads (t : Bytes) : Bytes := t.rdropWhile (· == pad)

end Sys2Proof.Machine
end

