-- ==== Sys2Proof/Machine/Base64.lean ====
section
/-! DEFINITION. Base64: the functions `EncB64` (R132) and `DecB64` (R136) and the commands `B64.ENC`, `B64.DEC`,
`B64U.ENC`, `B64U.DEC` (R130, R131, R134, R135). The 6-bit windowing is shared with uuencode (R182). -/

namespace Sys2Proof.Machine

/-- 6-bit windowing (R63, R64): each 3-byte group gives four symbols, `sym` of its windows from the top; a last group
of one or two bytes is zero-extended and gives two or three symbols and then the filler (R132, R182). -/
def encSextets (sym : Nat → Byte) (fill : Byte) : Bytes → Bytes
  | b0 :: b1 :: b2 :: rest =>
    sym (bits (group24 b0 b1 b2) 23 18) :: sym (bits (group24 b0 b1 b2) 17 12) ::
      sym (bits (group24 b0 b1 b2) 11 6) :: sym (bits (group24 b0 b1 b2) 5 0) :: encSextets sym fill rest
  | [b0, b1] =>
    [sym (bits (group24 b0 b1 0) 23 18), sym (bits (group24 b0 b1 0) 17 12), sym (bits (group24 b0 b1 0) 11 6), fill]
  | [b0] => [sym (bits (group24 b0 0 0) 23 18), sym (bits (group24 b0 0 0) 17 12), fill, fill]
  | [] => []

/-- `EncB64(A, b)` (R132). -/
def encB64 (a : Bytes) (b : Bytes) : Bytes := encSextets (symbol a) pad b

/-- The value of an alphabet symbol at index `pos` of the text, or `InvalidAlphabetChar` there (R136, R154). -/
def symbolValue (inv : Byte → Option Nat) (c : Byte) (pos : Nat) : Except Failure Nat :=
  match inv c with
  | some v => .ok v
  | none => .error { kind := .invalidAlphabetChar, pos := pos }

/-- A symbol where no pad may stand: the pad check comes before the alphabet check (R136, R156, R246). -/
def dataSymbol (inv : Byte → Option Nat) (c : Byte) (pos : Nat) : Except Failure Nat :=
  if c = pad then .error { kind := .invalidPadding, pos := pos } else symbolValue inv c pos

/-- One 4-symbol quantum at index `pos`; `last` when it is the text's last (R136). Low bits that a pad drops are not
checked (R138). -/
def decQuantum64 (inv : Byte → Option Nat) (last : Bool) (pos : Nat) (c0 c1 c2 c3 : Byte) : Except Failure Bytes := do
  let v0 ← dataSymbol inv c0 pos
  let v1 ← dataSymbol inv c1 (pos + 1)
  if c2 = pad then
    if last = false ∨ c3 ≠ pad then .error { kind := .invalidPadding, pos := pos + 2 }
    else .ok [byteAt (joinSextets v0 v1 0 0) 23 16]
  else
    let v2 ← symbolValue inv c2 (pos + 2)
    if c3 = pad then
      if last = false then .error { kind := .invalidPadding, pos := pos + 3 }
      else .ok [byteAt (joinSextets v0 v1 v2 0) 23 16, byteAt (joinSextets v0 v1 v2 0) 15 8]
    else
      let v3 ← symbolValue inv c3 (pos + 3)
      .ok [byteAt (joinSextets v0 v1 v2 v3) 23 16, byteAt (joinSextets v0 v1 v2 v3) 15 8,
        byteAt (joinSextets v0 v1 v2 v3) 7 0]

/-- The quanta of a text, first to last, the first at index `pos` (R136). -/
def decQuanta64 (inv : Byte → Option Nat) : Nat → Bytes → Except Failure Bytes
  | pos, c0 :: c1 :: c2 :: c3 :: rest => do
    let d ← decQuantum64 inv rest.isEmpty pos c0 c1 c2 c3
    let r ← decQuanta64 inv (pos + 4) rest
    .ok (d ++ r)
  | _, _ => .ok []

/-- The whole-input checks of `DecB64` (R136, R137, R246 (3)): the stripped text, or `InvalidLength`. -/
def prepare64 (t : Bytes) : Except Failure Bytes :=
  if t = [] then .ok []
  else if stripCRLF t = [] then .error { kind := .invalidLength, pos := 0 }
  else if (stripCRLF t).length % 4 ≠ 0 then .error { kind := .invalidLength, pos := 0 }
  else .ok (stripCRLF t)

/-- `DecB64(INV, t)` (R136). -/
def decB64 (inv : Byte → Option Nat) (t : Bytes) : Except Failure Bytes := do
  let u ← prepare64 t
  decQuanta64 inv 0 u

/-- `B64.ENC` (R130). -/
def execB64Enc (s : State) : Host.Outcome State Fault Refusal :=
  .next (s.runCommand .b64Enc (.ok (encB64 a64 s.inputBytes)) encodeTail)

/-- `B64.DEC` (R134). -/
def execB64Dec (s : State) : Host.Outcome State Fault Refusal :=
  .next (s.runCommand .b64Dec (decB64 inv64 s.inputBytes) decodeTail)

/-- `B64U.ENC` (R131). -/
def execB64uEnc (s : State) : Host.Outcome State Fault Refusal :=
  .next (s.runCommand .b64uEnc (.ok (encB64 a64u s.inputBytes)) encodeTail)

/-- `B64U.DEC` (R135). -/
def execB64uDec (s : State) : Host.Outcome State Fault Refusal :=
  .next (s.runCommand .b64uDec (decB64 inv64u s.inputBytes) decodeTail)

end Sys2Proof.Machine
end

