-- ==== Sys2Proof/Machine/Base16.lean ====
section
/-! DEFINITION. Base16: the functions `EncB16` (R171) and `DecB16` (R173, R174) and the commands `B16.ENC` and
`B16.DEC` (R170, R172). -/

namespace Sys2Proof.Machine

/-- The two symbols of a byte, high nibble first (R65, R171). -/
def encByte16 (b : Byte) : Bytes := [symbol a16 (bits b.toNat 7 4), symbol a16 (bits b.toNat 3 0)]

/-- `EncB16(b)` (R171). -/
def encB16 (b : Bytes) : Bytes := b.flatMap encByte16

/-- A pair of symbols at index `pos` (R174): the high symbol before the low, each after `Upper` (R173). -/
def decPair16 (pos : Nat) (h l : Byte) : Except Failure Bytes := do
  let vh ← symbolValue inv16 (upper h) pos
  let vl ← symbolValue inv16 (upper l) (pos + 1)
  .ok [BitVec.ofNat 8 (vh <<< 4 ||| vl)]

/-- The pairs of a text, the first at index `pos` (R174). -/
def decPairs16 : Nat → Bytes → Except Failure Bytes
  | pos, h :: l :: rest => do
    let d ← decPair16 pos h l
    let r ← decPairs16 (pos + 2) rest
    .ok (d ++ r)
  | _, _ => .ok []

/-- `DecB16(t)` (R174): the length check first; nothing is stripped. -/
def decB16 (t : Bytes) : Except Failure Bytes :=
  if t.length % 2 ≠ 0 then .error { kind := .invalidLength, pos := 0 } else decPairs16 0 t

/-- `B16.ENC` (R170). -/
def execB16Enc (s : State) : Host.Outcome State Fault Refusal :=
  .next (s.runCommand .b16Enc (.ok (encB16 s.inputBytes)) encodeTail)

/-- `B16.DEC` (R172). -/
def execB16Dec (s : State) : Host.Outcome State Fault Refusal :=
  .next (s.runCommand .b16Dec (decB16 s.inputBytes) decodeTail)

end Sys2Proof.Machine
end

