-- ==== Sys2Proof/Machine/Base32.lean ====
section
/-! DEFINITION. Base32: the functions `EncB32` (R151, R152) and `DecB32` (R154 to R157) and the commands `B32.ENC`
and `B32.DEC` (R150, R153). -/

namespace Sys2Proof.Machine

/-- `PAD32[r]` (R152), and 0 for a whole group (R151). -/
def pad32 (r : Nat) : Nat :=
  match r with
  | 1 => 6
  | 2 => 4
  | 3 => 3
  | 4 => 1
  | _ => 0

/-- One group of 1 to 5 bytes (R151): its windows of 5 bits from the top, then its pads. -/
def encGroup32 (g : Bytes) : Bytes :=
  ((List.range (8 - pad32 g.length)).map fun i => symbol a32 (bits (group40 g) (39 - 5 * i) (35 - 5 * i)))
    ++ List.replicate (pad32 g.length) pad

/-- `EncB32(b)` (R151): group after group; only the last can be partial. -/
def encB32 : Bytes → Bytes
  | b0 :: b1 :: b2 :: b3 :: b4 :: rest => encGroup32 [b0, b1, b2, b3, b4] ++ encB32 rest
  | [] => []
  | g => encGroup32 g

/-- One symbol at index `i` taken into the accumulator (R154): the new `acc` and `nbits`, and the byte that became
whole, if one did. A `=` here is outside the trailing run (R156). -/
def decSymbol32 (i acc nbits : Nat) (c : Byte) : Except Failure (Nat × Nat × Bytes) := do
  let v ← dataSymbol inv32 c i
  if 8 ≤ nbits + 5 then
    .ok ((acc <<< 5 ||| v) &&& (1 <<< (nbits + 5 - 8) - 1), nbits + 5 - 8,
      [BitVec.ofNat 8 ((acc <<< 5 ||| v) >>> (nbits + 5 - 8) &&& 0xFF)])
  else .ok (acc <<< 5 ||| v, nbits + 5, [])

/-- The symbols from index `i` on, with the accumulator so far (R154). -/
def decSymbols32 : Nat → Nat → Nat → Bytes → Except Failure Bytes
  | _, _, _, [] => .ok []
  | i, acc, nbits, c :: cs => do
    let (acc', nbits', d) ← decSymbol32 i acc nbits c
    let r ← decSymbols32 (i + 1) acc' nbits' cs
    .ok (d ++ r)

/-- `CANON32[r]` (R155): the canonical pad count of a last quantum of `r` symbols. -/
def canon32 (r : Nat) : Nat :=
  match r with
  | 2 => 6
  | 4 => 4
  | 5 => 3
  | 7 => 1
  | _ => 0

/-- The tail checks for `k` symbols and `p` pads (R154, R155). -/
def checkTail32 (k p : Nat) : Except Failure Unit :=
  if k % 8 = 1 ∨ k % 8 = 3 ∨ k % 8 = 6 then .error { kind := .invalidPadding, pos := 0 }
  else if p < canon32 (k % 8) then .error { kind := .invalidPadding, pos := 0 }
  else .ok ()

/-- `DecB32(t)` (R154). -/
def decB32 (t : Bytes) : Except Failure Bytes := do
  let syms := stripPads (stripCRLF t)
  let d ← decSymbols32 0 0 0 syms
  checkTail32 syms.length ((stripCRLF t).length - syms.length)
  .ok d

/-- `B32.ENC` (R150). -/
def execB32Enc (s : State) : Host.Outcome State Fault Refusal :=
  .next (s.runCommand .b32Enc (.ok (encB32 s.inputBytes)) encodeTail)

/-- `B32.DEC` (R153). -/
def execB32Dec (s : State) : Host.Outcome State Fault Refusal :=
  .next (s.runCommand .b32Dec (decB32 s.inputBytes) decodeTail)

end Sys2Proof.Machine
end

