-- ==== Sys2Proof/Machine/UuLine.lean ====
section
/-! DEFINITION. The uuencode line: the functions `EncUUL` (R182), `DecUUL` (R184), `EncUUC` (R187), `DecUUC` (R189)
and the commands `UUL.ENC`, `UUL.DEC`, `UUC.ENC`, `UUC.DEC` (R181, R183, R186, R188). -/

namespace Sys2Proof.Machine

/-- `EncUUL(b)` (R182). -/
def encUUL (b : Bytes) : Bytes := encSextets uuChar backtick b

/-- Four symbols at index `pos` (R184): a backtick is value 0 wherever it stands (R107). -/
def decGroupUU (pos : Nat) (c0 c1 c2 c3 : Byte) : Except Failure Bytes := do
  let v0 ← symbolValue uuVal c0 pos
  let v1 ← symbolValue uuVal c1 (pos + 1)
  let v2 ← symbolValue uuVal c2 (pos + 2)
  let v3 ← symbolValue uuVal c3 (pos + 3)
  .ok [byteAt (joinSextets v0 v1 v2 v3) 23 16, byteAt (joinSextets v0 v1 v2 v3) 15 8,
    byteAt (joinSextets v0 v1 v2 v3) 7 0]

/-- The groups of a line, the first at index `pos` (R184). -/
def decGroupsUU : Nat → Bytes → Except Failure Bytes
  | pos, c0 :: c1 :: c2 :: c3 :: rest => do
    let d ← decGroupUU pos c0 c1 c2 c3
    let r ← decGroupsUU (pos + 4) rest
    .ok (d ++ r)
  | _, _ => .ok []

/-- `DecUUL(t)` (R184): the length check first; nothing is stripped. -/
def decUUL (t : Bytes) : Except Failure Bytes :=
  if t.length % 4 ≠ 0 then .error { kind := .invalidLength, pos := 0 } else decGroupsUU 0 t

/-- A line of at most 63 bytes behind its byte-count character (R187, R204). -/
def countedLine (b : Bytes) : Bytes := uuChar b.length :: encUUL b

/-- `EncUUC(b)` (R187): for more than 63 bytes the count does not fit a symbol. -/
def encUUC (b : Bytes) : Except Failure Bytes :=
  if maxCount < b.length then .error { kind := .invalidLength, pos := 0 } else .ok (countedLine b)

/-- `DecUUC(t, base)` (R189), its checks in the order of R246. -/
def decUUC (t : Bytes) (base : Nat) : Except Failure Bytes :=
  match t with
  | [] => .error { kind := .invalidLength, pos := base }
  | c :: line =>
    if line.length % 4 ≠ 0 then .error { kind := .invalidLength, pos := base }
    else do
      let e ← symbolValue uuVal c base
      if 3 * line.length / 4 < e then .error { kind := .invalidLength, pos := base }
      else
        let d ← decGroupsUU (base + 1) line
        .ok (d.take e)

/-- `UUL.ENC` (R181). -/
def execUulEnc (s : State) : Host.Outcome State Fault Refusal :=
  .next (s.runCommand .uulEnc (.ok (encUUL s.inputBytes)) encodeTail)

/-- `UUL.DEC` (R183). -/
def execUulDec (s : State) : Host.Outcome State Fault Refusal :=
  .next (s.runCommand .uulDec (decUUL s.inputBytes) decodeTail)

/-- `UUC.ENC` (R186). -/
def execUucEnc (s : State) : Host.Outcome State Fault Refusal :=
  .next (s.runCommand .uucEnc (encUUC s.inputBytes) encodeTail)

/-- `UUC.DEC` (R188). -/
def execUucDec (s : State) : Host.Outcome State Fault Refusal :=
  .next (s.runCommand .uucDec (decUUC s.inputBytes 0) decodeTail)

end Sys2Proof.Machine
end

