-- ==== Sys2Proof/Machine/UuFile.lean ====
section
/-! DEFINITION. The uuencode file envelope: the functions `EncUUF` (R202 to R205) and `DecUUF` (R207, R208) and the
commands `UUF.ENC` and `UUF.DEC` (R201, R206). -/

namespace Sys2Proof.Machine

/-- `"begin "` (R202, R207). -/
def beginText : Bytes := [0x62#8, 0x65#8, 0x67#8, 0x69#8, 0x6E#8, 0x20#8]

/-- `"end"` (R202). -/
def endText : Bytes := [0x65#8, 0x6E#8, 0x64#8]

/-- The header line (R202, R205): the fields verbatim, single spaces. -/
def headerLine (mode name : Bytes) : Bytes := beginText ++ mode ++ [0x20#8] ++ name ++ [lf]

/-- The terminator line and `end`, with no newline after it (R112, R202). -/
def trailer : Bytes := [backtick, lf] ++ endText

/-- Chunk `g` of the plaintext: `b[60g .. min(60g+60, n))` (R202). -/
def chunk (b : Bytes) (g : Nat) : Bytes := (b.drop (chunkSize * g)).take chunkSize

/-- The body lines, one for each 60-byte chunk (R202). -/
def bodyLines (b : Bytes) : Bytes :=
  (List.range (ceilDiv b.length chunkSize)).flatMap fun g => countedLine (chunk b g) ++ [lf]

/-- `EncUUF(b, mode, name)` (R202). -/
def encUUF (b mode name : Bytes) : Bytes := headerLine mode name ++ bodyLines b ++ trailer

/-- `SENT` (R207): `"\n`\nend"`. -/
def sentinel : Bytes := [lf, backtick, lf] ++ endText

/-- The least index at which `p` begins in the list, whose first element has index `i`. -/
def findSub (p : Bytes) : Nat → Bytes → Option Nat
  | i, [] => if p.isEmpty then some i else none
  | i, c :: cs => if p.isPrefixOf (c :: cs) then some i else findSub p (i + 1) cs

/-- The lines of a body: LF alone separates them, and an empty line is a line (R207, R208 (c), (d)). -/
def splitLines : Bytes → List Bytes
  | [] => [[]]
  | c :: cs =>
    if c = lf then [] :: splitLines cs
    else
      match splitLines cs with
      | l :: ls => (c :: l) :: ls
      | [] => [[c]]

/-- The lines of a body decoded first to last, the first at index `pos` of the text (R207, R208 (f)). -/
def decLines : Nat → List Bytes → Except Failure Bytes
  | _, [] => .ok []
  | pos, l :: ls => do
    let d ← decUUC l pos
    let r ← decLines (pos + l.length + 1) ls
    .ok (d ++ r)

/-- The format checks of `DecUUF` (R207, R208 (a), (b)): the index `h` of the header's LF and the index `s` of the
sentinel, or `InvalidFormat`. -/
def findBody (t : Bytes) : Except Failure (Nat × Nat) :=
  if beginText.isPrefixOf t then
    match findSub [lf] 0 t with
    | none => .error { kind := .invalidFormat, pos := 0 }
    | some h =>
      match findSub sentinel h (t.drop h) with
      | none => .error { kind := .invalidFormat, pos := 0 }
      | some s => .ok (h, s)
  else .error { kind := .invalidFormat, pos := 0 }

/-- The body lines between the header's LF at `h` and the sentinel at `s`; none when `s = h` (R207). -/
def bodyOf (t : Bytes) (h s : Nat) : List Bytes :=
  if h < s then splitLines ((t.take s).drop (h + 1)) else []

/-- `DecUUF(t)` (R207). -/
def decUUF (t : Bytes) : Except Failure Bytes := do
  let (h, s) ← findBody t
  decLines (h + 1) (bodyOf t h s)

/-- `UUF.ENC` (R201). -/
def execUufEnc (s : State) : Host.Outcome State Fault Refusal :=
  .next (s.runCommand .uufEnc (.ok (encUUF s.inputBytes s.modeBytes s.nameBytes)) encodeTail)

/-- `UUF.DEC` (R206). -/
def execUufDec (s : State) : Host.Outcome State Fault Refusal :=
  .next (s.runCommand .uufDec (decUUF s.inputBytes) decodeTail)

end Sys2Proof.Machine
end

