-- ==== Sys2Proof/Machine/Dispatch.lean ====
section
/-! DEFINITION. One arm for each command: a direct call of its meaning. -/

namespace Sys2Proof.Machine

def exec (i : Instr) (s : State) : Host.Outcome State Fault Refusal :=
  match i with
  | .b64Enc => Sys2Proof.Machine.execB64Enc s
  | .b64Dec => Sys2Proof.Machine.execB64Dec s
  | .b64uEnc => Sys2Proof.Machine.execB64uEnc s
  | .b64uDec => Sys2Proof.Machine.execB64uDec s
  | .b32Enc => Sys2Proof.Machine.execB32Enc s
  | .b32Dec => Sys2Proof.Machine.execB32Dec s
  | .b16Enc => Sys2Proof.Machine.execB16Enc s
  | .b16Dec => Sys2Proof.Machine.execB16Dec s
  | .uulEnc => Sys2Proof.Machine.execUulEnc s
  | .uulDec => Sys2Proof.Machine.execUulDec s
  | .uucEnc => Sys2Proof.Machine.execUucEnc s
  | .uucDec => Sys2Proof.Machine.execUucDec s
  | .uufEnc => Sys2Proof.Machine.execUufEnc s
  | .uufDec => Sys2Proof.Machine.execUufDec s

end Sys2Proof.Machine
end

