-- ==== Sys2Proof/Machine/HostPort.lean ====
section
/-! DEFINITION. The host's accesses (R22, R24, R29, R232, R290, R292): registers and buffer bytes, read and written. -/

namespace Sys2Proof.Machine

/-- The width of a register in bits (R22). -/
def State.regWidth (s : State) : Reg → Nat
  | .cmd => 8
  | .ctrl => 8
  | .phase => 2
  | .status => 4
  | .inLen | .modeLen | .nameLen | .outLen | .errPos | .reqLen => s.par.lenw

/-- What a host read of a register returns while `PHASE` is not BUSY (R22, R23, R26, R29). -/
def State.readReg (s : State) : Reg → Nat
  | .cmd => s.cmd.toNat
  | .inLen => s.inLen
  | .modeLen => s.modeLen
  | .nameLen => s.nameLen
  | .ctrl => 0
  | .phase => s.phase.code
  | .status => s.status.code
  | .outLen => s.outLen
  | .errPos => s.errPos
  | .reqLen => reqLen s.cmd s.inLen s.modeLen s.nameLen % 2 ^ s.par.lenw

/-- The effect of a host write of `v` to a register while `PHASE` is not BUSY (R22 to R24, R232): a value is cut to
the register's width (log 2); `CTRL` with bit 0 set starts the command; writes to `RO` registers are ignored. -/
def State.writeReg (s : State) (r : Reg) (v : Nat) : State :=
  match r with
  | .cmd => { s with cmd := BitVec.ofNat 8 v }
  | .inLen => { s with inLen := v % 2 ^ s.par.lenw }
  | .modeLen => { s with modeLen := v % 2 ^ s.par.lenw }
  | .nameLen => { s with nameLen := v % 2 ^ s.par.lenw }
  | .ctrl => if v % 2 = 1 then s.start else s
  | .phase | .status | .outLen | .errPos | .reqLen => s

/-- What the host's read delivers. -/
def State.deliver (s : State) (v : Nat) : State := { s with lastRead := some v }

/-- What a host read delivers that returns an unspecified value of `width` bits (R292; U2; log 6). -/
def State.deliverFree (s : State) (width : Nat) : State :=
  { s with lastRead := some (Config.freeWord s.draws 0 % 2 ^ width), draws := s.draws + 1 }

/-- A host read of a register: while BUSY only `PHASE` returns a defined value (R292). -/
def State.hostReadReg (s : State) (r : Reg) : State :=
  if s.phase = .busy ∧ r ≠ .phase then s.deliverFree (s.regWidth r) else s.deliver (s.readReg r)

/-- A host read of a buffer byte (R69, R232, R292). -/
def State.hostReadByte (s : State) (sp : Space) (a : Nat) : State :=
  if s.phase = .busy then s.deliverFree 8 else s.deliver (s.byte sp a).toNat

/-- One access of the host. A write while BUSY is outside the defined behaviour (R290; log 7); an index at or beyond
the capacity does not exist (R61; log 8). -/
def hostAccess (a : Access) (s : State) : Host.Outcome State Fault Refusal :=
  match a with
  | .readReg r => .next (s.hostReadReg r)
  | .writeReg r v => if s.phase = .busy then .fault .hostWriteWhileBusy else .next (s.writeReg r v)
  | .readByte sp i => if capOf s.par sp ≤ i then .fault .noSuchIndex else .next (s.hostReadByte sp i)
  | .writeByte sp i v =>
    if s.phase = .busy then .fault .hostWriteWhileBusy
    else if capOf s.par sp ≤ i then .fault .noSuchIndex
    else .next (s.setByte sp i v)

end Sys2Proof.Machine
end

