-- ==== Sys2Proof/Machine/Units.lean ====
section
/-! DEFINITION. A command in unit steps (R33, R34, R235, R301): the same functions, one unit at a time over the
working registers. What the host sees at `DONE` is what the atomic step gives (R227). How a command is cut into units
where R235 leaves it open is log 12; which unit loads which register of R33 is log 23. -/

namespace Sys2Proof.Machine

/-- The first unit step's pre-scan of the input `t` (R235): the working registers, with the units still to do (R301),
and the bytes emitted before the first unit (an envelope's header), or the whole-input failure. `LEN_S` is loaded for the
encodes too (log 23). -/
def preScan (i : Instr) (t mode name : Bytes) : Except Failure (Work × Bytes) :=
  match i with
  | .b64Enc | .b64uEnc | .uulEnc => .ok ({ Work.init with lenS := t.length, left := some (ceilDiv t.length 3) }, [])
  | .b32Enc => .ok ({ Work.init with lenS := t.length, left := some (ceilDiv t.length 5) }, [])
  | .b16Enc => .ok ({ Work.init with lenS := t.length, left := some t.length }, [])
  | .uucEnc =>
    if maxCount < t.length then .error { kind := .invalidLength, pos := 0 }
    else .ok ({ Work.init with lenS := t.length, left := some 1 }, [])
  | .uufEnc =>
    .ok ({ Work.init with lenS := t.length, left := some (ceilDiv t.length chunkSize) }, headerLine mode name)
  | .b64Dec | .b64uDec => do
    let u ← prepare64 t
    .ok ({ Work.init with lenS := u.length, left := some (u.length / 4) }, [])
  | .b32Dec =>
    let u := stripCRLF t
    let k := (stripPads u).length
    .ok ({ Work.init with lenS := u.length, padCnt := u.length - k, left := some k }, [])
  | .b16Dec =>
    if t.length % 2 ≠ 0 then .error { kind := .invalidLength, pos := 0 }
    else .ok ({ Work.init with lenS := t.length, left := some (t.length / 2) }, [])
  | .uulDec =>
    if t.length % 4 ≠ 0 then .error { kind := .invalidLength, pos := 0 }
    else .ok ({ Work.init with lenS := t.length, left := some (t.length / 4) }, [])
  | .uucDec => .ok ({ Work.init with lenS := t.length, left := some 1 }, [])
  | .uufDec => do
    let (h, s) ← findBody t
    .ok ({ Work.init with ip := h + 1, lenS := t.length, bodyEnd := s, left := some (bodyOf t h s).length }, [])

/-- The bytes `t[a..a+n)`, fewer at the end of `t`. -/
def sliceOf (t : Bytes) (a n : Nat) : Bytes := (t.drop a).take n

/-- Apply a function to four bytes; the unit steps give it exactly four. -/
def onFour (g : Bytes) (f : Byte → Byte → Byte → Byte → Except Failure Bytes) : Except Failure Bytes :=
  match g with
  | [c0, c1, c2, c3] => f c0 c1 c2 c3
  | _ => .ok []

/-- Apply a function to two bytes; the unit steps give it exactly two. -/
def onTwo (g : Bytes) (f : Byte → Byte → Except Failure Bytes) : Except Failure Bytes :=
  match g with
  | [c0, c1] => f c0 c1
  | _ => .ok []

/-- The end of the body line that starts at `ip`: the next LF before `bodyEnd`, or `bodyEnd` (R207). -/
def lineEndAt (t : Bytes) (ip bodyEnd : Nat) : Nat :=
  match findSub [lf] ip (sliceOf t ip (bodyEnd - ip)) with
  | some e => e
  | none => bodyEnd

/-- `IP` moved to `a`; it "never exceeds `IN_LEN`" (R31), the length of the input `t`. -/
def Work.advance (w : Work) (a : Nat) (t : Bytes) : Work := { w with ip := min a t.length }

/-- One unit at `IP` (R235): the working registers after it and the bytes it emits, or its failure. R33 lets a model use
another design of working registers (DESIGN CHOICE, log 23): only a `B32.DEC` unit loads `ACC` and `NBITS`; a unit of any
other command works on the bytes at `IP` and leaves both 0, where the informative trace P8 has the group in `ACC`. -/
def unitAt (i : Instr) (t : Bytes) (w : Work) : Except Failure (Work × Bytes) :=
  match i with
  | .b64Enc => .ok (w.advance (w.ip + 3) t, encB64 a64 (sliceOf t w.ip 3))
  | .b64uEnc => .ok (w.advance (w.ip + 3) t, encB64 a64u (sliceOf t w.ip 3))
  | .uulEnc => .ok (w.advance (w.ip + 3) t, encUUL (sliceOf t w.ip 3))
  | .b32Enc => .ok (w.advance (w.ip + 5) t, encB32 (sliceOf t w.ip 5))
  | .b16Enc => .ok (w.advance (w.ip + 1) t, encB16 (sliceOf t w.ip 1))
  | .uucEnc => .ok ({ w.advance t.length t with lineEnd := t.length }, countedLine t)
  | .uufEnc =>
    .ok ({ w.advance (w.ip + chunkSize) t with lineStart := w.ip, lineEnd := min (w.ip + chunkSize) t.length },
      countedLine (sliceOf t w.ip chunkSize) ++ [lf])
  | .b64Dec => do
    let d ← onFour (sliceOf t w.ip 4) (decQuantum64 inv64 (w.ip + 4 == w.lenS) w.ip)
    .ok (w.advance (w.ip + 4) t, d)
  | .b64uDec => do
    let d ← onFour (sliceOf t w.ip 4) (decQuantum64 inv64u (w.ip + 4 == w.lenS) w.ip)
    .ok (w.advance (w.ip + 4) t, d)
  | .b32Dec => do
    let (acc, nbits, d) ← decSymbol32 w.ip w.acc.toNat w.nbits.toNat (t.getD w.ip 0x00#8)
    .ok ({ w.advance (w.ip + 1) t with acc := BitVec.ofNat 40 acc, nbits := BitVec.ofNat 6 nbits }, d)
  | .b16Dec => do
    let d ← onTwo (sliceOf t w.ip 2) (decPair16 w.ip)
    .ok (w.advance (w.ip + 2) t, d)
  | .uulDec => do
    let d ← onFour (sliceOf t w.ip 4) (decGroupUU w.ip)
    .ok (w.advance (w.ip + 4) t, d)
  | .uucDec => do
    let d ← decUUC t 0
    .ok ({ w.advance t.length t with lineEnd := t.length }, d)
  | .uufDec => do
    let e := lineEndAt t w.ip w.bodyEnd
    let d ← decUUC (sliceOf t w.ip (e - w.ip)) w.ip
    .ok ({ w.advance (e + 1) t with lineStart := w.ip, lineEnd := e }, d)

/-- What the last unit step adds before the marker (R235): an envelope's trailer; for `B32.DEC` the tail checks that
come "after processing" (R154, R246 (5)). -/
def lastUnit (i : Instr) (w : Work) : Except Failure Bytes :=
  match i with
  | .uufEnc => .ok trailer
  | .b32Dec => do
    checkTail32 (w.lenS - w.padCnt) w.padCnt
    .ok []
  | .b64Enc | .b64Dec | .b64uEnc | .b64uDec | .b32Enc | .b16Enc | .b16Dec | .uulEnc | .uulDec | .uucEnc | .uucDec
  | .uufDec => .ok []

/-- The bytes after the result (R66, R67): the marker for an encode, nothing for a decode. -/
def tailOf (i : Instr) : Bytes :=
  match i with
  | .b64Enc | .b64uEnc | .b32Enc | .b16Enc | .uulEnc | .uucEnc | .uufEnc => encodeTail
  | .b64Dec | .b64uDec | .b32Dec | .b16Dec | .uulDec | .uucDec | .uufDec => decodeTail

/-- Deliver a unit's bytes at `OP` (R33): the working registers `w` with `OP` moved past them. A byte outside the
capacity would be an access to an index that does not exist (R61); R70 says the core makes none. -/
def State.emit (s : State) (w : Work) (d : Bytes) : Host.Outcome State Fault Refusal :=
  if s.par.outCap < w.op + d.length then .fault .noSuchIndex
  else .next { s with
    outBuf := { s.outBuf with cells := Memory.write s.outBuf.cells w.op d }
    work := { w with op := w.op + d.length } }

/-- The last step: the marker, the result registers and `PHASE` (R228, R235). -/
def State.finishUnits (s : State) (i : Instr) (d : Bytes) : Host.Outcome State Fault Refusal :=
  if s.par.outCap < s.work.op + (d ++ tailOf i).length then .fault .noSuchIndex
  else .next (s.complete .ok 0 (s.work.op + d.length) (Memory.write s.outBuf.cells s.work.op (d ++ tailOf i)))

/-- One unit step of a started command (R235): the first does the checks and the pre-scan, each later one a unit, the
last the completion; a failure goes to completion at once. -/
def unitStep (i : Instr) (s : State) : Host.Outcome State Fault Refusal :=
  match s.work.left with
  | none =>
    if s.fits i then
      match preScan i s.inputBytes s.modeBytes s.nameBytes with
      | .error f => .next (s.raise f)
      | .ok (w, d) => { s with outBuf := { s.outBuf with cells := [] } }.emit w d
    else .next (s.raise { kind := .bufferTooSmall, pos := 0 })
  | some 0 =>
    match lastUnit i s.work with
    | .error f => .next (s.raise f)
    | .ok d => s.finishUnits i d
  | some (k + 1) =>
    match unitAt i s.inputBytes s.work with
    | .error f => .next (s.raise f)
    | .ok (w, d) => s.emit { w with left := some k } d

/-- A turn of the core for one unit step: nothing unless a command was started; an illegal word completes (R97). -/
def unitTurn (s : State) : Host.Outcome State Fault Refusal :=
  match s.phase with
  | .idle => .next s
  | .done => .next s
  | .busy =>
    match decode s.cmd with
    | .ok i => unitStep i s
    | .error _ => .next s.takeIllegal

/-- At most `n` unit steps of a command, ending when it completes. -/
def runUnits (i : Instr) : Nat → State → Host.Outcome State Fault Refusal
  | 0, s => .next s
  | n + 1, s =>
    match unitStep i s with
    | .next t => if t.phase = .busy then runUnits i n t else .next t
    | .fault f => .fault f
    | .refused r => .refused r

/-- The number of unit steps of a command that runs to its end: `2 + U` (R301). -/
def unitCount (i : Instr) (s : State) : Nat :=
  match preScan i s.inputBytes s.modeBytes s.nameBytes with
  | .ok (w, _) => 2 + w.left.getD 0
  | .error _ => 1

end Sys2Proof.Machine
end

