-- ==== Sys2Proof/Machine/Step.lean ====
section
/-! DEFINITION. One step of the machine: the next event of `pending`, or, with none, a turn of the core. -/

namespace Sys2Proof.Machine

/-- A turn of the core: a started command runs from BUSY to DONE in one atomic step (R227); an illegal word completes
at once (R97); between commands the core keeps all state (R275). -/
def coreTurn (s : State) : Host.Outcome State Fault Refusal :=
  match s.phase with
  | .idle => .next s
  | .done => .next s
  | .busy =>
    match decode s.cmd with
    | .ok i => exec i s
    | .error _ => .next s.takeIllegal

/-- One step (R20, R73): the oldest pending event happens; with none pending the core has its turn. -/
def step (s : State) : Host.Outcome State Fault Refusal :=
  match s.pending with
  | [] => coreTurn s
  | .core :: rest => coreTurn { s with pending := rest }
  | .unit :: rest => unitTurn { s with pending := rest }
  | .reset :: rest => .next { s with pending := rest }.applyReset
  | .host a :: rest => hostAccess a { s with pending := rest }

/-- `s` with a command word placed so that the very next step runs it (log 10). -/
def State.withFetchWord (s : State) (nbits w : Nat) : State := s.placeCommand (BitVec.ofNat 8 (w % 2 ^ nbits))

end Sys2Proof.Machine
end

