-- ==== Sys2Proof/Machine/Script.lean ====
section
/-! DEFINITION. Host scripts (R99): each line as the host's accesses it stands for. The host is the agent outside the
core (R4, R20); these definitions say which accesses it makes. -/

namespace Sys2Proof.Machine

/-- A line of a host script (R99). -/
inductive Line
  /-- `IN <- bytes`, `MODE <- bytes`, `NAME <- bytes` -/
  | load (sp : Space) (v : Bytes)
  /-- `RUN mnemonic` -/
  | run (i : Instr)
  /-- `MOVE`: copy `OUT[0..OUT_LEN)` to `IN[0..)` and set `IN_LEN <- OUT_LEN` -/
  | move
  /-- `EXPECT register = value` -/
  | expectReg (r : Reg) (v : Nat)
  /-- `EXPECT buffer[0..n) = bytes` -/
  | expectBytes (sp : Space) (v : Bytes)
  deriving DecidableEq, Repr

/-- The byte writes that put `v` at `a`, `a+1`, … of a buffer. -/
def byteWrites (sp : Space) : Nat → Bytes → List Event
  | _, [] => []
  | a, v :: vs => .host (.writeByte sp a v) :: byteWrites sp (a + 1) vs

/-- The length register of a buffer (R22); `OUT_LEN` is read-only, so a write to it is ignored. -/
def lenReg : Space → Reg
  | .input => .inLen
  | .output => .outLen
  | .mode => .modeLen
  | .name => .nameLen

/-- The events of a line in the state it begins in (R99): `RUN` writes `CMD`, writes `CTRL.START`, the core has its
turn, and the host reads `PHASE` (log 22). -/
def Line.events (s : State) : Line → List Event
  | .load sp v => byteWrites sp 0 v ++ [.host (.writeReg (lenReg sp) v.length)]
  | .run i => [.host (.writeReg .cmd (encode i).toNat), .host (.writeReg .ctrl 1), .core, .host (.readReg .phase)]
  | .move => byteWrites .input 0 (s.outBuf.read .output 0 s.outLen) ++ [.host (.writeReg .inLen s.outLen)]
  | .expectReg _ _ => []
  | .expectBytes _ _ => []

/-- Whether a line's expectation holds (R99). -/
def Line.holds (s : State) : Line → Bool
  | .expectReg r v => s.readReg r == v
  | .expectBytes sp v => (s.buffer sp).read sp 0 v.length == v
  | .load _ _ | .run _ | .move => true

/-- Let events happen, one step each, oldest first. -/
def playEvents : List Event → State → Host.Outcome State Fault Refusal
  | [], s => .next s
  | e :: es, s =>
    match step { s with pending := [e] } with
    | .next t => playEvents es t
    | .fault f => .fault f
    | .refused r => .refused r

/-- Play a script; none when an expectation fails or a step stops. -/
def playScript : List Line → State → Option State
  | [], s => some s
  | l :: ls, s =>
    if l.holds s then
      match playEvents (l.events s) s with
      | .next t => playScript ls t
      | .fault _ => none
      | .refused _ => none
    else none

end Sys2Proof.Machine
end

