-- ==== Sys2Proof/Safety.lean ====
section
/-! DEFINITION. What holds of a state of the hardware, and what counts as a safe step. -/

namespace Sys2Proof.Machine

/-- The constraints on the parameters that R7 takes as premises. -/
abbrev paramsWf (p : Params) : Prop :=
  p.inCap < 2 ^ p.lenw ∧ p.outCap < 2 ^ p.lenw ∧ p.auxCap < 2 ^ p.lenw ∧
    ∀ i ∈ Instr.all, commandReqLen i p.inCap p.auxCap p.auxCap < 2 ^ p.lenw

/-- The registers keep their widths (R22). -/
abbrev State.regsWf (s : State) : Prop :=
  s.inLen < 2 ^ s.par.lenw ∧ s.modeLen < 2 ^ s.par.lenw ∧ s.nameLen < 2 ^ s.par.lenw ∧
    s.outLen < 2 ^ s.par.lenw ∧ s.errPos < 2 ^ s.par.lenw

/-- The four buffers are in canonical form, inside their capacities (R35, R61, R70). -/
abbrev State.memWf (s : State) : Prop :=
  Memory.wf s.par.inCap s.inBuf.cells ∧ Memory.wf s.par.outCap s.outBuf.cells ∧
    Memory.wf s.par.auxCap s.modeBuf.cells ∧ Memory.wf s.par.auxCap s.nameBuf.cells

/-- The result registers agree with each other (R25 to R28, R242, R244, R245): a failure has result length 0, a
success has position 0, the host's own two kinds never stand in `STATUS`, and in `IDLE` nothing has completed. -/
abbrev State.resultWf (s : State) : Prop :=
  (s.status ≠ .ok → s.outLen = 0) ∧ (s.status = .ok → s.errPos = 0) ∧
    s.status ≠ .failed .ioFailure ∧ s.status ≠ .failed .outOfMemory ∧
    (s.phase = .idle → s.status = .ok ∧ s.outLen = 0) ∧ s.outLen ≤ s.par.outCap

/-- The working registers keep their widths (R33), and while a command runs `IP` never exceeds `IN_LEN` (R31) and `OP`
never exceeds the capacity of `OUT` (R70). -/
abbrev State.workWf (s : State) : Prop :=
  s.work.ip < 2 ^ s.par.lenw ∧ s.work.op < 2 ^ s.par.lenw ∧ s.work.lenS < 2 ^ s.par.lenw ∧
    s.work.padCnt < 2 ^ s.par.lenw ∧ s.work.lineStart < 2 ^ s.par.lenw ∧ s.work.lineEnd < 2 ^ s.par.lenw ∧
    s.work.bodyEnd < 2 ^ s.par.lenw ∧
    (s.phase = .busy → s.work.ip ≤ s.inLen ∧ s.work.op ≤ s.par.outCap)

/-- What every state of the hardware meets. -/
abbrev State.wf (s : State) : Prop := paramsWf s.par ∧ s.regsWf ∧ s.memWf ∧ s.resultWf ∧ s.workWf

/-- An event that cannot fault whatever the phase: every event but a host write, and a read of an index that
exists (R61, R290). -/
def Event.safeWhileBusy (p : Params) : Event → Bool
  | .core | .unit | .reset => true
  | .host (.readReg _) => true
  | .host (.readByte sp a) => a < capOf p sp
  | .host (.writeReg _ _) => false
  | .host (.writeByte _ _ _) => false

/-- An event that cannot fault while the host owns the registers and buffers (R21, R232). -/
def Event.safeWhileOwned (p : Params) : Event → Bool
  | .core | .unit | .reset => true
  | .host (.readReg _) => true
  | .host (.readByte sp a) => a < capOf p sp
  | .host (.writeReg _ _) => true
  | .host (.writeByte sp a _) => a < capOf p sp

/-- The host keeps its obligations at the next step (R21, R290): while BUSY it writes nothing, and it names only
indices that exist. -/
def State.hostObeys (s : State) : Bool :=
  match s.pending with
  | [] => true
  | e :: _ => if s.phase = .busy then e.safeWhileBusy s.par else e.safeWhileOwned s.par

/-- A safe step: neither a fault nor a refusal. -/
abbrev State.safeStep (s : State) : Prop := ∃ t, step s = .next t

end Sys2Proof.Machine
end

