-- ==== Sys2Proof/Certificates/Slice0/Obligations.lean ====
section
/-! DEFINITION. The statements for the provers, each about the machine, and the few words they share. The words of
`Sys2Proof.Claims` are written from the spec's rules over single bytes, sums, quotients and remainders; of the model
they use the state, its reads, `exec`, `step` and the symbol tables (which have statements of their own). -/

namespace Sys2Proof.Claims

open Sys2Proof.Machine

/-- Completed with `OK` and `n` result bytes (R245). -/
def Succeeds (t : State) (n : Nat) : Prop :=
  t.status = .ok ∧ t.errPos = 0 ∧ t.outLen = n ∧ t.phase = .done

/-- Completed with the failure kind `k` at position `pos` (R244). -/
def Fails (t : State) (k : FailKind) (pos : Nat) : Prop :=
  t.status = .failed k ∧ t.errPos = pos ∧ t.outLen = 0 ∧ t.phase = .done

/-- What no command changes (R36, R244): the input registers, every byte of `IN`, `MODE`, `NAME`; and of the model's
own fields the parameters, what is pending, and the host's last reading. -/
def Unchanged (s t : State) : Prop :=
  t.par = s.par ∧ t.cmd = s.cmd ∧ t.inLen = s.inLen ∧ t.modeLen = s.modeLen ∧ t.nameLen = s.nameLen ∧
    t.pending = s.pending ∧ t.lastRead = s.lastRead ∧ ∀ sp a, sp ≠ .output → t.byte sp a = s.byte sp a

/-- The input fits `IN` and `need` bytes fit `OUT` (R226). -/
def Room (s : State) (need : Nat) : Prop := s.inLen ≤ s.par.inCap ∧ need ≤ s.par.outCap

/-- The header fields fit their buffers (R226, for `UUF.ENC`). -/
def FieldRoom (s : State) : Prop := s.modeLen ≤ s.par.auxCap ∧ s.nameLen ≤ s.par.auxCap

/-- `IN[j]`, as a number; 0 at and beyond `IN_LEN` (the zero extension of R64, R151). -/
def inAt (s : State) (j : Nat) : Nat := if j < s.inLen then (s.byte .input j).toNat else 0

/-- Window `k` of the 24-bit group that begins at `IN[a]` (R63, R64). -/
def sextet (s : State) (a k : Nat) : Nat :=
  (inAt s a * 2 ^ 16 + inAt s (a + 1) * 2 ^ 8 + inAt s (a + 2)) / 2 ^ (18 - 6 * k) % 2 ^ 6

/-- Window `k` of the 40-bit group that begins at `IN[a]` (R65, R151). -/
def quintet (s : State) (a k : Nat) : Nat :=
  (inAt s a * 2 ^ 32 + inAt s (a + 1) * 2 ^ 24 + inAt s (a + 2) * 2 ^ 16 + inAt s (a + 3) * 2 ^ 8 + inAt s (a + 4))
    / 2 ^ (35 - 5 * k) % 2 ^ 5

/-- `OUT[base ..]` holds `4 * ceil(n/3)` symbols of the `n` input bytes from `IN[a]` on: `sym` of each window that
carries data, `fill` in the places after them (R132, R182). -/
def SextetText (s t : State) (sym : Nat → Byte) (fill : Byte) (a n base : Nat) : Prop :=
  ∀ q k, q < (n + 2) / 3 → k < 4 →
    t.byte .output (base + 4 * q + k) = if 3 * q + k ≤ n then sym (sextet s (a + 3 * q) k) else fill

/-- CR or LF (R105). -/
def LineEnd (c : Byte) : Prop := c = 0x0D#8 ∨ c = 0x0A#8

/-- `IN[0..IN_LEN)` is `l` bytes and then `e` bytes that are each CR or LF (R133). -/
def EndsIn (s : State) (l e : Nat) : Prop :=
  s.inLen = l + e ∧ ∀ j, l ≤ j → j < l + e → LineEnd (s.byte .input j)

/-- And those are all: the byte before them is neither CR nor LF (R133). -/
def EndsInAll (s : State) (l e : Nat) : Prop := EndsIn s l e ∧ (0 < l → ¬ LineEnd (s.byte .input (l - 1)))

/-- `IN[0..k)` are symbols. -/
def SymbolsTo (inv : Byte → Option Nat) (s : State) (k : Nat) : Prop := ∀ j, j < k → inv (s.byte .input j) ≠ none

/-- `IN[k..k+p)` are pads. -/
def PadsAt (s : State) (k p : Nat) : Prop := ∀ j, k ≤ j → j < k + p → s.byte .input j = 0x3D#8

/-- The value of the symbol `IN[j]`, 0 at and beyond index `k`, where no symbols are. -/
def valueAt (inv : Byte → Option Nat) (s : State) (k j : Nat) : Nat :=
  if j < k then (inv (s.byte .input j)).getD 0 else 0

/-- Four symbol values from `IN[a]` on as a 24-bit integer (R136, R184). -/
def quantum (inv : Byte → Option Nat) (s : State) (k a : Nat) : Nat :=
  valueAt inv s k a * 2 ^ 18 + valueAt inv s k (a + 1) * 2 ^ 12 + valueAt inv s k (a + 2) * 2 ^ 6 +
    valueAt inv s k (a + 3)

/-- Eight symbol values from `IN[a]` on as a 40-bit integer. -/
def quantum32 (s : State) (k a : Nat) : Nat :=
  valueAt inv32 s k a * 2 ^ 35 + valueAt inv32 s k (a + 1) * 2 ^ 30 + valueAt inv32 s k (a + 2) * 2 ^ 25 +
    valueAt inv32 s k (a + 3) * 2 ^ 20 + valueAt inv32 s k (a + 4) * 2 ^ 15 + valueAt inv32 s k (a + 5) * 2 ^ 10 +
    valueAt inv32 s k (a + 6) * 2 ^ 5 + valueAt inv32 s k (a + 7)

/-- `OUT[0..n)` holds the bytes of the 24-bit groups of the symbols `IN[a..k)`, high byte first (R136, R184). -/
def QuantumBytes (inv : Byte → Option Nat) (s t : State) (a k n : Nat) : Prop :=
  ∀ j, j < n → (t.byte .output j).toNat = quantum inv s k (a + 4 * (j / 3)) / 2 ^ (16 - 8 * (j % 3)) % 2 ^ 8

/-- The value of a hexadecimal digit in either case (R103, R173). -/
def hexValue (c : Byte) : Option Nat :=
  if 0x30 ≤ c.toNat ∧ c.toNat ≤ 0x39 then some (c.toNat - 0x30)
  else if 0x41 ≤ c.toNat ∧ c.toNat ≤ 0x46 then some (c.toNat - 0x37)
  else if 0x61 ≤ c.toNat ∧ c.toNat ≤ 0x66 then some (c.toNat - 0x57)
  else none

/-- The canonical pad count of a Base32 text of `k` symbols (R155). -/
def canonicalPads (k : Nat) : Nat :=
  if k % 8 = 2 then 6 else if k % 8 = 4 then 4 else if k % 8 = 5 then 3 else if k % 8 = 7 then 1 else 0

/-- The size of the envelope of `n` bytes with fields of `m` and `f` bytes (R203). -/
def envelopeSize (n m f : Nat) : Nat :=
  13 + m + f + 82 * (n / 60) + (if 0 < n % 60 then 2 + 4 * ((n % 60 + 2) / 3) else 0)

/-- `ReqLen` as the table of R221 and R223 gives it. -/
def sizeTable (i : Instr) (n m f : Nat) : Nat :=
  match i with
  | .b64Enc => 4 * ((n + 2) / 3) + 1
  | .b64uEnc => 4 * ((n + 2) / 3) + 1
  | .b32Enc => 8 * ((n + 4) / 5) + 1
  | .b16Enc => 2 * n + 1
  | .uulEnc => 4 * ((n + 2) / 3) + 1
  | .uucEnc => 4 * ((n + 2) / 3) + 2
  | .uufEnc => 14 + m + f + 82 * (n / 60) + (if 0 < n % 60 then 2 + 4 * ((n % 60 + 2) / 3) else 0)
  | .b64Dec => n
  | .b64uDec => n
  | .b32Dec => n
  | .b16Dec => n
  | .uulDec => n
  | .uucDec => n
  | .uufDec => n

/-- The encode commands (R93: `DIR` 0). -/
def isEncode (i : Instr) : Bool :=
  i ∈ [Instr.b64Enc, .b64uEnc, .b32Enc, .b16Enc, .uulEnc, .uucEnc, .uufEnc]

/-- The number `STATUS` reads as (R26, R98). -/
def statusNumber : Status → Nat
  | .ok => 0
  | .failed .invalidAlphabetChar => 1
  | .failed .invalidLength => 2
  | .failed .invalidPadding => 3
  | .failed .invalidFormat => 4
  | .failed .ioFailure => 5
  | .failed .outOfMemory => 6
  | .failed .illegalCommand => 7
  | .failed .bufferTooSmall => 8

/-- The number `PHASE` reads as (R22, R25). -/
def phaseNumber : Phase → Nat
  | .idle => 0
  | .busy => 1
  | .done => 2

/-- Which failure kinds a legal command can raise (the table of R243). -/
def mayRaise (i : Instr) (k : FailKind) : Bool :=
  match k with
  | .bufferTooSmall => true
  | .invalidLength => i ∈ [Instr.b64Dec, .b64uDec, .b16Dec, .uulDec, .uucEnc, .uucDec, .uufDec]
  | .invalidPadding => i ∈ [Instr.b64Dec, .b64uDec, .b32Dec]
  | .invalidAlphabetChar => i ∈ [Instr.b64Dec, .b64uDec, .b32Dec, .b16Dec, .uulDec, .uucDec, .uufDec]
  | .invalidFormat => i ∈ [Instr.uufDec]
  | .illegalCommand => false
  | .ioFailure => false
  | .outOfMemory => false

/-- A body line with a count character of value `e` in front of whole groups of symbols, enough for `e` bytes (R189). -/
def GoodLine (l : Bytes) (e : Nat) : Prop :=
  ∃ c line, l = c :: line ∧ line.length % 4 = 0 ∧ uuVal c = some e ∧ e ≤ 3 * (line.length / 4) ∧
    ∀ x ∈ line, uuVal x ≠ none

/-- The bytes a good line stands for (R184, R189): the first `e` bytes of its groups. -/
def lineData (l : Bytes) (e : Nat) : Bytes :=
  (List.range e).map fun j =>
    let v := fun k => (uuVal (l.getD (1 + 4 * (j / 3) + k) 0x60#8)).getD 0
    BitVec.ofNat 8 ((v 0 * 2 ^ 18 + v 1 * 2 ^ 12 + v 2 * 2 ^ 6 + v 3) / 2 ^ (16 - 8 * (j % 3)) % 2 ^ 8)

/-- Why a body line is refused and at which index of it (R189, in the order of R246). -/
def BadLine (l : Bytes) (k : FailKind) (pos : Nat) : Prop :=
  (l = [] ∧ k = .invalidLength ∧ pos = 0) ∨
  ∃ c line, l = c :: line ∧
    ((line.length % 4 ≠ 0 ∧ k = .invalidLength ∧ pos = 0) ∨
     (line.length % 4 = 0 ∧ uuVal c = none ∧ k = .invalidAlphabetChar ∧ pos = 0) ∨
     (line.length % 4 = 0 ∧ ∃ e, uuVal c = some e ∧
       ((3 * (line.length / 4) < e ∧ k = .invalidLength ∧ pos = 0) ∨
        (e ≤ 3 * (line.length / 4) ∧ k = .invalidAlphabetChar ∧ 0 < pos ∧
          (∃ x, l[pos]? = some x ∧ uuVal x = none) ∧ ∀ j x, 0 < j → j < pos → l[j]? = some x → uuVal x ≠ none))))

/-- `"begin "` (R202). -/
def beginBytes : Bytes := [0x62#8, 0x65#8, 0x67#8, 0x69#8, 0x6E#8, 0x20#8]

/-- A backtick, LF and `end`: the terminator line and what follows it (R112). -/
def endBytes : Bytes := [0x60#8, 0x0A#8, 0x65#8, 0x6E#8, 0x64#8]

/-- Lines, each with its LF. -/
def asBody (ls : List Bytes) : Bytes := ls.flatMap fun l => l ++ [0x0A#8]

/-- The input registers of `t` are those of `s`, and so are the input bytes a command reads (R41). -/
def SameInput (i : Instr) (s t : State) : Prop :=
  t.par = s.par ∧ t.inLen = s.inLen ∧ (∀ j, j < s.inLen → t.byte .input j = s.byte .input j) ∧
    (i = .uufEnc → t.modeLen = s.modeLen ∧ t.nameLen = s.nameLen ∧
      (∀ j, j < s.modeLen → t.byte .mode j = s.byte .mode j) ∧ ∀ j, j < s.nameLen → t.byte .name j = s.byte .name j)

/-- The same visible result (R41): kind, position, length, result bytes. -/
def SameResult (t u : State) : Prop :=
  u.phase = t.phase ∧ u.status = t.status ∧ u.errPos = t.errPos ∧ u.outLen = t.outLen ∧
    ∀ j, j < t.outLen → u.byte .output j = t.byte .output j

/-- The script `RUN enc`, `MOVE`, `RUN dec` gives the input back in `OUT` (R99). -/
def Restores (enc dec : Instr) (s : State) : Prop :=
  ∃ u, playScript [.run enc, .move, .run dec] s = some u ∧ Succeeds u s.inLen ∧
    ∀ j, j < s.inLen → u.byte .output j = s.byte .input j

/-- The buffers are large enough for `enc` and for its result as the next input (R226), and lengths do not wrap (R7). -/
def RoomToRestore (enc : Instr) (s : State) : Prop :=
  s.phase ≠ .busy ∧ s.par.outCap < 2 ^ s.par.lenw ∧ s.inLen ≤ s.par.inCap ∧
    sizeTable enc s.inLen s.modeLen s.nameLen ≤ s.par.outCap ∧
    sizeTable enc s.inLen s.modeLen s.nameLen ≤ s.par.inCap + 1

end Sys2Proof.Claims

open Sys2Proof Sys2Proof.Machine Sys2Proof.Claims

/-! ### Encoding and tables -/

/-- R90, R94: the command words, and that every other word is illegal. -/
def Obligations.CommandWordsDecodeAsTabled : Prop :=
  decode 0x00#8 = .ok .b64Enc ∧ decode 0x01#8 = .ok .b64Dec ∧ decode 0x02#8 = .ok .b64uEnc ∧
  decode 0x03#8 = .ok .b64uDec ∧ decode 0x04#8 = .ok .b32Enc ∧ decode 0x05#8 = .ok .b32Dec ∧
  decode 0x06#8 = .ok .b16Enc ∧ decode 0x07#8 = .ok .b16Dec ∧ decode 0x08#8 = .ok .uulEnc ∧
  decode 0x09#8 = .ok .uulDec ∧ decode 0x0A#8 = .ok .uucEnc ∧ decode 0x0B#8 = .ok .uucDec ∧
  decode 0x0C#8 = .ok .uufEnc ∧ decode 0x0D#8 = .ok .uufDec ∧
  ∀ w : Byte, 0x0E ≤ w.toNat → ∃ e, decode w = .error e

/-- Every command decodes from its own word, and from no other (R91: the whole word is matched). -/
def Obligations.DecodeInvertsEncode : Prop :=
  ∀ i : Instr, i.wellFormed = true ∧ decode (encode i) = .ok i ∧ ∀ w, decode w = .ok i → w = encode i

/-- R100 to R103: the four alphabets by their symbols. -/
def Obligations.AlphabetsAreTheListedSymbols : Prop :=
  (∀ v < 26, symbol a64 v = BitVec.ofNat 8 (0x41 + v)) ∧ (∀ v < 26, symbol a64 (26 + v) = BitVec.ofNat 8 (0x61 + v)) ∧
  (∀ v < 10, symbol a64 (52 + v) = BitVec.ofNat 8 (0x30 + v)) ∧ symbol a64 62 = 0x2B#8 ∧ symbol a64 63 = 0x2F#8 ∧
  a64.length = 64 ∧
  (∀ v < 62, symbol a64u v = symbol a64 v) ∧ symbol a64u 62 = 0x2D#8 ∧ symbol a64u 63 = 0x5F#8 ∧ a64u.length = 64 ∧
  (∀ v < 26, symbol a32 v = BitVec.ofNat 8 (0x41 + v)) ∧ (∀ v < 6, symbol a32 (26 + v) = BitVec.ofNat 8 (0x32 + v)) ∧
  a32.length = 32 ∧
  (∀ v < 10, symbol a16 v = BitVec.ofNat 8 (0x30 + v)) ∧ (∀ v < 6, symbol a16 (10 + v) = BitVec.ofNat 8 (0x41 + v)) ∧
  a16.length = 16

/-- R38: an inverse table holds a value exactly for the symbols of its alphabet, and the pad is in none. -/
def Obligations.InverseTablesInvertTheAlphabets : Prop :=
  (∀ (c : Byte) (v : Nat), inv64 c = some v ↔ a64[v]? = some c) ∧
  (∀ (c : Byte) (v : Nat), inv64u c = some v ↔ a64u[v]? = some c) ∧
  (∀ (c : Byte) (v : Nat), inv32 c = some v ↔ a32[v]? = some c) ∧
  (∀ (c : Byte) (v : Nat), inv16 c = some v ↔ a16[v]? = some c) ∧
  inv64 0x3D#8 = none ∧ inv64u 0x3D#8 = none ∧ inv32 0x3D#8 = none ∧ inv16 0x3D#8 = none

/-- R106, R107: the uuencode symbol of each sextet, that the space is never one, and what each byte is read as. -/
def Obligations.UuencodeSymbolMapping : Prop :=
  uuChar 0 = 0x60#8 ∧ (∀ v, 0 < v → v < 64 → (uuChar v).toNat = v + 0x20) ∧ (∀ v < 64, uuChar v ≠ 0x20#8) ∧
  uuVal 0x60#8 = some 0 ∧
  (∀ c : Byte, 0x20 ≤ c.toNat → c.toNat ≤ 0x5F → uuVal c = some (c.toNat - 0x20)) ∧
  (∀ c : Byte, c.toNat < 0x20 ∨ 0x60 < c.toNat → uuVal c = none)

/-- R98, R22: the code of each kind and of each phase, that a read of `STATUS` and of `PHASE` gives it, and the numbers of
the registers. -/
def Obligations.StatusAndRegisterNumbers : Prop :=
  Status.ok.code = 0 ∧ (Status.failed .invalidAlphabetChar).code = 1 ∧ (Status.failed .invalidLength).code = 2 ∧
  (Status.failed .invalidPadding).code = 3 ∧ (Status.failed .invalidFormat).code = 4 ∧
  (Status.failed .ioFailure).code = 5 ∧ (Status.failed .outOfMemory).code = 6 ∧
  (Status.failed .illegalCommand).code = 7 ∧ (Status.failed .bufferTooSmall).code = 8 ∧
  Phase.idle.code = 0 ∧ Phase.busy.code = 1 ∧ Phase.done.code = 2 ∧
  [Reg.cmd, .inLen, .modeLen, .nameLen, .ctrl, .phase, .status, .outLen, .errPos, .reqLen].map Reg.number =
    [0, 1, 2, 3, 4, 5, 6, 7, 8, 9] ∧
  ∀ s : State, s.readReg .status = s.status.code ∧ s.readReg .phase = s.phase.code

/-! ### The step, the start and the end of a command -/

/-- A turn of the core while BUSY runs the decoded command word (R225, R227): with nothing pending, or with the core's
turn as the oldest event, which is then taken off the list. -/
def Obligations.StepRunsTheCommandWord : Prop :=
  ∀ (s : State) (i : Instr), s.phase = .busy → decode s.cmd = .ok i →
    (s.pending = [] → step s = exec i s) ∧
    ∀ rest, s.pending = .core :: rest → step s = exec i { s with pending := rest }

/-- The next step of a state with a command word placed runs that command, started and with the word in `CMD`. -/
def Obligations.PlacedCommandRunsNext : Prop :=
  ∀ (s : State) (i : Instr),
    step (s.withFetchWord 8 (encode i).toNat) = exec i { s.start with cmd := encode i }

/-- R97: starting an illegal word completes at once with `IllegalCommand` and changes no input, in a turn of the core with
nothing pending, in one that is the oldest event, and in a unit step (logs 9, 11). -/
def Obligations.IllegalWordCompletesAtOnce : Prop :=
  ∀ s : State, s.phase = .busy → 0x0E ≤ s.cmd.toNat →
    (s.pending = [] → ∃ t, step s = .next t ∧ Fails t .illegalCommand 0 ∧ Unchanged s t) ∧
    ∀ rest, s.pending = .core :: rest ∨ s.pending = .unit :: rest →
      ∃ t, step s = .next t ∧ Fails t .illegalCommand 0 ∧ Unchanged { s with pending := rest } t

/-- R226: a command whose input, header field or result does not fit completes with `BufferTooSmall`. -/
def Obligations.TooSmallBufferFails : Prop :=
  ∀ (s : State) (i : Instr),
    (s.par.inCap < s.inLen ∨ (i = .uufEnc ∧ (s.par.auxCap < s.modeLen ∨ s.par.auxCap < s.nameLen)) ∨
      s.par.outCap < sizeTable i s.inLen s.modeLen s.nameLen) →
    ∃ t, exec i s = .next t ∧ Fails t .bufferTooSmall 0 ∧ Unchanged s t

/-- R220, R221, R223, R224, R29: what `REQ_LEN` reads, for every command word. -/
def Obligations.RequiredLengthIsTheSizeTable : Prop :=
  (∀ (s : State) (i : Instr), s.cmd = encode i →
    s.readReg .reqLen = sizeTable i s.inLen s.modeLen s.nameLen % 2 ^ s.par.lenw) ∧
  ∀ s : State, 0x0E ≤ s.cmd.toNat → s.readReg .reqLen = 0

/-- R24, R225: a write of `CTRL` while not BUSY starts the command when bit 0 is set and does nothing when it is clear. -/
def Obligations.StartSetsBusy : Prop :=
  ∀ (s : State) (v : Nat) (rest : List Event), s.phase ≠ .busy → s.pending = .host (.writeReg .ctrl v) :: rest →
    (v % 2 = 1 → ∃ t, step s = .next t ∧ t.phase = .busy ∧ t.status = s.status ∧ t.outLen = s.outLen ∧
      t.errPos = s.errPos ∧ t.pending = rest ∧ t.outBuf = s.outBuf ∧ Unchanged { s with pending := rest } t) ∧
    (v % 2 = 0 → step s = .next { s with pending := rest })

/-- R227, R300: every started command reaches `DONE` in one turn of the core, whatever its word and inputs. -/
def Obligations.StartedCommandReachesDone : Prop :=
  (∀ (s : State) (i : Instr), ∃ t, exec i s = .next t ∧ t.phase = .done) ∧
  ∀ s : State, s.phase = .busy →
    (s.pending = [] → ∃ t, step s = .next t ∧ t.phase = .done) ∧
    ∀ rest, s.pending = .core :: rest → ∃ t, step s = .next t ∧ t.phase = .done ∧ t.pending = rest

/-- The frame of every command (R36, R244): what it never changes, what it leaves in the result registers, and that no
byte of `OUT` outside the result and the marker has a defined value after it. -/
def Obligations.CommandFrame : Prop :=
  ∀ (s t : State) (i : Instr), exec i s = .next t →
    Unchanged s t ∧ t.phase = .done ∧
    (t.status = .ok ∧ t.errPos = 0 ∨ (∃ k, t.status = .failed k) ∧ t.outLen = 0) ∧
    (∀ a, t.status ≠ .ok → Memory.get? t.outBuf.cells a = none) ∧
    ∀ a, t.outLen + (if isEncode i then 1 else 0) ≤ a → Memory.get? t.outBuf.cells a = none

/-- R70: a command gives values to indices of `OUT` below `ReqLen` only, and those lie below `OUT_CAP`. -/
def Obligations.WritesStayBelowRequiredLength : Prop :=
  ∀ (s t : State) (i : Instr) (a : Nat), exec i s = .next t → Memory.get? t.outBuf.cells a ≠ none →
    a < sizeTable i s.inLen s.modeLen s.nameLen ∧ a < s.par.outCap

/-- The table of R243: which kinds each command can end with, that the recorded position lies in the input, and where it is
0; the positions inside the input are those of the statements on each decode. -/
def Obligations.FailureKindsOfEachCommand : Prop :=
  ∀ (s t : State) (i : Instr), exec i s = .next t →
    t.status = .ok ∨ ∃ k, t.status = .failed k ∧ mayRaise i k = true ∧ t.errPos ≤ s.inLen ∧
      (k = .bufferTooSmall ∨ k = .invalidFormat → t.errPos = 0) ∧
      (k = .invalidLength → i ≠ .uufDec → t.errPos = 0) ∧
      (k = .invalidAlphabetChar → t.errPos < s.inLen)

/-- R41: the result is a function of the parameters, `IN_LEN`, `IN[0..IN_LEN)` and, for `UUF.ENC`, the header fields;
of no old content, no byte beyond the lengths, no earlier command; and the host-written inputs are left unchanged. -/
def Obligations.ResultDependsOnTheInputOnly : Prop :=
  ∀ (s s' t t' : State) (i : Instr), SameInput i s s' → exec i s = .next t → exec i s' = .next t' →
    SameResult t t' ∧ Unchanged s t

/-- R249: after a command the core accepts the next `START`, and the same command on the same inputs gives the same
result again. -/
def Obligations.RerunGivesTheSameResult : Prop :=
  ∀ (s t : State) (i : Instr), exec i s = .next t → ∃ u, exec i t.start = .next u ∧ SameResult t u

/-- R221: a successful encode writes exactly `ReqLen` bytes, the last of them the marker 0x00 (R66), and
`OUT_LEN = ReqLen - 1`; every encode but `UUC.ENC` succeeds on every input that fits. That the marker's value is 0x00
is general knowledge (K6, log 17). -/
def Obligations.EncodeLengthIsRequiredLength : Prop :=
  ∀ (s : State) (i : Instr), isEncode i = true → (i = .uucEnc → s.inLen ≤ 63) → (i = .uufEnc → FieldRoom s) →
    Room s (sizeTable i s.inLen s.modeLen s.nameLen) →
    ∃ t, exec i s = .next t ∧ Succeeds t (sizeTable i s.inLen s.modeLen s.nameLen - 1) ∧
      t.byte .output t.outLen = 0x00#8 ∧
      (∀ a, Memory.get? t.outBuf.cells a ≠ none ↔ a < sizeTable i s.inLen s.modeLen s.nameLen) ∧ Unchanged s t

/-! ### Base64 -/

/-- R130 to R132: the symbols `B64.ENC` and `B64U.ENC` give, window by window, and the pads; behind them the marker of
R66, whose value 0x00 is general knowledge (K6, log 17). -/
def Obligations.Base64EncodeSymbols : Prop :=
  ∀ s : State, Room s (4 * ((s.inLen + 2) / 3) + 1) →
    (∃ t, exec .b64Enc s = .next t ∧ Succeeds t (4 * ((s.inLen + 2) / 3)) ∧
      SextetText s t (symbol a64) 0x3D#8 0 s.inLen 0 ∧ t.byte .output t.outLen = 0x00#8 ∧ Unchanged s t) ∧
    (∃ t, exec .b64uEnc s = .next t ∧ Succeeds t (4 * ((s.inLen + 2) / 3)) ∧
      SextetText s t (symbol a64u) 0x3D#8 0 s.inLen 0 ∧ t.byte .output t.outLen = 0x00#8 ∧ Unchanged s t)

/-- R136, R138: a text of `k` symbols, `p` pads and `e` line ends decodes to the bytes of its quanta; the low bits that
the pads drop are not looked at. -/
def Obligations.Base64DecodeBytes : Prop :=
  ∀ (s : State) (i : Instr) (inv : Byte → Option Nat) (k p e : Nat),
    (i = .b64Dec ∧ inv = inv64) ∨ (i = .b64uDec ∧ inv = inv64u) →
    EndsIn s (k + p) e → SymbolsTo inv s k → PadsAt s k p → (k + p) % 4 = 0 → p ≤ 2 → (k + p = 0 → e = 0) →
    Room s s.inLen →
    ∃ t, exec i s = .next t ∧ Succeeds t (3 * ((k + p) / 4) - p) ∧ QuantumBytes inv s t 0 k t.outLen ∧ Unchanged s t

/-- R136: the two length failures, which come before any symbol is looked at (R137 (b), (c), (i)). -/
def Obligations.Base64DecodeLengthFailures : Prop :=
  ∀ (s : State) (i : Instr) (l e : Nat), (i = .b64Dec ∨ i = .b64uDec) →
    EndsInAll s l e → (l = 0 ∧ 0 < e) ∨ l % 4 ≠ 0 → Room s s.inLen →
    ∃ t, exec i s = .next t ∧ Fails t .invalidLength 0 ∧ Unchanged s t

/-- R136: of a text of valid length the first byte that is no symbol decides: a byte that is no pad is
`InvalidAlphabetChar`, a pad in a place where none may stand is `InvalidPadding`, each at its index. -/
def Obligations.Base64DecodeSymbolFailures : Prop :=
  ∀ (s : State) (i : Instr) (inv : Byte → Option Nat) (l e p : Nat),
    (i = .b64Dec ∧ inv = inv64) ∨ (i = .b64uDec ∧ inv = inv64u) →
    EndsInAll s l e → l % 4 = 0 → p < l → SymbolsTo inv s p → inv (s.byte .input p) = none → Room s s.inLen →
    (s.byte .input p ≠ 0x3D#8 → ∃ t, exec i s = .next t ∧ Fails t .invalidAlphabetChar p ∧ Unchanged s t) ∧
    (s.byte .input p = 0x3D#8 →
      p % 4 < 2 ∨ p / 4 + 1 < l / 4 ∨ (p % 4 = 2 ∧ s.byte .input (p + 1) ≠ 0x3D#8) →
      ∃ t, exec i s = .next t ∧ Fails t .invalidPadding p ∧ Unchanged s t)

/-- R139: Base64 decode undoes encode, with either alphabet, also behind a run of CR and LF (which must be empty for
empty data). -/
def Obligations.Base64RoundTrip : Prop :=
  ∀ b e : Bytes, (∀ c ∈ e, LineEnd c) → (b = [] → e = []) →
    decB64 inv64 (encB64 a64 b ++ e) = .ok b ∧ decB64 inv64u (encB64 a64u b ++ e) = .ok b ∧
    (encB64 a64 b).length + 1 = (b.length + 2) / 3 * 4 + 1 ∧ (encB64 a64u b).length + 1 = (b.length + 2) / 3 * 4 + 1

/-! ### Base32 -/

/-- R151, R152: the symbols `B32.ENC` gives, window by window, and the pads of the last group; behind them the marker of
R66, whose value 0x00 is general knowledge (K6, log 17). -/
def Obligations.Base32EncodeSymbols : Prop :=
  ∀ s : State, Room s (8 * ((s.inLen + 4) / 5) + 1) →
    ∃ t, exec .b32Enc s = .next t ∧ Succeeds t (8 * ((s.inLen + 4) / 5)) ∧
      (∀ q k, q < (s.inLen + 4) / 5 → k < 8 →
        t.byte .output (8 * q + k) =
          if 5 * (8 * q + k) < 8 * s.inLen then symbol a32 (quintet s (5 * q) k) else 0x3D#8) ∧
      t.byte .output t.outLen = 0x00#8 ∧ Unchanged s t

/-- R154, R155, R157: a text of `k` symbols, at least the canonical number of pads, and line ends decodes to
`floor(5k/8)` bytes; the bits left over are not looked at. -/
def Obligations.Base32DecodeBytes : Prop :=
  ∀ (s : State) (k p e : Nat),
    EndsIn s (k + p) e → SymbolsTo inv32 s k → PadsAt s k p → k % 8 ≠ 1 → k % 8 ≠ 3 → k % 8 ≠ 6 →
    canonicalPads k ≤ p → Room s s.inLen →
    ∃ t, exec .b32Dec s = .next t ∧ Succeeds t (5 * k / 8) ∧
      (∀ j, j < t.outLen →
        (t.byte .output j).toNat = quantum32 s k (8 * (j / 5)) / 2 ^ (32 - 8 * (j % 5)) % 2 ^ 8) ∧
      Unchanged s t

/-- R155: a last quantum of 1, 3 or 6 symbols and a pad count below the canonical one are `InvalidPadding` at 0. -/
def Obligations.Base32DecodeTailFailures : Prop :=
  ∀ (s : State) (k p e : Nat),
    EndsIn s (k + p) e → SymbolsTo inv32 s k → PadsAt s k p →
    k % 8 = 1 ∨ k % 8 = 3 ∨ k % 8 = 6 ∨ p < canonicalPads k → Room s s.inLen →
    ∃ t, exec .b32Dec s = .next t ∧ Fails t .invalidPadding 0 ∧ Unchanged s t

/-- R154, R156: before the trailing run of pads the first byte that is no symbol decides: a pad is `InvalidPadding`,
any other byte `InvalidAlphabetChar`, each at its index. -/
def Obligations.Base32DecodeSymbolFailures : Prop :=
  ∀ (s : State) (k p e x : Nat),
    EndsInAll s (k + p) e → PadsAt s k p → s.byte .input (k - 1) ≠ 0x3D#8 → x < k → SymbolsTo inv32 s x →
    inv32 (s.byte .input x) = none → Room s s.inLen →
    ∃ t, exec .b32Dec s = .next t ∧
      Fails t (if s.byte .input x = 0x3D#8 then .invalidPadding else .invalidAlphabetChar) x ∧ Unchanged s t

/-- R158: Base32 decode undoes encode, also with extra pads and then line ends behind the text. -/
def Obligations.Base32RoundTrip : Prop :=
  ∀ (b e : Bytes) (p : Nat), (∀ c ∈ e, LineEnd c) →
    decB32 (encB32 b ++ List.replicate p 0x3D#8 ++ e) = .ok b ∧
    (encB32 b).length + 1 = (b.length + 4) / 5 * 8 + 1

/-! ### Base16 -/

/-- R170, R171: the two upper-case digits of each byte, high nibble first; behind them the marker of R66, whose value
0x00 is general knowledge (K6, log 17). -/
def Obligations.Base16EncodeSymbols : Prop :=
  ∀ s : State, Room s (2 * s.inLen + 1) →
    ∃ t, exec .b16Enc s = .next t ∧ Succeeds t (2 * s.inLen) ∧
      (∀ j, j < s.inLen → t.byte .output (2 * j) = symbol a16 (inAt s j / 16) ∧
        t.byte .output (2 * j + 1) = symbol a16 (inAt s j % 16)) ∧
      t.byte .output t.outLen = 0x00#8 ∧ Unchanged s t

/-- R173, R174: an even number of digits of either case decodes pair by pair; an odd length is `InvalidLength`, checked
first; otherwise the first byte that is no digit is `InvalidAlphabetChar` at its index. -/
def Obligations.Base16DecodeResult : Prop :=
  ∀ s : State, Room s s.inLen →
    (s.inLen % 2 ≠ 0 → ∃ t, exec .b16Dec s = .next t ∧ Fails t .invalidLength 0 ∧ Unchanged s t) ∧
    (s.inLen % 2 = 0 → SymbolsTo hexValue s s.inLen →
      ∃ t, exec .b16Dec s = .next t ∧ Succeeds t (s.inLen / 2) ∧
        (∀ j, j < t.outLen → (t.byte .output j).toNat =
          16 * valueAt hexValue s s.inLen (2 * j) + valueAt hexValue s s.inLen (2 * j + 1)) ∧ Unchanged s t) ∧
    ∀ p, s.inLen % 2 = 0 → p < s.inLen → SymbolsTo hexValue s p → hexValue (s.byte .input p) = none →
      ∃ t, exec .b16Dec s = .next t ∧ Fails t .invalidAlphabetChar p ∧ Unchanged s t

/-- R175: Base16 decode undoes encode, the length is the size formula, and a text of odd length fails. -/
def Obligations.Base16RoundTrip : Prop :=
  (∀ b : Bytes, decB16 (encB16 b) = .ok b ∧ (encB16 b).length + 1 = 2 * b.length + 1) ∧
  ∀ t : Bytes, t.length % 2 = 1 → decB16 t = .error { kind := .invalidLength, pos := 0 }

/-! ### uuencode lines -/

/-- R182, R181: the symbols `UUL.ENC` gives, and that all of them lie in 0x21..0x60; behind them the marker of R66, whose
value 0x00 is general knowledge (K6, log 17). -/
def Obligations.UuLineEncodeSymbols : Prop :=
  ∀ s : State, Room s (4 * ((s.inLen + 2) / 3) + 1) →
    ∃ t, exec .uulEnc s = .next t ∧ Succeeds t (4 * ((s.inLen + 2) / 3)) ∧
      SextetText s t uuChar 0x60#8 0 s.inLen 0 ∧ t.byte .output t.outLen = 0x00#8 ∧
      (∀ j, j < t.outLen → 0x21 ≤ (t.byte .output j).toNat ∧ (t.byte .output j).toNat ≤ 0x60) ∧ Unchanged s t

/-- R184: a bare line of whole groups of valid symbols gives three bytes a group; another length is `InvalidLength`,
checked first; otherwise the first invalid symbol is `InvalidAlphabetChar` at its index. -/
def Obligations.UuLineDecodeResult : Prop :=
  ∀ s : State, Room s s.inLen →
    (s.inLen % 4 ≠ 0 → ∃ t, exec .uulDec s = .next t ∧ Fails t .invalidLength 0 ∧ Unchanged s t) ∧
    (s.inLen % 4 = 0 → SymbolsTo uuVal s s.inLen →
      ∃ t, exec .uulDec s = .next t ∧ Succeeds t (3 * s.inLen / 4) ∧ QuantumBytes uuVal s t 0 s.inLen t.outLen ∧
        Unchanged s t) ∧
    ∀ p, s.inLen % 4 = 0 → p < s.inLen → SymbolsTo uuVal s p → uuVal (s.byte .input p) = none →
      ∃ t, exec .uulDec s = .next t ∧ Fails t .invalidAlphabetChar p ∧ Unchanged s t

/-- R185: a bare line loses the length: decoding gives the data zero-extended to whole groups, which is the data only
for a multiple of three bytes, and the encoding is not injective. -/
def Obligations.UuLineDecodeOfEncode : Prop :=
  (∀ b : Bytes, decUUL (encUUL b) = .ok (b ++ List.replicate ((3 - b.length % 3) % 3) 0x00#8)) ∧
  (∀ b : Bytes, decUUL (encUUL b) = .ok b ↔ b.length % 3 = 0) ∧ encUUL [0x41#8] = [0x30#8, 0x30#8, 0x60#8, 0x60#8] ∧
  ∀ x : Byte, encUUL [x] = encUUL [x, 0x00#8] ∧ encUUL [x] = encUUL [x, 0x00#8, 0x00#8]

/-- R186, R187: the count character and the line behind it, and `InvalidLength` for more than 63 bytes; behind the line
the marker of R66, whose value 0x00 is general knowledge (K6, log 17). -/
def Obligations.CountedLineEncodeResult : Prop :=
  ∀ s : State, Room s (4 * ((s.inLen + 2) / 3) + 2) →
    (s.inLen ≤ 63 → ∃ t, exec .uucEnc s = .next t ∧ Succeeds t (1 + 4 * ((s.inLen + 2) / 3)) ∧
      t.byte .output 0 = uuChar s.inLen ∧ SextetText s t uuChar 0x60#8 0 s.inLen 1 ∧
      t.byte .output t.outLen = 0x00#8 ∧ Unchanged s t) ∧
    (63 < s.inLen → ∃ t, exec .uucEnc s = .next t ∧ Fails t .invalidLength 0 ∧ Unchanged s t)

/-- R188, R189: a counted line with `m` groups behind its count character of value `n` gives the first `n` bytes of
them; and its failures in the order of its checks. -/
def Obligations.CountedLineDecodeResult : Prop :=
  ∀ s : State, Room s s.inLen →
    (s.inLen = 0 ∨ (s.inLen - 1) % 4 ≠ 0 →
      ∃ t, exec .uucDec s = .next t ∧ Fails t .invalidLength 0 ∧ Unchanged s t) ∧
    ∀ m, s.inLen = 1 + 4 * m →
      (uuVal (s.byte .input 0) = none →
        ∃ t, exec .uucDec s = .next t ∧ Fails t .invalidAlphabetChar 0 ∧ Unchanged s t) ∧
      ∀ n, uuVal (s.byte .input 0) = some n →
        (3 * m < n → ∃ t, exec .uucDec s = .next t ∧ Fails t .invalidLength 0 ∧ Unchanged s t) ∧
        (n ≤ 3 * m → SymbolsTo uuVal s s.inLen →
          ∃ t, exec .uucDec s = .next t ∧ Succeeds t n ∧ QuantumBytes uuVal s t 1 s.inLen n ∧ Unchanged s t) ∧
        ∀ p, n ≤ 3 * m → p < s.inLen → SymbolsTo uuVal s p → uuVal (s.byte .input p) = none →
          ∃ t, exec .uucDec s = .next t ∧ Fails t .invalidAlphabetChar p ∧ Unchanged s t

/-- R190: a counted line of at most 63 bytes decodes to those bytes, zero sextets or not. -/
def Obligations.CountedLineRoundTrip : Prop :=
  ∀ b : Bytes, b.length ≤ 63 → ∃ t, encUUC b = .ok t ∧ decUUC t 0 = .ok b ∧
    t.length = 1 + 4 * ((b.length + 2) / 3) ∧ (encUUL b).length = 4 * ((b.length + 2) / 3)

/-! ### The uuencode envelope -/

/-- R202 to R205: the header line with the fields byte for byte, a counted line for each 60-byte chunk, the terminator
line and `end`, each at its place; behind them the marker of R66, whose value 0x00 is general knowledge (K6, log 17). -/
def Obligations.EnvelopeEncodeLayout : Prop :=
  ∀ s : State, FieldRoom s → Room s (envelopeSize s.inLen s.modeLen s.nameLen + 1) →
    ∃ t, exec .uufEnc s = .next t ∧ Succeeds t (envelopeSize s.inLen s.modeLen s.nameLen) ∧
      (∀ j, j < 6 → beginBytes[j]? = some (t.byte .output j)) ∧
      (∀ j, j < s.modeLen → t.byte .output (6 + j) = s.byte .mode j) ∧
      t.byte .output (6 + s.modeLen) = 0x20#8 ∧
      (∀ j, j < s.nameLen → t.byte .output (7 + s.modeLen + j) = s.byte .name j) ∧
      t.byte .output (7 + s.modeLen + s.nameLen) = 0x0A#8 ∧
      (∀ g, 60 * g < s.inLen →
        t.byte .output (8 + s.modeLen + s.nameLen + 82 * g) = uuChar (min 60 (s.inLen - 60 * g)) ∧
        SextetText s t uuChar 0x60#8 (60 * g) (min 60 (s.inLen - 60 * g)) (9 + s.modeLen + s.nameLen + 82 * g) ∧
        t.byte .output (9 + s.modeLen + s.nameLen + 82 * g + 4 * ((min 60 (s.inLen - 60 * g) + 2) / 3)) = 0x0A#8) ∧
      (∀ j, j < 5 → endBytes[j]? = some (t.byte .output (t.outLen - 5 + j))) ∧
      t.byte .output t.outLen = 0x00#8 ∧ Unchanged s t

/-- R207: header, body lines that are each good, terminator line, `end` and anything behind it: the bytes of the lines
one after the other. -/
def Obligations.EnvelopeDecodeBytes : Prop :=
  ∀ (s : State) (hdr rest : Bytes) (ls : List (Bytes × Nat)),
    s.inputBytes = beginBytes ++ hdr ++ [0x0A#8] ++ asBody (ls.map Prod.fst) ++ endBytes ++ rest →
    0x0A#8 ∉ hdr → (∀ x ∈ ls, GoodLine x.1 x.2) → Room s s.inLen →
    ∃ t, exec .uufDec s = .next t ∧ Succeeds t (ls.map Prod.snd).sum ∧
      t.outBuf.read .output 0 t.outLen = ls.flatMap (fun x => lineData x.1 x.2) ∧ Unchanged s t

/-- R207, R208 (a), (b): no `begin ` at index 0, no LF, or no sentinel at or after the first LF is `InvalidFormat`. -/
def Obligations.EnvelopeDecodeFormatFailures : Prop :=
  ∀ s : State, Room s s.inLen →
    (¬ beginBytes <+: s.inputBytes) ∨ (0x0A#8 ∉ s.inputBytes) ∨
      (∃ hdr tail, s.inputBytes = hdr ++ [0x0A#8] ++ tail ∧ 0x0A#8 ∉ hdr ∧
        ¬ ([0x0A#8] ++ endBytes) <:+: ([0x0A#8] ++ tail)) →
    ∃ t, exec .uufDec s = .next t ∧ Fails t .invalidFormat 0 ∧ Unchanged s t

/-- R207, R189, R28: when the format is right, the first body line that is refused decides, with the position in the
input of its first byte or of its bad symbol; lines after it are not looked at. -/
def Obligations.EnvelopeDecodeLineFailures : Prop :=
  ∀ (s : State) (hdr rest bad : Bytes) (good : List (Bytes × Nat)) (later : List Bytes) (k : FailKind) (pos : Nat),
    s.inputBytes = beginBytes ++ hdr ++ [0x0A#8] ++ asBody (good.map Prod.fst ++ bad :: later) ++ endBytes ++ rest →
    0x0A#8 ∉ hdr → (∀ x ∈ good, GoodLine x.1 x.2) → 0x0A#8 ∉ bad → BadLine bad k pos → (∀ l ∈ later, 0x0A#8 ∉ l) →
    ¬ ([0x0A#8] ++ endBytes) <:+: ([0x0A#8] ++ asBody (good.map Prod.fst ++ bad :: later)) → Room s s.inLen →
    ∃ t, exec .uufDec s = .next t ∧
      Fails t k ((beginBytes ++ hdr ++ [0x0A#8] ++ asBody (good.map Prod.fst)).length + pos) ∧ Unchanged s t

/-- R209, R203: an envelope decodes to its data when the header fields hold no LF, and its size is the formula. -/
def Obligations.EnvelopeRoundTrip : Prop :=
  ∀ b mode name : Bytes, 0x0A#8 ∉ mode → 0x0A#8 ∉ name →
    decUUF (encUUF b mode name) = .ok b ∧ (encUUF b mode name).length = envelopeSize b.length mode.length name.length

/-! ### The machine as a whole -/

/-- Through the host's accesses and the machine's steps: `RUN` an encode, `MOVE`, `RUN` its decode gives the input
back, for every codec that keeps the length (R99, R139, R158, R175, R190, R209, R291). -/
def Obligations.RunMoveRunRestoresTheInput : Prop :=
  ∀ s : State,
    (RoomToRestore .b64Enc s → Restores .b64Enc .b64Dec s) ∧
    (RoomToRestore .b64uEnc s → Restores .b64uEnc .b64uDec s) ∧
    (RoomToRestore .b32Enc s → Restores .b32Enc .b32Dec s) ∧
    (RoomToRestore .b16Enc s → Restores .b16Enc .b16Dec s) ∧
    (RoomToRestore .uucEnc s → s.inLen ≤ 63 → Restores .uucEnc .uucDec s) ∧
    (RoomToRestore .uufEnc s → FieldRoom s → (∀ j, j < s.modeLen → s.byte .mode j ≠ 0x0A#8) →
      (∀ j, j < s.nameLen → s.byte .name j ≠ 0x0A#8) → Restores .uufEnc .uufDec s)

/-- The state after reset meets the invariant. -/
def Obligations.ResetStateIsWellFormed : Prop := State.reset.wf

/-- Every step keeps the invariant: canonical memories inside their capacities, registers and working registers inside
their widths, `IP` inside the input, result registers that agree (R22, R26 to R28, R31, R33, R35, R61, R70, R242, R244,
R245). -/
def Obligations.EveryStepKeepsWellFormed : Prop :=
  ∀ s t : State, s.wf → step s = .next t → t.wf ∧ t.par = s.par

/-- A host that keeps its obligations never makes the machine stop (R21, R232, R240, R290): with the next event no unit
step, a step answers a next state. -/
def Obligations.ObedientHostNeverFaults : Prop :=
  ∀ s : State, s.hostObeys = true → s.pending.head? ≠ some .unit → s.safeStep

/-- R25, R231: `PHASE` becomes BUSY only by a host write of `CTRL`, becomes IDLE only by reset, and becomes DONE only
from BUSY. -/
def Obligations.PhaseChangesOnlyAsStated : Prop :=
  ∀ s t : State, step s = .next t → t.phase ≠ s.phase →
    (t.phase = .busy ∧ ∃ v rest, v % 2 = 1 ∧ s.pending = .host (.writeReg .ctrl v) :: rest) ∨
    (t.phase = .idle ∧ ∃ rest, s.pending = .reset :: rest) ∨
    (t.phase = .done ∧ s.phase = .busy)

/-- R25: in `DONE` the result registers stay until the next `START` or reset, and `OUT` until then but for bytes the host
itself writes. -/
def Obligations.ResultStaysUntilNextStart : Prop :=
  ∀ s t : State, s.phase = .done → step s = .next t → t.phase = .done →
    t.status = s.status ∧ t.outLen = s.outLen ∧ t.errPos = s.errPos ∧
    ∀ a, (∀ v rest, s.pending ≠ .host (.writeByte .output a v) :: rest) → t.byte .output a = s.byte .output a

/-- R275: with no command started the core keeps all state, with nothing pending and in a turn or unit step that is the
oldest event, which is then taken off the list (logs 9, 11). -/
def Obligations.IdleCoreKeepsAllState : Prop :=
  ∀ s : State, s.phase ≠ .busy →
    (s.pending = [] → step s = .next s) ∧
    ∀ rest, s.pending = .core :: rest ∨ s.pending = .unit :: rest → step s = .next { s with pending := rest }

/-- R280, R43: the reset input, in any phase, gives the reset values, and no buffer byte has a defined value after it. -/
def Obligations.ResetInputGivesResetValues : Prop :=
  ∀ (s : State) (rest : List Event), s.pending = .reset :: rest →
    ∃ t, step s = .next t ∧ t.cmd = 0x00#8 ∧ t.inLen = 0 ∧ t.modeLen = 0 ∧ t.nameLen = 0 ∧ t.phase = .idle ∧
      t.status = .ok ∧ t.outLen = 0 ∧ t.errPos = 0 ∧ t.readReg .ctrl = 0 ∧
      (1 < 2 ^ t.par.lenw → t.readReg .reqLen = 1) ∧
      (∀ sp a, Memory.get? (t.buffer sp).cells a = none) ∧ t.par = s.par ∧ t.pending = rest

/-! ### The host's accesses -/

/-- R22, R23, R232: what a host write of a register changes while not BUSY, and that read-only registers ignore it. -/
def Obligations.HostRegisterWrite : Prop :=
  ∀ (s : State) (r : Reg) (v : Nat) (rest : List Event), s.phase ≠ .busy → s.pending = .host (.writeReg r v) :: rest →
    r ≠ .ctrl →
    ∃ t, step s = .next t ∧ t.pending = rest ∧
      t.readReg .cmd = (if r = .cmd then v % 2 ^ 8 else s.readReg .cmd) ∧
      t.readReg .inLen = (if r = .inLen then v % 2 ^ s.par.lenw else s.readReg .inLen) ∧
      t.readReg .modeLen = (if r = .modeLen then v % 2 ^ s.par.lenw else s.readReg .modeLen) ∧
      t.readReg .nameLen = (if r = .nameLen then v % 2 ^ s.par.lenw else s.readReg .nameLen) ∧
      t.phase = s.phase ∧ t.status = s.status ∧ t.outLen = s.outLen ∧ t.errPos = s.errPos ∧ t.par = s.par ∧
      t.lastRead = s.lastRead ∧ ∀ sp a, t.byte sp a = s.byte sp a

/-- R22 to R29, R232, R69: a host read while not BUSY delivers the register, said register by register, or the byte, and
changes nothing else; the field it delivers to is the model's (log 16). -/
def Obligations.HostReadDelivers : Prop :=
  (∀ (s : State) (r : Reg) (rest : List Event), s.phase ≠ .busy → s.pending = .host (.readReg r) :: rest →
    ∃ v, step s = .next { s with pending := rest, lastRead := some v } ∧ v = s.readReg r ∧
      (r = .cmd → v = s.cmd.toNat) ∧ (r = .inLen → v = s.inLen) ∧ (r = .modeLen → v = s.modeLen) ∧
      (r = .nameLen → v = s.nameLen) ∧ (r = .ctrl → v = 0) ∧ (r = .phase → v = phaseNumber s.phase) ∧
      (r = .status → v = statusNumber s.status) ∧ (r = .outLen → v = s.outLen) ∧ (r = .errPos → v = s.errPos) ∧
      (∀ i, r = .reqLen → s.cmd = encode i →
        v = sizeTable i s.inLen s.modeLen s.nameLen % 2 ^ s.par.lenw) ∧
      (r = .reqLen → 0x0E ≤ s.cmd.toNat → v = 0)) ∧
  ∀ (s : State) (sp : Space) (a : Nat) (rest : List Event), s.phase ≠ .busy →
    s.pending = .host (.readByte sp a) :: rest →
    a < (match sp with | .input => s.par.inCap | .output => s.par.outCap | .mode => s.par.auxCap | .name => s.par.auxCap) →
    step s = .next { s with pending := rest, lastRead := some (s.byte sp a).toNat }

/-- R35, R69, R232: a byte the host writes reads as written, every other byte of the four buffers reads as before, and
no register changes. -/
def Obligations.HostByteWrite : Prop :=
  ∀ (s : State) (sp : Space) (a : Nat) (v : Byte) (rest : List Event), s.phase ≠ .busy →
    s.pending = .host (.writeByte sp a v) :: rest →
    a < (match sp with | .input => s.par.inCap | .output => s.par.outCap | .mode => s.par.auxCap | .name => s.par.auxCap) →
    ∃ t, step s = .next t ∧ t.pending = rest ∧ t.byte sp a = v ∧
      (∀ sp' b, sp' ≠ sp ∨ b ≠ a → t.byte sp' b = s.byte sp' b) ∧ (∀ r, t.readReg r = s.readReg r) ∧
      t.par = s.par ∧ t.lastRead = s.lastRead

/-- R290: a host write while BUSY, of a register, of `CTRL` or of a buffer byte, is outside the defined behaviour: the
model stops with a fault (log 7). -/
def Obligations.HostWriteWhileBusyFaults : Prop :=
  ∀ (s : State) (rest : List Event), s.phase = .busy →
    (∀ r v, s.pending = .host (.writeReg r v) :: rest → step s = .fault .hostWriteWhileBusy) ∧
    ∀ sp a v, s.pending = .host (.writeByte sp a v) :: rest → step s = .fault .hostWriteWhileBusy

/-- R292: while BUSY a read of `PHASE` returns BUSY, and no read, of a register or of a buffer byte, has a side effect on
the core or its buffers; any other read returns some value, which no clause here names: that it completes and delivers a
value is the model's choice (log 6), and so is the field (log 16). -/
def Obligations.HostReadWhileBusy : Prop :=
  ∀ (s : State) (rest : List Event), s.phase = .busy →
    (∀ r, s.pending = .host (.readReg r) :: rest →
      ∃ t, step s = .next t ∧ (r = .phase → t.lastRead = some 1) ∧ (∃ v, t.lastRead = some v) ∧
        t = { s with pending := rest, lastRead := t.lastRead, draws := t.draws }) ∧
    ∀ sp a, s.pending = .host (.readByte sp a) :: rest →
      a < (match sp with | .input => s.par.inCap | .output => s.par.outCap | .mode => s.par.auxCap | .name => s.par.auxCap) →
      ∃ t, step s = .next t ∧ (∃ v, t.lastRead = some v) ∧
        t = { s with pending := rest, lastRead := t.lastRead, draws := t.draws }

/-! ### Unit steps -/

/-- R227, R235: an encode cut into unit steps ends in the very state the atomic step gives; a step whose oldest event is
`unit` makes such a unit step, and that many of these events run the command through `step` (logs 9, 11, 12). -/
def Obligations.UnitStepsAgreeForEncodes : Prop :=
  ∀ (s : State) (i : Instr), isEncode i = true → s.phase = .busy →
    (∀ rest, decode s.cmd = .ok i → s.pending = .unit :: rest → step s = unitStep i { s with pending := rest }) ∧
    (s.work = Work.init → runUnits i (unitCount i s) s = exec i s) ∧
    (s.work = Work.init → decode s.cmd = .ok i →
      playEvents (List.replicate (unitCount i s) .unit) s = exec i { s with pending := [] })

/-- R227, R235: a decode cut into unit steps ends in the very state the atomic step gives, failures included; a step whose
oldest event is `unit` makes such a unit step, and that many of these events run the command through `step` (logs 9, 11,
12). -/
def Obligations.UnitStepsAgreeForDecodes : Prop :=
  ∀ (s : State) (i : Instr), isEncode i = false → s.phase = .busy →
    (∀ rest, decode s.cmd = .ok i → s.pending = .unit :: rest → step s = unitStep i { s with pending := rest }) ∧
    (s.work = Work.init → runUnits i (unitCount i s) s = exec i s) ∧
    (s.work = Work.init → decode s.cmd = .ok i →
      playEvents (List.replicate (unitCount i s) .unit) s = exec i { s with pending := [] })
end

