-- ==== Sys2Proof/Laws/Bits.lean ====
section
/-! SUPPORT. Slices and groups as sums, quotients and remainders, and the symbol maps as inverses of each other. -/

namespace Sys2Proof.Machine

theorem bits_eq (w hi lo : Nat) : bits w hi lo = w / 2 ^ lo % 2 ^ (hi + 1 - lo) := by
  rw [bits, Nat.shiftRight_eq_div_pow]

theorem bits_lt (w hi lo : Nat) : bits w hi lo < 2 ^ (hi + 1 - lo) := Nat.mod_lt _ (by positivity)

theorem shift_or_eq (a b i : Nat) (h : b < 2 ^ i) : a <<< i ||| b = a * 2 ^ i + b := by
  rw [← Nat.shiftLeft_add_eq_or_of_lt h, Nat.shiftLeft_eq]

/-- The 24-bit group as a sum (R63). -/
theorem group24_eq (b0 b1 b2 : Byte) :
    group24 b0 b1 b2 = b0.toNat * 2 ^ 16 + b1.toNat * 2 ^ 8 + b2.toNat := by
  have h1 := b1.isLt
  have h2 := b2.isLt
  have e : b0.toNat <<< 16 ||| b1.toNat <<< 8 = (b0.toNat * 2 ^ 8 + b1.toNat) <<< 8 := by
    rw [shift_or_eq _ _ 16 (by rw [Nat.shiftLeft_eq]; omega)]
    simp only [Nat.shiftLeft_eq]
    omega
  rw [group24, e, shift_or_eq _ _ 8 h2]
  omega

/-- Four sextets joined, as a sum (R136). -/
theorem joinSextets_eq {v0 v1 v2 v3 : Nat} (h1 : v1 < 64) (h2 : v2 < 64) (h3 : v3 < 64) :
    joinSextets v0 v1 v2 v3 = v0 * 2 ^ 18 + v1 * 2 ^ 12 + v2 * 2 ^ 6 + v3 := by
  have e1 : v0 <<< 18 ||| v1 <<< 12 = (v0 * 2 ^ 6 + v1) <<< 12 := by
    rw [shift_or_eq _ _ 18 (by rw [Nat.shiftLeft_eq]; omega)]
    simp only [Nat.shiftLeft_eq]
    omega
  have e2 : (v0 * 2 ^ 6 + v1) <<< 12 ||| v2 <<< 6 = (v0 * 2 ^ 12 + v1 * 2 ^ 6 + v2) <<< 6 := by
    rw [shift_or_eq _ _ 12 (by rw [Nat.shiftLeft_eq]; omega)]
    simp only [Nat.shiftLeft_eq]
    omega
  rw [joinSextets, e1, e2, shift_or_eq _ _ 6 (by omega)]
  omega

theorem byteAt_toNat (w hi lo : Nat) (h : hi + 1 - lo ≤ 8) : (byteAt w hi lo).toNat = bits w hi lo := by
  have := bits_lt w hi lo
  have h2 : 2 ^ (hi + 1 - lo) ≤ 2 ^ 8 := Nat.pow_le_pow_right (by omega) h
  rw [byteAt, BitVec.toNat_ofNat, Nat.mod_eq_of_lt (by omega)]

/-- A byte is the slice that holds its value. -/
theorem byteAt_eq_of_bits (w hi lo : Nat) (b : Byte) (h : bits w hi lo = b.toNat) : byteAt w hi lo = b := by
  rw [byteAt, h, BitVec.ofNat_toNat, BitVec.setWidth_eq]

theorem ceilDiv_eq (x m : Nat) : ceilDiv x m = (x + m - 1) / m := rfl

/-- R38 and R104, read from the alphabet: a symbol's inverse is its value. -/
theorem inv64_symbol : ∀ v < 64, inv64 (symbol a64 v) = some v := by decide
theorem inv64u_symbol : ∀ v < 64, inv64u (symbol a64u v) = some v := by decide
theorem inv32_symbol : ∀ v < 32, inv32 (symbol a32 v) = some v := by decide
theorem inv16_symbol : ∀ v < 16, inv16 (upper (symbol a16 v)) = some v := by decide
theorem uuVal_uuChar : ∀ v < 64, uuVal (uuChar v) = some v := by decide

/-- The pad is no symbol of an alphabet (R38). -/
theorem inv64_pad : inv64 pad = none := by decide
theorem inv64u_pad : inv64u pad = none := by decide
theorem inv32_pad : inv32 pad = none := by decide

/-- The values of the inverse tables are below the alphabet's size (R230). -/
theorem inv64_lt : ∀ (c : Byte) v, inv64 c = some v → v < 64 := by
  intro c v h
  simp only [inv64, invLettersDigits, between, Bool.and_eq_true, decide_eq_true_eq] at h
  have := c.isLt
  repeat' split at h
  all_goals first | (simp only [Option.some.injEq] at h; omega) | cases h

theorem inv64u_lt : ∀ (c : Byte) v, inv64u c = some v → v < 64 := by
  intro c v h
  simp only [inv64u, invLettersDigits, between, Bool.and_eq_true, decide_eq_true_eq] at h
  have := c.isLt
  repeat' split at h
  all_goals first | (simp only [Option.some.injEq] at h; omega) | cases h

theorem inv32_lt : ∀ (c : Byte) v, inv32 c = some v → v < 32 := by
  intro c v h
  simp only [inv32, between, Bool.and_eq_true, decide_eq_true_eq] at h
  repeat' split at h
  all_goals first | (simp only [Option.some.injEq] at h; omega) | cases h

theorem inv16_lt : ∀ (c : Byte) v, inv16 c = some v → v < 16 := by
  intro c v h
  simp only [inv16, between, Bool.and_eq_true, decide_eq_true_eq] at h
  repeat' split at h
  all_goals first | (simp only [Option.some.injEq] at h; omega) | cases h

theorem uuVal_lt : ∀ (c : Byte) v, uuVal c = some v → v < 64 := by
  intro c v h
  simp only [uuVal, between, Bool.and_eq_true, decide_eq_true_eq] at h
  repeat' split at h
  all_goals first | (simp only [Option.some.injEq] at h; omega) | cases h

end Sys2Proof.Machine
end

