-- ==== Sys2Proof/Laws/State.lean ====
section
/-! SUPPORT. One lemma for each field of State after each update, true by unfolding, so that no later proof unfolds a
record update. -/

namespace Sys2Proof.Machine

@[simp] theorem State.complete_par (s : State) (st : Status) (pos len : Nat) (out : Memory) : (s.complete st pos len out).par = s.par := rfl
@[simp] theorem State.complete_cmd (s : State) (st : Status) (pos len : Nat) (out : Memory) : (s.complete st pos len out).cmd = s.cmd := rfl
@[simp] theorem State.complete_inLen (s : State) (st : Status) (pos len : Nat) (out : Memory) : (s.complete st pos len out).inLen = s.inLen := rfl
@[simp] theorem State.complete_modeLen (s : State) (st : Status) (pos len : Nat) (out : Memory) : (s.complete st pos len out).modeLen = s.modeLen := rfl
@[simp] theorem State.complete_nameLen (s : State) (st : Status) (pos len : Nat) (out : Memory) : (s.complete st pos len out).nameLen = s.nameLen := rfl
@[simp] theorem State.complete_phase (s : State) (st : Status) (pos len : Nat) (out : Memory) : (s.complete st pos len out).phase = .done := rfl
@[simp] theorem State.complete_status (s : State) (st : Status) (pos len : Nat) (out : Memory) : (s.complete st pos len out).status = st := rfl
@[simp] theorem State.complete_outLen (s : State) (st : Status) (pos len : Nat) (out : Memory) : (s.complete st pos len out).outLen = len := rfl
@[simp] theorem State.complete_errPos (s : State) (st : Status) (pos len : Nat) (out : Memory) : (s.complete st pos len out).errPos = pos := rfl
@[simp] theorem State.complete_inBuf (s : State) (st : Status) (pos len : Nat) (out : Memory) : (s.complete st pos len out).inBuf = s.inBuf := rfl
@[simp] theorem State.complete_outBuf (s : State) (st : Status) (pos len : Nat) (out : Memory) : (s.complete st pos len out).outBuf = { cells := out, epoch := s.draws } := rfl
@[simp] theorem State.complete_modeBuf (s : State) (st : Status) (pos len : Nat) (out : Memory) : (s.complete st pos len out).modeBuf = s.modeBuf := rfl
@[simp] theorem State.complete_nameBuf (s : State) (st : Status) (pos len : Nat) (out : Memory) : (s.complete st pos len out).nameBuf = s.nameBuf := rfl
@[simp] theorem State.complete_work (s : State) (st : Status) (pos len : Nat) (out : Memory) : (s.complete st pos len out).work = Work.free s.par.lenw s.draws := rfl
@[simp] theorem State.complete_pending (s : State) (st : Status) (pos len : Nat) (out : Memory) : (s.complete st pos len out).pending = s.pending := rfl
@[simp] theorem State.complete_lastRead (s : State) (st : Status) (pos len : Nat) (out : Memory) : (s.complete st pos len out).lastRead = s.lastRead := rfl
@[simp] theorem State.complete_draws (s : State) (st : Status) (pos len : Nat) (out : Memory) : (s.complete st pos len out).draws = s.draws + 1 := rfl

@[simp] theorem State.raise_par (s : State) (f : Failure) : (s.raise f).par = s.par := rfl
@[simp] theorem State.raise_cmd (s : State) (f : Failure) : (s.raise f).cmd = s.cmd := rfl
@[simp] theorem State.raise_inLen (s : State) (f : Failure) : (s.raise f).inLen = s.inLen := rfl
@[simp] theorem State.raise_modeLen (s : State) (f : Failure) : (s.raise f).modeLen = s.modeLen := rfl
@[simp] theorem State.raise_nameLen (s : State) (f : Failure) : (s.raise f).nameLen = s.nameLen := rfl
@[simp] theorem State.raise_phase (s : State) (f : Failure) : (s.raise f).phase = .done := rfl
@[simp] theorem State.raise_status (s : State) (f : Failure) : (s.raise f).status = .failed f.kind := rfl
@[simp] theorem State.raise_outLen (s : State) (f : Failure) : (s.raise f).outLen = 0 := rfl
@[simp] theorem State.raise_errPos (s : State) (f : Failure) : (s.raise f).errPos = f.pos := rfl
@[simp] theorem State.raise_inBuf (s : State) (f : Failure) : (s.raise f).inBuf = s.inBuf := rfl
@[simp] theorem State.raise_outBuf (s : State) (f : Failure) : (s.raise f).outBuf = { cells := [], epoch := s.draws } := rfl
@[simp] theorem State.raise_modeBuf (s : State) (f : Failure) : (s.raise f).modeBuf = s.modeBuf := rfl
@[simp] theorem State.raise_nameBuf (s : State) (f : Failure) : (s.raise f).nameBuf = s.nameBuf := rfl
@[simp] theorem State.raise_work (s : State) (f : Failure) : (s.raise f).work = Work.free s.par.lenw s.draws := rfl
@[simp] theorem State.raise_pending (s : State) (f : Failure) : (s.raise f).pending = s.pending := rfl
@[simp] theorem State.raise_lastRead (s : State) (f : Failure) : (s.raise f).lastRead = s.lastRead := rfl
@[simp] theorem State.raise_draws (s : State) (f : Failure) : (s.raise f).draws = s.draws + 1 := rfl

@[simp] theorem State.succeed_par (s : State) (d tail : Bytes) : (s.succeed d tail).par = s.par := rfl
@[simp] theorem State.succeed_cmd (s : State) (d tail : Bytes) : (s.succeed d tail).cmd = s.cmd := rfl
@[simp] theorem State.succeed_inLen (s : State) (d tail : Bytes) : (s.succeed d tail).inLen = s.inLen := rfl
@[simp] theorem State.succeed_modeLen (s : State) (d tail : Bytes) : (s.succeed d tail).modeLen = s.modeLen := rfl
@[simp] theorem State.succeed_nameLen (s : State) (d tail : Bytes) : (s.succeed d tail).nameLen = s.nameLen := rfl
@[simp] theorem State.succeed_phase (s : State) (d tail : Bytes) : (s.succeed d tail).phase = .done := rfl
@[simp] theorem State.succeed_status (s : State) (d tail : Bytes) : (s.succeed d tail).status = .ok := rfl
@[simp] theorem State.succeed_outLen (s : State) (d tail : Bytes) : (s.succeed d tail).outLen = d.length := rfl
@[simp] theorem State.succeed_errPos (s : State) (d tail : Bytes) : (s.succeed d tail).errPos = 0 := rfl
@[simp] theorem State.succeed_inBuf (s : State) (d tail : Bytes) : (s.succeed d tail).inBuf = s.inBuf := rfl
@[simp] theorem State.succeed_outBuf (s : State) (d tail : Bytes) : (s.succeed d tail).outBuf = { cells := Memory.write [] 0 (d ++ tail), epoch := s.draws } := rfl
@[simp] theorem State.succeed_modeBuf (s : State) (d tail : Bytes) : (s.succeed d tail).modeBuf = s.modeBuf := rfl
@[simp] theorem State.succeed_nameBuf (s : State) (d tail : Bytes) : (s.succeed d tail).nameBuf = s.nameBuf := rfl
@[simp] theorem State.succeed_work (s : State) (d tail : Bytes) : (s.succeed d tail).work = Work.free s.par.lenw s.draws := rfl
@[simp] theorem State.succeed_pending (s : State) (d tail : Bytes) : (s.succeed d tail).pending = s.pending := rfl
@[simp] theorem State.succeed_lastRead (s : State) (d tail : Bytes) : (s.succeed d tail).lastRead = s.lastRead := rfl
@[simp] theorem State.succeed_draws (s : State) (d tail : Bytes) : (s.succeed d tail).draws = s.draws + 1 := rfl

@[simp] theorem State.start_par (s : State) : (s.start).par = s.par := rfl
@[simp] theorem State.start_cmd (s : State) : (s.start).cmd = s.cmd := rfl
@[simp] theorem State.start_inLen (s : State) : (s.start).inLen = s.inLen := rfl
@[simp] theorem State.start_modeLen (s : State) : (s.start).modeLen = s.modeLen := rfl
@[simp] theorem State.start_nameLen (s : State) : (s.start).nameLen = s.nameLen := rfl
@[simp] theorem State.start_phase (s : State) : (s.start).phase = .busy := rfl
@[simp] theorem State.start_status (s : State) : (s.start).status = s.status := rfl
@[simp] theorem State.start_outLen (s : State) : (s.start).outLen = s.outLen := rfl
@[simp] theorem State.start_errPos (s : State) : (s.start).errPos = s.errPos := rfl
@[simp] theorem State.start_inBuf (s : State) : (s.start).inBuf = s.inBuf := rfl
@[simp] theorem State.start_outBuf (s : State) : (s.start).outBuf = s.outBuf := rfl
@[simp] theorem State.start_modeBuf (s : State) : (s.start).modeBuf = s.modeBuf := rfl
@[simp] theorem State.start_nameBuf (s : State) : (s.start).nameBuf = s.nameBuf := rfl
@[simp] theorem State.start_work (s : State) : (s.start).work = Work.init := rfl
@[simp] theorem State.start_pending (s : State) : (s.start).pending = s.pending := rfl
@[simp] theorem State.start_lastRead (s : State) : (s.start).lastRead = s.lastRead := rfl
@[simp] theorem State.start_draws (s : State) : (s.start).draws = s.draws := rfl

@[simp] theorem State.placeCommand_par (s : State) (w : Byte) : (s.placeCommand w).par = s.par := rfl
@[simp] theorem State.placeCommand_cmd (s : State) (w : Byte) : (s.placeCommand w).cmd = w := rfl
@[simp] theorem State.placeCommand_inLen (s : State) (w : Byte) : (s.placeCommand w).inLen = s.inLen := rfl
@[simp] theorem State.placeCommand_modeLen (s : State) (w : Byte) : (s.placeCommand w).modeLen = s.modeLen := rfl
@[simp] theorem State.placeCommand_nameLen (s : State) (w : Byte) : (s.placeCommand w).nameLen = s.nameLen := rfl
@[simp] theorem State.placeCommand_phase (s : State) (w : Byte) : (s.placeCommand w).phase = .busy := rfl
@[simp] theorem State.placeCommand_status (s : State) (w : Byte) : (s.placeCommand w).status = s.status := rfl
@[simp] theorem State.placeCommand_outLen (s : State) (w : Byte) : (s.placeCommand w).outLen = s.outLen := rfl
@[simp] theorem State.placeCommand_errPos (s : State) (w : Byte) : (s.placeCommand w).errPos = s.errPos := rfl
@[simp] theorem State.placeCommand_inBuf (s : State) (w : Byte) : (s.placeCommand w).inBuf = s.inBuf := rfl
@[simp] theorem State.placeCommand_outBuf (s : State) (w : Byte) : (s.placeCommand w).outBuf = s.outBuf := rfl
@[simp] theorem State.placeCommand_modeBuf (s : State) (w : Byte) : (s.placeCommand w).modeBuf = s.modeBuf := rfl
@[simp] theorem State.placeCommand_nameBuf (s : State) (w : Byte) : (s.placeCommand w).nameBuf = s.nameBuf := rfl
@[simp] theorem State.placeCommand_work (s : State) (w : Byte) : (s.placeCommand w).work = Work.init := rfl
@[simp] theorem State.placeCommand_pending (s : State) (w : Byte) : (s.placeCommand w).pending = .core :: s.pending := rfl
@[simp] theorem State.placeCommand_lastRead (s : State) (w : Byte) : (s.placeCommand w).lastRead = s.lastRead := rfl
@[simp] theorem State.placeCommand_draws (s : State) (w : Byte) : (s.placeCommand w).draws = s.draws := rfl

@[simp] theorem State.deliver_par (s : State) (v : Nat) : (s.deliver v).par = s.par := rfl
@[simp] theorem State.deliver_cmd (s : State) (v : Nat) : (s.deliver v).cmd = s.cmd := rfl
@[simp] theorem State.deliver_inLen (s : State) (v : Nat) : (s.deliver v).inLen = s.inLen := rfl
@[simp] theorem State.deliver_modeLen (s : State) (v : Nat) : (s.deliver v).modeLen = s.modeLen := rfl
@[simp] theorem State.deliver_nameLen (s : State) (v : Nat) : (s.deliver v).nameLen = s.nameLen := rfl
@[simp] theorem State.deliver_phase (s : State) (v : Nat) : (s.deliver v).phase = s.phase := rfl
@[simp] theorem State.deliver_status (s : State) (v : Nat) : (s.deliver v).status = s.status := rfl
@[simp] theorem State.deliver_outLen (s : State) (v : Nat) : (s.deliver v).outLen = s.outLen := rfl
@[simp] theorem State.deliver_errPos (s : State) (v : Nat) : (s.deliver v).errPos = s.errPos := rfl
@[simp] theorem State.deliver_inBuf (s : State) (v : Nat) : (s.deliver v).inBuf = s.inBuf := rfl
@[simp] theorem State.deliver_outBuf (s : State) (v : Nat) : (s.deliver v).outBuf = s.outBuf := rfl
@[simp] theorem State.deliver_modeBuf (s : State) (v : Nat) : (s.deliver v).modeBuf = s.modeBuf := rfl
@[simp] theorem State.deliver_nameBuf (s : State) (v : Nat) : (s.deliver v).nameBuf = s.nameBuf := rfl
@[simp] theorem State.deliver_work (s : State) (v : Nat) : (s.deliver v).work = s.work := rfl
@[simp] theorem State.deliver_pending (s : State) (v : Nat) : (s.deliver v).pending = s.pending := rfl
@[simp] theorem State.deliver_lastRead (s : State) (v : Nat) : (s.deliver v).lastRead = some v := rfl
@[simp] theorem State.deliver_draws (s : State) (v : Nat) : (s.deliver v).draws = s.draws := rfl

@[simp] theorem State.deliverFree_par (s : State) (width : Nat) : (s.deliverFree width).par = s.par := rfl
@[simp] theorem State.deliverFree_cmd (s : State) (width : Nat) : (s.deliverFree width).cmd = s.cmd := rfl
@[simp] theorem State.deliverFree_inLen (s : State) (width : Nat) : (s.deliverFree width).inLen = s.inLen := rfl
@[simp] theorem State.deliverFree_modeLen (s : State) (width : Nat) : (s.deliverFree width).modeLen = s.modeLen := rfl
@[simp] theorem State.deliverFree_nameLen (s : State) (width : Nat) : (s.deliverFree width).nameLen = s.nameLen := rfl
@[simp] theorem State.deliverFree_phase (s : State) (width : Nat) : (s.deliverFree width).phase = s.phase := rfl
@[simp] theorem State.deliverFree_status (s : State) (width : Nat) : (s.deliverFree width).status = s.status := rfl
@[simp] theorem State.deliverFree_outLen (s : State) (width : Nat) : (s.deliverFree width).outLen = s.outLen := rfl
@[simp] theorem State.deliverFree_errPos (s : State) (width : Nat) : (s.deliverFree width).errPos = s.errPos := rfl
@[simp] theorem State.deliverFree_inBuf (s : State) (width : Nat) : (s.deliverFree width).inBuf = s.inBuf := rfl
@[simp] theorem State.deliverFree_outBuf (s : State) (width : Nat) : (s.deliverFree width).outBuf = s.outBuf := rfl
@[simp] theorem State.deliverFree_modeBuf (s : State) (width : Nat) : (s.deliverFree width).modeBuf = s.modeBuf := rfl
@[simp] theorem State.deliverFree_nameBuf (s : State) (width : Nat) : (s.deliverFree width).nameBuf = s.nameBuf := rfl
@[simp] theorem State.deliverFree_work (s : State) (width : Nat) : (s.deliverFree width).work = s.work := rfl
@[simp] theorem State.deliverFree_pending (s : State) (width : Nat) : (s.deliverFree width).pending = s.pending := rfl
@[simp] theorem State.deliverFree_lastRead (s : State) (width : Nat) : (s.deliverFree width).lastRead = some (Config.freeWord s.draws 0 % 2 ^ width) := rfl
@[simp] theorem State.deliverFree_draws (s : State) (width : Nat) : (s.deliverFree width).draws = s.draws + 1 := rfl

@[simp] theorem State.applyReset_par (s : State) : (s.applyReset).par = s.par := rfl
@[simp] theorem State.applyReset_cmd (s : State) : (s.applyReset).cmd = 0x00#8 := rfl
@[simp] theorem State.applyReset_inLen (s : State) : (s.applyReset).inLen = 0 := rfl
@[simp] theorem State.applyReset_modeLen (s : State) : (s.applyReset).modeLen = 0 := rfl
@[simp] theorem State.applyReset_nameLen (s : State) : (s.applyReset).nameLen = 0 := rfl
@[simp] theorem State.applyReset_phase (s : State) : (s.applyReset).phase = .idle := rfl
@[simp] theorem State.applyReset_status (s : State) : (s.applyReset).status = .ok := rfl
@[simp] theorem State.applyReset_outLen (s : State) : (s.applyReset).outLen = 0 := rfl
@[simp] theorem State.applyReset_errPos (s : State) : (s.applyReset).errPos = 0 := rfl
@[simp] theorem State.applyReset_inBuf (s : State) : (s.applyReset).inBuf = { cells := [], epoch := s.draws } := rfl
@[simp] theorem State.applyReset_outBuf (s : State) : (s.applyReset).outBuf = { cells := [], epoch := s.draws } := rfl
@[simp] theorem State.applyReset_modeBuf (s : State) : (s.applyReset).modeBuf = { cells := [], epoch := s.draws } := rfl
@[simp] theorem State.applyReset_nameBuf (s : State) : (s.applyReset).nameBuf = { cells := [], epoch := s.draws } := rfl
@[simp] theorem State.applyReset_work (s : State) : (s.applyReset).work = Work.free s.par.lenw s.draws := rfl
@[simp] theorem State.applyReset_pending (s : State) : (s.applyReset).pending = s.pending := rfl
@[simp] theorem State.applyReset_lastRead (s : State) : (s.applyReset).lastRead = s.lastRead := rfl
@[simp] theorem State.applyReset_draws (s : State) : (s.applyReset).draws = s.draws + 1 := rfl

@[simp] theorem State.setBuffer_par (s : State) (sp : Space) (b : Buffer) : (s.setBuffer sp b).par = s.par := by
  cases sp <;> rfl
@[simp] theorem State.setBuffer_cmd (s : State) (sp : Space) (b : Buffer) : (s.setBuffer sp b).cmd = s.cmd := by
  cases sp <;> rfl
@[simp] theorem State.setBuffer_inLen (s : State) (sp : Space) (b : Buffer) : (s.setBuffer sp b).inLen = s.inLen := by
  cases sp <;> rfl
@[simp] theorem State.setBuffer_modeLen (s : State) (sp : Space) (b : Buffer) : (s.setBuffer sp b).modeLen = s.modeLen := by
  cases sp <;> rfl
@[simp] theorem State.setBuffer_nameLen (s : State) (sp : Space) (b : Buffer) : (s.setBuffer sp b).nameLen = s.nameLen := by
  cases sp <;> rfl
@[simp] theorem State.setBuffer_phase (s : State) (sp : Space) (b : Buffer) : (s.setBuffer sp b).phase = s.phase := by
  cases sp <;> rfl
@[simp] theorem State.setBuffer_status (s : State) (sp : Space) (b : Buffer) : (s.setBuffer sp b).status = s.status := by
  cases sp <;> rfl
@[simp] theorem State.setBuffer_outLen (s : State) (sp : Space) (b : Buffer) : (s.setBuffer sp b).outLen = s.outLen := by
  cases sp <;> rfl
@[simp] theorem State.setBuffer_errPos (s : State) (sp : Space) (b : Buffer) : (s.setBuffer sp b).errPos = s.errPos := by
  cases sp <;> rfl
@[simp] theorem State.setBuffer_work (s : State) (sp : Space) (b : Buffer) : (s.setBuffer sp b).work = s.work := by
  cases sp <;> rfl
@[simp] theorem State.setBuffer_pending (s : State) (sp : Space) (b : Buffer) : (s.setBuffer sp b).pending = s.pending := by
  cases sp <;> rfl
@[simp] theorem State.setBuffer_lastRead (s : State) (sp : Space) (b : Buffer) : (s.setBuffer sp b).lastRead = s.lastRead := by
  cases sp <;> rfl
@[simp] theorem State.setBuffer_draws (s : State) (sp : Space) (b : Buffer) : (s.setBuffer sp b).draws = s.draws := by
  cases sp <;> rfl

/-- A replaced buffer is the new one. -/
@[simp] theorem State.buffer_setBuffer_same (s : State) (sp : Space) (b : Buffer) : (s.setBuffer sp b).buffer sp = b := by
  cases sp <;> rfl

/-- Replacing one buffer leaves the others alone (R35). -/
theorem State.buffer_setBuffer_other (s : State) (sp sp' : Space) (b : Buffer) (h : sp' ≠ sp) :
    (s.setBuffer sp b).buffer sp' = s.buffer sp' := by
  cases sp <;> cases sp' <;> first | rfl | exact absurd rfl h

@[simp] theorem State.buffer_input (s : State) : s.buffer .input = s.inBuf := rfl
@[simp] theorem State.buffer_output (s : State) : s.buffer .output = s.outBuf := rfl
@[simp] theorem State.buffer_mode (s : State) : s.buffer .mode = s.modeBuf := rfl
@[simp] theorem State.buffer_name (s : State) : s.buffer .name = s.nameBuf := rfl

@[simp] theorem State.setByte_par (s : State) (sp : Space) (a : Nat) (v : Byte) : (s.setByte sp a v).par = s.par := by
  simp [State.setByte]
@[simp] theorem State.setByte_cmd (s : State) (sp : Space) (a : Nat) (v : Byte) : (s.setByte sp a v).cmd = s.cmd := by
  simp [State.setByte]
@[simp] theorem State.setByte_inLen (s : State) (sp : Space) (a : Nat) (v : Byte) : (s.setByte sp a v).inLen = s.inLen := by
  simp [State.setByte]
@[simp] theorem State.setByte_modeLen (s : State) (sp : Space) (a : Nat) (v : Byte) : (s.setByte sp a v).modeLen = s.modeLen := by
  simp [State.setByte]
@[simp] theorem State.setByte_nameLen (s : State) (sp : Space) (a : Nat) (v : Byte) : (s.setByte sp a v).nameLen = s.nameLen := by
  simp [State.setByte]
@[simp] theorem State.setByte_phase (s : State) (sp : Space) (a : Nat) (v : Byte) : (s.setByte sp a v).phase = s.phase := by
  simp [State.setByte]
@[simp] theorem State.setByte_status (s : State) (sp : Space) (a : Nat) (v : Byte) : (s.setByte sp a v).status = s.status := by
  simp [State.setByte]
@[simp] theorem State.setByte_outLen (s : State) (sp : Space) (a : Nat) (v : Byte) : (s.setByte sp a v).outLen = s.outLen := by
  simp [State.setByte]
@[simp] theorem State.setByte_errPos (s : State) (sp : Space) (a : Nat) (v : Byte) : (s.setByte sp a v).errPos = s.errPos := by
  simp [State.setByte]
@[simp] theorem State.setByte_work (s : State) (sp : Space) (a : Nat) (v : Byte) : (s.setByte sp a v).work = s.work := by
  simp [State.setByte]
@[simp] theorem State.setByte_pending (s : State) (sp : Space) (a : Nat) (v : Byte) : (s.setByte sp a v).pending = s.pending := by
  simp [State.setByte]
@[simp] theorem State.setByte_lastRead (s : State) (sp : Space) (a : Nat) (v : Byte) : (s.setByte sp a v).lastRead = s.lastRead := by
  simp [State.setByte]
@[simp] theorem State.setByte_draws (s : State) (sp : Space) (a : Nat) (v : Byte) : (s.setByte sp a v).draws = s.draws := by
  simp [State.setByte]

/-- A completed command leaves every buffer but `OUT` alone (R36). -/
theorem State.complete_buffer (s : State) (st : Status) (pos len : Nat) (out : Memory) (sp : Space) (h : sp ≠ .output) :
    (s.complete st pos len out).buffer sp = s.buffer sp := by
  cases sp <;> first | rfl | exact absurd rfl h

end Sys2Proof.Machine
end

