-- ==== Sys2Proof/Laws/Memory.lean ====
section
/-! SUPPORT. The laws of memory: a read after a write, what a write leaves alone, the canonical form, and that equal
reads of canonical memories are equal data. -/

namespace Sys2Proof.Machine

@[simp] theorem Memory.get?_nil (a : Nat) : Memory.get? [] a = none := rfl

theorem Memory.get?_cons (k : Nat) (v : Byte) (m : Memory) (a : Nat) :
    Memory.get? ((k, v) :: m) a = if k = a then some v else Memory.get? m a := rfl

/-- A read after a write to the same index gives the value written. -/
@[simp] theorem Memory.get?_set_same (m : Memory) (a : Nat) (v : Byte) : Memory.get? (Memory.set m a v) a = some v := by
  induction m with
  | nil => simp [Memory.set, Memory.get?]
  | cons c m ih =>
    obtain ⟨k, w⟩ := c
    simp only [Memory.set]
    split
    · simp [Memory.get?]
    · split
      · simp [Memory.get?]
      · rename_i h1 h2
        simp [Memory.get?, ih, Ne.symm h2]

/-- A write leaves every other index alone. -/
theorem Memory.get?_set_other (m : Memory) {a b : Nat} (v : Byte) (h : b ≠ a) :
    Memory.get? (Memory.set m a v) b = Memory.get? m b := by
  induction m with
  | nil => simp [Memory.set, Memory.get?, Ne.symm h]
  | cons c m ih =>
    obtain ⟨k, w⟩ := c
    simp only [Memory.set]
    split
    · simp [Memory.get?, Ne.symm h]
    · split
      · rename_i h1 h2
        subst h2
        simp [Memory.get?, Ne.symm h]
      · simp [Memory.get?, ih]

/-- What the indices of a memory after a write can be. -/
theorem Memory.mem_set {m : Memory} {a : Nat} {v : Byte} {x : Host.Cell} (h : x ∈ Memory.set m a v) :
    x = (a, v) ∨ x ∈ m := by
  induction m with
  | nil => simpa [Memory.set] using h
  | cons c m ih =>
    obtain ⟨k, w⟩ := c
    simp only [Memory.set] at h
    split at h
    · simpa using h
    · split at h
      · rcases List.mem_cons.1 h with h | h
        · exact .inl h
        · exact .inr (List.mem_cons_of_mem _ h)
      · rcases List.mem_cons.1 h with h | h
        · exact .inr (h ▸ List.mem_cons_self)
        · rcases ih h with h | h
          · exact .inl h
          · exact .inr (List.mem_cons_of_mem _ h)

/-- A write keeps the canonical form. -/
theorem Memory.wf_set {cap : Nat} {m : Memory} {a : Nat} (v : Byte) (hm : Memory.wf cap m) (ha : a < cap) :
    Memory.wf cap (Memory.set m a v) := by
  obtain ⟨hs, hb⟩ := hm
  refine ⟨?_, fun x hx => (Memory.mem_set hx).elim (fun h => h ▸ ha) (hb x)⟩
  clear hb ha
  induction m with
  | nil => simp [Memory.set]
  | cons c m ih =>
    obtain ⟨k, w⟩ := c
    obtain ⟨h1, h2⟩ := List.pairwise_cons.1 hs
    simp only [Memory.set]
    split
    · rename_i hlt
      refine List.pairwise_cons.2 ⟨fun x hx => ?_, hs⟩
      rcases List.mem_cons.1 hx with rfl | hx
      · exact hlt
      · exact Nat.lt_trans hlt (h1 x hx)
    · split
      · rename_i heq
        subst heq
        exact List.pairwise_cons.2 ⟨h1, h2⟩
      · rename_i hn he
        refine List.pairwise_cons.2 ⟨fun x hx => ?_, ih h2⟩
        rcases Memory.mem_set hx with rfl | hx
        · show k < a
          omega
        · exact h1 x hx

/-- `MemWrite` keeps the canonical form. -/
theorem Memory.wf_write {cap : Nat} {m : Memory} {a : Nat} {vs : Bytes} (hm : Memory.wf cap m)
    (ha : a + vs.length ≤ cap) : Memory.wf cap (Memory.write m a vs) := by
  induction vs generalizing a with
  | nil => exact hm
  | cons v vs ih =>
    simp only [List.length_cons] at ha
    exact Memory.wf_set v (ih (by omega)) (by omega)

theorem Memory.wf_nil (cap : Nat) : Memory.wf cap [] := by simp [Memory.wf]

/-- `MemRead` after `MemWrite`: the bytes written stand at their indices. -/
theorem Memory.get?_write_inside {m : Memory} {a j : Nat} {vs : Bytes} (h : j < vs.length) :
    Memory.get? (Memory.write m a vs) (a + j) = some vs[j] := by
  induction vs generalizing a j with
  | nil => simp at h
  | cons v vs ih =>
    cases j with
    | zero => simp [Memory.write]
    | succ j =>
      simp only [Memory.write]
      rw [Memory.get?_set_other _ _ (by omega), show a + (j + 1) = a + 1 + j by omega]
      simpa using ih (a := a + 1) (j := j) (by simpa using h)

/-- `MemWrite` leaves every index outside its bytes alone. -/
theorem Memory.get?_write_outside {m : Memory} {a b : Nat} {vs : Bytes} (h : b < a ∨ a + vs.length ≤ b) :
    Memory.get? (Memory.write m a vs) b = Memory.get? m b := by
  induction vs generalizing a with
  | nil => rfl
  | cons v vs ih =>
    simp only [List.length_cons] at h
    simp only [Memory.write]
    rw [Memory.get?_set_other _ _ (by omega), ih (by omega)]

/-- Both at once, for a write at index 0 of a buffer that held nothing. -/
theorem Memory.get?_write_nil (vs : Bytes) (b : Nat) : Memory.get? (Memory.write [] 0 vs) b = vs[b]? := by
  by_cases h : b < vs.length
  · simpa [h] using Memory.get?_write_inside (m := []) (a := 0) h
  · rw [Memory.get?_write_outside (by omega)]
    simp [Nat.le_of_not_lt h]

theorem Memory.get?_eq_none_of_lt {m : Memory} {a : Nat} (h : ∀ x ∈ m, a < x.1) : Memory.get? m a = none := by
  induction m with
  | nil => rfl
  | cons c m ih =>
    obtain ⟨k, w⟩ := c
    have := h (k, w) List.mem_cons_self
    simp only [Memory.get?]
    rw [if_neg (by simp at this; omega)]
    exact ih fun x hx => h x (List.mem_cons_of_mem _ hx)

/-- An index that reads as a value is listed with it. -/
theorem Memory.mem_of_get? {m : Memory} {a : Nat} {v : Byte} (h : Memory.get? m a = some v) : (a, v) ∈ m := by
  induction m with
  | nil => simp at h
  | cons c m ih =>
    obtain ⟨k, w⟩ := c
    simp only [Memory.get?] at h
    split at h
    · rename_i hk
      subst hk
      cases h
      exact List.mem_cons_self
    · exact List.mem_cons_of_mem _ (ih h)

/-- Canonical memories that read alike are the same data. -/
theorem Memory.ext {c c' : Nat} {m m' : Memory} (hm : Memory.wf c m) (hm' : Memory.wf c' m')
    (h : ∀ a, Memory.get? m a = Memory.get? m' a) : m = m' := by
  obtain ⟨hs, -⟩ := hm
  obtain ⟨hs', -⟩ := hm'
  induction m generalizing m' with
  | nil =>
    cases m' with
    | nil => rfl
    | cons d m' =>
      have := h d.1
      simp [Memory.get?] at this
  | cons x m ih =>
    obtain ⟨k, w⟩ := x
    obtain ⟨h1, h2⟩ := List.pairwise_cons.1 hs
    cases m' with
    | nil =>
      have := h k
      simp [Memory.get?] at this
    | cons y m' =>
      obtain ⟨k', w'⟩ := y
      obtain ⟨h1', h2'⟩ := List.pairwise_cons.1 hs'
      have hk : k = k' := by
        rcases Nat.lt_trichotomy k k' with hlt | heq | hlt
        · have h3 := h k
          have h4 : Memory.get? ((k', w') :: m') k = none :=
            Memory.get?_eq_none_of_lt fun x hx => by
              rcases List.mem_cons.1 hx with rfl | hx
              · exact hlt
              · exact Nat.lt_trans hlt (h1' x hx)
          rw [h4] at h3
          simp [Memory.get?] at h3
        · exact heq
        · have h3 := h k'
          have h4 : Memory.get? ((k, w) :: m) k' = none :=
            Memory.get?_eq_none_of_lt fun x hx => by
              rcases List.mem_cons.1 hx with rfl | hx
              · exact hlt
              · exact Nat.lt_trans hlt (h1 x hx)
          rw [h4] at h3
          simp [Memory.get?] at h3
      subst hk
      have hw : w = w' := by
        have := h k
        simpa [Memory.get?] using this
      subst hw
      congr 1
      refine ih (fun a => ?_) h2 h2'
      by_cases ha : k = a
      · subst ha
        rw [Memory.get?_eq_none_of_lt h1, Memory.get?_eq_none_of_lt h1']
      · have := h a
        simpa [Memory.get?, ha] using this

/-- Two writes one behind the other are one write (R78: the order of the core's writes does not show). -/
theorem Memory.write_append (xs ys : Bytes) :
    Memory.write (Memory.write [] 0 xs) xs.length ys = Memory.write [] 0 (xs ++ ys) := by
  have h1 : Memory.wf (xs.length + ys.length) (Memory.write (Memory.write [] 0 xs) xs.length ys) :=
    Memory.wf_write (Memory.wf_write (Memory.wf_nil _) (by omega)) (by omega)
  have h2 : Memory.wf (xs.length + ys.length) (Memory.write [] 0 (xs ++ ys)) :=
    Memory.wf_write (Memory.wf_nil _) (by simp)
  refine Memory.ext h1 h2 fun a => ?_
  rw [Memory.get?_write_nil]
  by_cases ha : a < xs.length
  · rw [Memory.get?_write_outside (.inl ha), Memory.get?_write_nil, List.getElem?_append_left ha]
  · rw [List.getElem?_append_right (by omega)]
    by_cases hb : a - xs.length < ys.length
    · have := Memory.get?_write_inside (m := Memory.write [] 0 xs) (a := xs.length) hb
      rw [show xs.length + (a - xs.length) = a by omega] at this
      rw [this, List.getElem?_eq_getElem hb]
    · rw [Memory.get?_write_outside (.inr (by omega)), Memory.get?_write_nil]
      rw [List.getElem?_eq_none (by omega), List.getElem?_eq_none (by omega)]

/-- A byte of a buffer that lists the bytes `vs` from index 0. -/
theorem Buffer.byte_write_nil (sp : Space) (vs : Bytes) (e j : Nat) (h : j < vs.length) :
    Buffer.byte sp { cells := Memory.write [] 0 vs, epoch := e } j = vs[j] := by
  simp [Buffer.byte, Memory.get?_write_nil, h]

@[simp] theorem Buffer.length_read (sp : Space) (b : Buffer) (a n : Nat) : (b.read sp a n).length = n := by
  simp [Buffer.read]

@[simp] theorem Buffer.getElem_read (sp : Space) (b : Buffer) (a n j : Nat) (h : j < (b.read sp a n).length) :
    (b.read sp a n)[j] = b.byte sp (a + j) := by
  simp [Buffer.read]

theorem Buffer.getElem?_read (sp : Space) (b : Buffer) (n j : Nat) (h : j < n) :
    (b.read sp 0 n)[j]? = some (b.byte sp j) := by
  simp [Buffer.read, h]

/-- A byte of a buffer after a host write (R69). -/
theorem State.byte_setByte_same (s : State) (sp : Space) (a : Nat) (v : Byte) : (s.setByte sp a v).byte sp a = v := by
  simp [State.byte, State.setByte, Buffer.byte]

theorem State.byte_setByte_other (s : State) (sp sp' : Space) (a b : Nat) (v : Byte) (h : sp' ≠ sp ∨ b ≠ a) :
    (s.setByte sp a v).byte sp' b = s.byte sp' b := by
  by_cases hsp : sp' = sp
  · subst hsp
    have hb : b ≠ a := h.resolve_left (fun hn => hn rfl)
    simp [State.byte, State.setByte, Buffer.byte, Memory.get?_set_other _ _ hb]
  · simp [State.byte, State.setByte, State.buffer_setBuffer_other _ _ _ _ hsp]

end Sys2Proof.Machine
end

