-- ==== Sys2Proof/Laws/Commands.lean ====
section
/-! SUPPORT. What a command can do, said once: `exec` is the capacity check and the completion around one pure
function of the input bytes, and a step is one of few things. -/

namespace Sys2Proof.Machine

/-- The pure function a command evaluates (R11), on the bytes of `IN`, `MODE` and `NAME`. -/
def ownResult (i : Instr) (t mode name : Bytes) : Except Failure Bytes :=
  match i with
  | .b64Enc => .ok (encB64 a64 t)
  | .b64Dec => decB64 inv64 t
  | .b64uEnc => .ok (encB64 a64u t)
  | .b64uDec => decB64 inv64u t
  | .b32Enc => .ok (encB32 t)
  | .b32Dec => decB32 t
  | .b16Enc => .ok (encB16 t)
  | .b16Dec => decB16 t
  | .uulEnc => .ok (encUUL t)
  | .uulDec => decUUL t
  | .uucEnc => encUUC t
  | .uucDec => decUUC t 0
  | .uufEnc => .ok (encUUF t mode name)
  | .uufDec => decUUF t

/-- Every command is its pure function between the capacity check and the completion. -/
theorem exec_eq_runCommand (i : Instr) (s : State) :
    exec i s = .next (s.runCommand i (ownResult i s.inputBytes s.modeBytes s.nameBytes) (tailOf i)) := by
  cases i <;> rfl

/-- The three ways a command completes (R226, R228). -/
theorem runCommand_cases (s : State) (i : Instr) (own : Except Failure Bytes) (tail : Bytes) :
    (s.fits i = false ∧ s.runCommand i own tail = s.raise { kind := .bufferTooSmall, pos := 0 }) ∨
    (s.fits i = true ∧ ∃ f, own = .error f ∧ s.runCommand i own tail = s.raise f) ∨
    (s.fits i = true ∧ ∃ d, own = .ok d ∧ s.runCommand i own tail = s.succeed d tail) := by
  cases hf : s.fits i
  · exact .inl ⟨rfl, by simp [State.runCommand, hf]⟩
  · cases own with
    | error f => exact .inr (.inl ⟨rfl, f, rfl, by simp [State.runCommand, hf]⟩)
    | ok d => exact .inr (.inr ⟨rfl, d, rfl, by simp [State.runCommand, hf]⟩)

/-- The three ways `exec` answers; it always answers a next state (R227, R240). -/
theorem exec_cases {i : Instr} {s t : State} (h : exec i s = .next t) :
    (s.fits i = false ∧ t = s.raise { kind := .bufferTooSmall, pos := 0 }) ∨
    (s.fits i = true ∧ ∃ f, ownResult i s.inputBytes s.modeBytes s.nameBytes = .error f ∧ t = s.raise f) ∨
    (s.fits i = true ∧ ∃ d, ownResult i s.inputBytes s.modeBytes s.nameBytes = .ok d ∧ t = s.succeed d (tailOf i)) := by
  rw [exec_eq_runCommand] at h
  cases h
  exact runCommand_cases s i _ _

/-- A command whose inputs fit and whose function gives bytes succeeds. -/
theorem exec_of_ok {i : Instr} {s : State} {d : Bytes} (hf : s.fits i = true)
    (h : ownResult i s.inputBytes s.modeBytes s.nameBytes = .ok d) : exec i s = .next (s.succeed d (tailOf i)) := by
  rw [exec_eq_runCommand, h]
  simp [State.runCommand, hf]

/-- A command whose inputs fit and whose function fails takes the failure (R244). -/
theorem exec_of_error {i : Instr} {s : State} {f : Failure} (hf : s.fits i = true)
    (h : ownResult i s.inputBytes s.modeBytes s.nameBytes = .error f) : exec i s = .next (s.raise f) := by
  rw [exec_eq_runCommand, h]
  simp [State.runCommand, hf]

theorem exec_of_not_fits {i : Instr} {s : State} (hf : s.fits i = false) :
    exec i s = .next (s.raise { kind := .bufferTooSmall, pos := 0 }) := by
  rw [exec_eq_runCommand]
  simp [State.runCommand, hf]

/-- The capacity check in R226's words. -/
theorem fits_iff (s : State) (i : Instr) :
    s.fits i = true ↔ s.inLen ≤ s.par.inCap ∧ (i = .uufEnc → s.modeLen ≤ s.par.auxCap ∧ s.nameLen ≤ s.par.auxCap) ∧
      commandReqLen i s.inLen s.modeLen s.nameLen ≤ s.par.outCap := by
  by_cases hi : i = .uufEnc <;> simp [State.fits, hi, and_assoc]

@[simp] theorem length_inputBytes (s : State) : s.inputBytes.length = s.inLen := by simp [State.inputBytes]
@[simp] theorem length_modeBytes (s : State) : s.modeBytes.length = s.modeLen := by simp [State.modeBytes]
@[simp] theorem length_nameBytes (s : State) : s.nameBytes.length = s.nameLen := by simp [State.nameBytes]

theorem getElem?_inputBytes (s : State) {j : Nat} (h : j < s.inLen) : s.inputBytes[j]? = some (s.byte .input j) :=
  Buffer.getElem?_read _ _ _ _ h

theorem getElem_inputBytes (s : State) {j : Nat} (h : j < s.inputBytes.length) : s.inputBytes[j] = s.byte .input j := by
  simp [State.inputBytes, State.byte]

/-- A result byte of a success. -/
theorem byte_succeed (s : State) (d tail : Bytes) {j : Nat} (h : j < d.length) : (s.succeed d tail).byte .output j = d[j] := by
  simp only [State.byte, State.buffer_output, State.succeed_outBuf]
  rw [Buffer.byte_write_nil _ _ _ _ (by simp; omega)]
  simp [h]

/-- The terminating marker of a successful encode (R66). -/
theorem byte_succeed_marker (s : State) (d : Bytes) : (s.succeed d encodeTail).byte .output d.length = marker := by
  simp only [State.byte, State.buffer_output, State.succeed_outBuf]
  rw [Buffer.byte_write_nil _ _ _ _ (by simp [encodeTail])]
  simp [encodeTail]

/-- What the core's turn can do. -/
theorem coreTurn_cases (s : State) :
    (s.phase ≠ .busy ∧ coreTurn s = .next s) ∨
    (s.phase = .busy ∧ ∃ i, decode s.cmd = .ok i ∧ coreTurn s = exec i s) ∨
    (s.phase = .busy ∧ ∃ e, decode s.cmd = .error e ∧ coreTurn s = .next s.takeIllegal) := by
  unfold coreTurn
  cases hp : s.phase
  · exact .inl ⟨by simp, rfl⟩
  · cases hd : decode s.cmd with
    | ok i => exact .inr (.inl ⟨rfl, i, rfl, by simp⟩)
    | error e => exact .inr (.inr ⟨rfl, e, rfl, by simp⟩)
  · exact .inl ⟨by simp, rfl⟩

/-- What one access of the host can do when it does not fault. -/
theorem hostAccess_cases {a : Access} {s t : State} (h : hostAccess a s = .next t) :
    (∃ r, a = .readReg r ∧ t = s.hostReadReg r) ∨
    (∃ r v, a = .writeReg r v ∧ s.phase ≠ .busy ∧ t = s.writeReg r v) ∨
    (∃ sp i, a = .readByte sp i ∧ i < capOf s.par sp ∧ t = s.hostReadByte sp i) ∨
    (∃ sp i v, a = .writeByte sp i v ∧ s.phase ≠ .busy ∧ i < capOf s.par sp ∧ t = s.setByte sp i v) := by
  cases a with
  | readReg r => cases h; exact .inl ⟨r, rfl, rfl⟩
  | writeReg r v =>
    simp only [hostAccess] at h
    split at h
    · cases h
    · cases h; exact .inr (.inl ⟨r, v, rfl, ‹_›, rfl⟩)
  | readByte sp i =>
    simp only [hostAccess] at h
    split at h
    · cases h
    · cases h; exact .inr (.inr (.inl ⟨sp, i, rfl, by omega, rfl⟩))
  | writeByte sp i v =>
    simp only [hostAccess] at h
    split at h
    · cases h
    · split at h
      · cases h
      · cases h; exact .inr (.inr (.inr ⟨sp, i, v, rfl, ‹_›, by omega, rfl⟩))

/-- What a unit step can do when it does not fault: deliver bytes inside the capacity and go on, fail, or complete. -/
theorem unitStep_cases {i : Instr} {s t : State} (h : unitStep i s = .next t) :
    (∃ f, t = s.raise f) ∨
    (∃ (c : Memory) (w : Work) (d : Bytes), (c = [] ∨ c = s.outBuf.cells) ∧ w.op + d.length ≤ s.par.outCap ∧
      t = { s with outBuf := { s.outBuf with cells := Memory.write c w.op d },
                   work := { w with op := w.op + d.length } }) ∨
    (∃ d : Bytes, s.work.op + (d ++ tailOf i).length ≤ s.par.outCap ∧
      t = s.complete .ok 0 (s.work.op + d.length) (Memory.write s.outBuf.cells s.work.op (d ++ tailOf i))) := by
  unfold unitStep at h
  split at h
  · split at h
    · split at h
      · cases h; exact .inl ⟨_, rfl⟩
      · rename_i w d _
        simp only [State.emit] at h
        split at h
        · cases h
        · cases h; exact .inr (.inl ⟨[], w, d, .inl rfl, by omega, rfl⟩)
    · cases h; exact .inl ⟨_, rfl⟩
  · split at h
    · cases h; exact .inl ⟨_, rfl⟩
    · rename_i d _
      simp only [State.finishUnits] at h
      split at h
      · cases h
      · cases h; exact .inr (.inr ⟨d, by omega, rfl⟩)
  · rename_i k _
    split at h
    · cases h; exact .inl ⟨_, rfl⟩
    · rename_i w d _
      simp only [State.emit] at h
      split at h
      · cases h
      · cases h; exact .inr (.inl ⟨s.outBuf.cells, { w with left := some k }, d, .inr rfl, Nat.le_of_not_lt ‹_›, rfl⟩)

end Sys2Proof.Machine
end

