-- ==== Sys2Proof/Laws/Codec.lean ====
section
/-! SUPPORT. The lengths of the encoders' and decoders' results (R203, R221, R223), and which failures a decoder can
give and where (R28, R243). -/

namespace Sys2Proof.Machine

/-- A sequence of two evaluations succeeds when both do. -/
theorem bind_eq_ok {α β : Type} {x : Except Failure α} {f : α → Except Failure β} {r : β} :
    (x >>= f) = .ok r ↔ ∃ a, x = .ok a ∧ f a = .ok r := by
  cases x <;> simp [bind, Except.bind]

/-- It fails when the first does, or the second after it. -/
theorem bind_eq_error {α β : Type} {x : Except Failure α} {f : α → Except Failure β} {e : Failure} :
    (x >>= f) = .error e ↔ x = .error e ∨ ∃ a, x = .ok a ∧ f a = .error e := by
  cases x <;> simp [bind, Except.bind]

/-! ### Lengths -/

theorem length_encSextets (sym : Nat → Byte) (fill : Byte) (b : Bytes) :
    (encSextets sym fill b).length = 4 * ceilDiv b.length 3 := by
  induction b using encSextets.induct with
  | case1 b0 b1 b2 rest ih =>
    simp only [encSextets, List.length_cons, ih, ceilDiv]
    omega
  | case2 => simp [encSextets, ceilDiv]
  | case3 => simp [encSextets, ceilDiv]
  | case4 => simp [encSextets, ceilDiv]

theorem length_encB64 (a b : Bytes) : (encB64 a b).length = 4 * ceilDiv b.length 3 := length_encSextets _ _ _

theorem length_encUUL (b : Bytes) : (encUUL b).length = 4 * ceilDiv b.length 3 := length_encSextets _ _ _

theorem pad32_le (r : Nat) : pad32 r ≤ 8 := by
  unfold pad32
  split <;> omega

theorem length_encGroup32 (g : Bytes) : (encGroup32 g).length = 8 := by
  have := pad32_le g.length
  simp only [encGroup32, List.length_append, List.length_map, List.length_range, List.length_replicate]
  omega

theorem length_encB32 (b : Bytes) : (encB32 b).length = 8 * ceilDiv b.length 5 := by
  induction b using encB32.induct with
  | case1 b0 b1 b2 b3 b4 rest ih =>
    simp only [encB32, List.length_append, List.length_cons, ih, length_encGroup32, ceilDiv]
    omega
  | case2 => simp [encB32, ceilDiv]
  | case3 g h1 h2 =>
    have hg : 0 < g.length ∧ g.length < 5 := by
      match g, h1, h2 with
      | [], _, h2 => exact absurd rfl h2
      | [_], _, _ => simp
      | [_, _], _, _ => simp
      | [_, _, _], _, _ => simp
      | [_, _, _, _], _, _ => simp
      | b0 :: b1 :: b2 :: b3 :: b4 :: r, h1, _ => exact absurd rfl (h1 b0 b1 b2 b3 b4 r)
    rw [encB32.eq_3 g h1 h2, length_encGroup32, ceilDiv]
    omega

theorem length_encB16 (b : Bytes) : (encB16 b).length = 2 * b.length := by
  induction b with
  | nil => rfl
  | cons c b ih =>
    simp only [encB16, List.flatMap_cons, List.length_append, List.length_cons] at ih ⊢
    simp only [encByte16, List.length_cons, List.length_nil, ih]
    omega

theorem length_countedLine (b : Bytes) : (countedLine b).length = 1 + 4 * ceilDiv b.length 3 := by
  simp only [countedLine, List.length_cons, length_encUUL]
  omega

theorem length_chunk (b : Bytes) (g : Nat) : (chunk b g).length = min 60 (b.length - 60 * g) := by
  simp [chunk, chunkSize]

/-- The body of the envelope by chunks: `82` bytes for a whole one (R203). -/
theorem length_bodyPrefix (b : Bytes) (k : Nat) (h : 60 * k ≤ b.length) :
    ((List.range k).flatMap fun g => countedLine (chunk b g) ++ [lf]).length = 82 * k := by
  induction k with
  | zero => rfl
  | succ k ih =>
    rw [List.range_succ, List.flatMap_append, List.length_append, ih (by omega)]
    simp only [List.flatMap_cons, List.flatMap_nil, List.append_nil, List.length_append, List.length_cons,
      List.length_nil, length_countedLine, length_chunk, ceilDiv]
    omega

theorem length_bodyLines (b : Bytes) :
    (bodyLines b).length = 82 * (b.length / 60) + (if 0 < b.length % 60 then 2 + 4 * ceilDiv (b.length % 60) 3 else 0) := by
  have hc : ceilDiv b.length chunkSize = b.length / 60 + (if 0 < b.length % 60 then 1 else 0) := by
    simp only [ceilDiv, chunkSize]
    split <;> omega
  rw [bodyLines, hc]
  split
  · rw [List.range_succ, List.flatMap_append, List.length_append, length_bodyPrefix b _ (by omega)]
    simp only [List.flatMap_cons, List.flatMap_nil, List.append_nil, List.length_append, List.length_cons,
      List.length_nil, length_countedLine, length_chunk]
    rw [show min 60 (b.length - 60 * (b.length / 60)) = b.length % 60 by omega]
    omega
  · rw [Nat.add_zero, length_bodyPrefix b _ (by omega)]
    rfl

theorem length_encUUF (b mode name : Bytes) : (encUUF b mode name).length = envelopeLen b.length mode.length name.length := by
  simp only [encUUF, headerLine, trailer, beginText, endText, List.length_append, List.length_cons, List.length_nil,
    length_bodyLines, envelopeLen]
  omega

theorem symbolValue_eq_ok {inv : Byte → Option Nat} {c : Byte} {pos v : Nat} :
    symbolValue inv c pos = .ok v ↔ inv c = some v := by
  unfold symbolValue
  cases inv c <;> simp

theorem symbolValue_eq_error {inv : Byte → Option Nat} {c : Byte} {pos : Nat} {e : Failure} :
    symbolValue inv c pos = .error e ↔ inv c = none ∧ e = { kind := .invalidAlphabetChar, pos := pos } := by
  unfold symbolValue
  cases inv c <;> simp [eq_comm]

theorem dataSymbol_eq_ok {inv : Byte → Option Nat} {c : Byte} {pos v : Nat} :
    dataSymbol inv c pos = .ok v ↔ c ≠ pad ∧ inv c = some v := by
  unfold dataSymbol
  split <;> simp_all [symbolValue_eq_ok]

theorem dataSymbol_eq_error {inv : Byte → Option Nat} {c : Byte} {pos : Nat} {e : Failure} :
    dataSymbol inv c pos = .error e ↔
      (c = pad ∧ e = { kind := .invalidPadding, pos := pos }) ∨
      (c ≠ pad ∧ inv c = none ∧ e = { kind := .invalidAlphabetChar, pos := pos }) := by
  unfold dataSymbol
  split
  · simp_all [eq_comm]
  · simp_all [symbolValue_eq_error]

/-- A quantum gives 1, 2 or 3 bytes (R136). -/
theorem decQuantum64_length {inv : Byte → Option Nat} {last : Bool} {pos : Nat} {c0 c1 c2 c3 : Byte} {d : Bytes}
    (h : decQuantum64 inv last pos c0 c1 c2 c3 = .ok d) : d.length ≤ 3 := by
  simp only [decQuantum64, bind_eq_ok] at h
  obtain ⟨v0, -, v1, -, h⟩ := h
  split at h
  · split at h
    · cases h
    · cases h; simp
  · simp only [bind_eq_ok] at h
    obtain ⟨v2, -, h⟩ := h
    split at h
    · split at h
      · cases h
      · cases h; simp
    · simp only [bind_eq_ok] at h
      obtain ⟨v3, -, h⟩ := h
      cases h; simp

/-- A failing quantum fails at one of its own symbols (R28, R136). -/
theorem decQuantum64_error {inv : Byte → Option Nat} {last : Bool} {pos : Nat} {c0 c1 c2 c3 : Byte} {e : Failure}
    (h : decQuantum64 inv last pos c0 c1 c2 c3 = .error e) :
    e.pos ≤ pos + 3 ∧ (e.kind = .invalidPadding ∨ e.kind = .invalidAlphabetChar) := by
  simp only [decQuantum64, bind_eq_error, dataSymbol_eq_error] at h
  rcases h with (⟨-, rfl⟩ | ⟨-, -, rfl⟩) | ⟨v0, -, h⟩
  · simp
  · simp
  rcases h with (⟨-, rfl⟩ | ⟨-, -, rfl⟩) | ⟨v1, -, h⟩
  · simp
  · simp
  split at h
  · split at h
    · cases h; simp
    · cases h
  · simp only [bind_eq_error, symbolValue_eq_error] at h
    rcases h with ⟨-, rfl⟩ | ⟨v2, -, h⟩
    · simp
    split at h
    · split at h
      · cases h; simp
      · cases h
    · simp only [bind_eq_error, symbolValue_eq_error] at h
      rcases h with ⟨-, rfl⟩ | ⟨v3, -, h⟩
      · simp
      · cases h

theorem decQuanta64_length {inv : Byte → Option Nat} {pos : Nat} {t d : Bytes} (h : decQuanta64 inv pos t = .ok d) :
    4 * d.length ≤ 3 * t.length := by
  induction pos, t using decQuanta64.induct generalizing d with
  | case1 pos c0 c1 c2 c3 rest ih =>
    simp only [decQuanta64, bind_eq_ok] at h
    obtain ⟨a, ha, r, hr, h⟩ := h
    cases h
    have := decQuantum64_length ha
    have := ih hr
    simp only [List.length_append, List.length_cons]
    omega
  | case2 t pos hn =>
    rw [decQuanta64.eq_2 inv pos t hn] at h
    cases h; simp

theorem decQuanta64_error {inv : Byte → Option Nat} {pos : Nat} {t : Bytes} {e : Failure}
    (h : decQuanta64 inv pos t = .error e) :
    e.pos < pos + t.length ∧ (e.kind = .invalidPadding ∨ e.kind = .invalidAlphabetChar) := by
  induction pos, t using decQuanta64.induct with
  | case1 pos c0 c1 c2 c3 rest ih =>
    simp only [decQuanta64, bind_eq_error] at h
    rcases h with h | ⟨a, -, h | ⟨r, -, h⟩⟩
    · have := decQuantum64_error h
      simp only [List.length_cons]
      exact ⟨by omega, this.2⟩
    · have := ih h
      simp only [List.length_cons]
      exact ⟨by omega, this.2⟩
    · cases h
  | case2 t pos hn =>
    rw [decQuanta64.eq_2 inv pos t hn] at h
    cases h

theorem length_rdropWhile_le {α : Type} (p : α → Bool) (l : List α) : (l.rdropWhile p).length ≤ l.length :=
  (List.rdropWhile_prefix p (l := l)).length_le

theorem length_stripCRLF_le (t : Bytes) : (stripCRLF t).length ≤ t.length := length_rdropWhile_le _ _
theorem length_stripPads_le (t : Bytes) : (stripPads t).length ≤ t.length := length_rdropWhile_le _ _

theorem prepare64_eq_ok {t u : Bytes} (h : prepare64 t = .ok u) : u.length ≤ t.length := by
  simp only [prepare64] at h
  have := length_stripCRLF_le t
  repeat' split at h
  all_goals first | (cases h; simp_all) | cases h

theorem prepare64_eq_error {t : Bytes} {e : Failure} (h : prepare64 t = .error e) :
    e = { kind := .invalidLength, pos := 0 } := by
  simp only [prepare64] at h
  repeat' split at h
  all_goals first | (cases h; rfl) | cases h

theorem decB64_length {inv : Byte → Option Nat} {t d : Bytes} (h : decB64 inv t = .ok d) : d.length ≤ t.length := by
  simp only [decB64, bind_eq_ok] at h
  obtain ⟨u, hu, h⟩ := h
  have := prepare64_eq_ok hu
  have := decQuanta64_length h
  omega

theorem decB64_error {inv : Byte → Option Nat} {t : Bytes} {e : Failure} (h : decB64 inv t = .error e) :
    e.pos ≤ t.length ∧ (e.kind = .invalidLength ∨ e.kind = .invalidPadding ∨ e.kind = .invalidAlphabetChar) := by
  simp only [decB64, bind_eq_error] at h
  rcases h with h | ⟨u, hu, h⟩
  · rw [prepare64_eq_error h]; simp
  · have := prepare64_eq_ok hu
    have := decQuanta64_error h
    exact ⟨by omega, .inr this.2⟩

/-- A symbol taken into the accumulator (R154): what becomes of the count of bits, and how many bytes it gives. -/
theorem decSymbol32_eq_ok {i acc nbits acc' nbits' : Nat} {c : Byte} {d : Bytes}
    (h : decSymbol32 i acc nbits c = .ok (acc', nbits', d)) :
    nbits' + 8 * d.length = nbits + 5 ∧ (nbits < 8 → nbits' < 8) := by
  simp only [decSymbol32, bind_eq_ok] at h
  obtain ⟨v, -, h⟩ := h
  split at h
  · cases h
    simp only [List.length_cons, List.length_nil]
    exact ⟨by omega, fun _ => by omega⟩
  · cases h
    exact ⟨by simp, fun _ => by omega⟩

theorem decSymbol32_eq_error {i acc nbits : Nat} {c : Byte} {e : Failure} (h : decSymbol32 i acc nbits c = .error e) :
    e.pos = i ∧ (e.kind = .invalidPadding ∨ e.kind = .invalidAlphabetChar) := by
  simp only [decSymbol32, bind_eq_error, dataSymbol_eq_error] at h
  rcases h with (⟨-, rfl⟩ | ⟨-, -, rfl⟩) | ⟨v, -, h⟩
  · simp
  · simp
  · split at h <;> cases h

/-- `|out| = floor(5k/8)` (R154, R155), from any filling of the accumulator. -/
theorem decSymbols32_length {i acc nbits : Nat} {t d : Bytes} (h : decSymbols32 i acc nbits t = .ok d) (hn : nbits < 8) :
    d.length = (nbits + 5 * t.length) / 8 := by
  induction t generalizing i acc nbits d with
  | nil =>
    simp only [decSymbols32] at h
    cases h
    simp only [List.length_nil]
    omega
  | cons c cs ih =>
    simp only [decSymbols32, bind_eq_ok] at h
    obtain ⟨⟨acc', nbits', a⟩, ha, h⟩ := h
    obtain ⟨r, hr, h⟩ := h
    cases h
    obtain ⟨h1, h2⟩ := decSymbol32_eq_ok ha
    have h3 := ih hr (h2 hn)
    simp only [List.length_append, List.length_cons] at h3 ⊢
    omega

theorem decSymbols32_error {i acc nbits : Nat} {t : Bytes} {e : Failure} (h : decSymbols32 i acc nbits t = .error e) :
    e.pos < i + t.length ∧ (e.kind = .invalidPadding ∨ e.kind = .invalidAlphabetChar) := by
  induction t generalizing i acc nbits with
  | nil => simp [decSymbols32] at h
  | cons c cs ih =>
    simp only [decSymbols32, bind_eq_error] at h
    rcases h with h | ⟨⟨acc', nbits', a⟩, -, h⟩
    · obtain ⟨h1, h2⟩ := decSymbol32_eq_error h
      simp only [List.length_cons]
      exact ⟨by omega, h2⟩
    · rcases h with h | ⟨r, -, h⟩
      · have := ih h
        simp only [List.length_cons]
        exact ⟨by omega, this.2⟩
      · cases h

theorem checkTail32_eq_error {k p : Nat} {e : Failure} (h : checkTail32 k p = .error e) :
    e = { kind := .invalidPadding, pos := 0 } := by
  simp only [checkTail32] at h
  repeat' split at h
  all_goals first | (cases h; rfl) | cases h

theorem decB32_length {t d : Bytes} (h : decB32 t = .ok d) :
    d.length = 5 * (stripPads (stripCRLF t)).length / 8 ∧ d.length ≤ t.length := by
  simp only [decB32, bind_eq_ok] at h
  obtain ⟨r, hr, _, -, h⟩ := h
  cases h
  have := decSymbols32_length hr (by omega)
  have := length_stripCRLF_le t
  have := length_stripPads_le (stripCRLF t)
  omega

theorem decB32_error {t : Bytes} {e : Failure} (h : decB32 t = .error e) :
    e.pos ≤ t.length ∧ (e.kind = .invalidPadding ∨ e.kind = .invalidAlphabetChar) := by
  simp only [decB32, bind_eq_error] at h
  rcases h with h | ⟨r, -, h | ⟨_, -, h⟩⟩
  · have he := decSymbols32_error h
    have := length_stripCRLF_le t
    have := length_stripPads_le (stripCRLF t)
    exact ⟨by omega, he.2⟩
  · rw [checkTail32_eq_error h]; simp
  · cases h

theorem decPair16_length {pos : Nat} {h l : Byte} {d : Bytes} (hd : decPair16 pos h l = .ok d) : d.length = 1 := by
  simp only [decPair16, bind_eq_ok] at hd
  obtain ⟨_, -, _, -, hd⟩ := hd
  cases hd; rfl

theorem decPair16_error {pos : Nat} {h l : Byte} {e : Failure} (he : decPair16 pos h l = .error e) :
    e.pos ≤ pos + 1 ∧ e.kind = .invalidAlphabetChar := by
  simp only [decPair16, bind_eq_error, symbolValue_eq_error] at he
  rcases he with ⟨-, rfl⟩ | ⟨_, -, ⟨-, rfl⟩ | ⟨_, -, he⟩⟩
  · simp
  · simp
  · cases he

theorem decPairs16_length {pos : Nat} {t d : Bytes} (h : decPairs16 pos t = .ok d) : d.length = t.length / 2 := by
  induction pos, t using decPairs16.induct generalizing d with
  | case1 pos c0 c1 rest ih =>
    simp only [decPairs16, bind_eq_ok] at h
    obtain ⟨a, ha, r, hr, h⟩ := h
    cases h
    have := decPair16_length ha
    have := ih hr
    simp only [List.length_append, List.length_cons]
    omega
  | case2 t pos hn =>
    have ht : t.length < 2 := by
      match t, hn with
      | [], _ => simp
      | [_], _ => simp
      | a :: b :: r, hn => exact absurd rfl (hn a b r)
    rw [decPairs16.eq_2 pos t hn] at h
    cases h
    simp only [List.length_nil]
    omega

theorem decPairs16_error {pos : Nat} {t : Bytes} {e : Failure} (h : decPairs16 pos t = .error e) :
    e.pos < pos + t.length ∧ e.kind = .invalidAlphabetChar := by
  induction pos, t using decPairs16.induct with
  | case1 pos c0 c1 rest ih =>
    simp only [decPairs16, bind_eq_error] at h
    rcases h with h | ⟨a, -, h | ⟨r, -, h⟩⟩
    · have := decPair16_error h
      simp only [List.length_cons]
      exact ⟨by omega, this.2⟩
    · have := ih h
      simp only [List.length_cons]
      exact ⟨by omega, this.2⟩
    · cases h
  | case2 t pos hn =>
    rw [decPairs16.eq_2 pos t hn] at h
    cases h

theorem decB16_length {t d : Bytes} (h : decB16 t = .ok d) : d.length = t.length / 2 := by
  simp only [decB16] at h
  split at h
  · cases h
  · exact decPairs16_length h

theorem decB16_error {t : Bytes} {e : Failure} (h : decB16 t = .error e) :
    e.pos ≤ t.length ∧ (e.kind = .invalidLength ∨ e.kind = .invalidAlphabetChar) := by
  simp only [decB16] at h
  split at h
  · cases h; simp
  · have := decPairs16_error h
    exact ⟨by omega, .inr this.2⟩

theorem decGroupUU_length {pos : Nat} {c0 c1 c2 c3 : Byte} {d : Bytes} (h : decGroupUU pos c0 c1 c2 c3 = .ok d) :
    d.length = 3 := by
  simp only [decGroupUU, bind_eq_ok] at h
  obtain ⟨_, -, _, -, _, -, _, -, h⟩ := h
  cases h; rfl

theorem decGroupUU_error {pos : Nat} {c0 c1 c2 c3 : Byte} {e : Failure} (h : decGroupUU pos c0 c1 c2 c3 = .error e) :
    pos ≤ e.pos ∧ e.pos ≤ pos + 3 ∧ e.kind = .invalidAlphabetChar := by
  simp only [decGroupUU, bind_eq_error, symbolValue_eq_error] at h
  rcases h with ⟨-, rfl⟩ | ⟨_, -, ⟨-, rfl⟩ | ⟨_, -, ⟨-, rfl⟩ | ⟨_, -, ⟨-, rfl⟩ | ⟨_, -, h⟩⟩⟩⟩
  · simp
  · simp
  · simp
  · simp
  · cases h

theorem decGroupsUU_length {pos : Nat} {t d : Bytes} (h : decGroupsUU pos t = .ok d) : d.length = 3 * (t.length / 4) := by
  induction pos, t using decGroupsUU.induct generalizing d with
  | case1 pos c0 c1 c2 c3 rest ih =>
    simp only [decGroupsUU, bind_eq_ok] at h
    obtain ⟨a, ha, r, hr, h⟩ := h
    cases h
    have := decGroupUU_length ha
    have := ih hr
    simp only [List.length_append, List.length_cons]
    omega
  | case2 t pos hn =>
    have ht : t.length < 4 := by
      match t, hn with
      | [], _ => simp
      | [_], _ => simp
      | [_, _], _ => simp
      | [_, _, _], _ => simp
      | a :: b :: c :: d :: r, hn => exact absurd rfl (hn a b c d r)
    rw [decGroupsUU.eq_2 pos t hn] at h
    cases h
    simp only [List.length_nil]
    omega

theorem decGroupsUU_error {pos : Nat} {t : Bytes} {e : Failure} (h : decGroupsUU pos t = .error e) :
    pos ≤ e.pos ∧ e.pos < pos + t.length ∧ e.kind = .invalidAlphabetChar := by
  induction pos, t using decGroupsUU.induct with
  | case1 pos c0 c1 c2 c3 rest ih =>
    simp only [decGroupsUU, bind_eq_error] at h
    rcases h with h | ⟨a, -, h | ⟨r, -, h⟩⟩
    · have := decGroupUU_error h
      simp only [List.length_cons]
      exact ⟨by omega, by omega, this.2.2⟩
    · have := ih h
      simp only [List.length_cons]
      exact ⟨by omega, by omega, this.2.2⟩
    · cases h
  | case2 t pos hn =>
    rw [decGroupsUU.eq_2 pos t hn] at h
    cases h

theorem decUUL_length {t d : Bytes} (h : decUUL t = .ok d) : d.length = 3 * (t.length / 4) := by
  simp only [decUUL] at h
  split at h
  · cases h
  · exact decGroupsUU_length h

theorem decUUL_error {t : Bytes} {e : Failure} (h : decUUL t = .error e) :
    e.pos ≤ t.length ∧ (e.kind = .invalidLength ∨ e.kind = .invalidAlphabetChar) := by
  simp only [decUUL] at h
  split at h
  · cases h; simp
  · have := decGroupsUU_error h
    exact ⟨by omega, .inr this.2.2⟩

theorem decUUC_length {t d : Bytes} {base : Nat} (h : decUUC t base = .ok d) : d.length + 1 ≤ t.length := by
  match t, h with
  | [], h => simp [decUUC] at h
  | c :: line, h =>
    simp only [decUUC] at h
    split at h
    · cases h
    · simp only [bind_eq_ok] at h
      obtain ⟨e, -, h⟩ := h
      split at h
      · cases h
      · simp only [bind_eq_ok] at h
        obtain ⟨r, hr, h⟩ := h
        cases h
        have := decGroupsUU_length hr
        simp only [List.length_take, List.length_cons]
        omega

theorem decUUC_error {t : Bytes} {base : Nat} {e : Failure} (h : decUUC t base = .error e) :
    base ≤ e.pos ∧ e.pos ≤ base + t.length ∧ (e.kind = .invalidLength ∨ e.kind = .invalidAlphabetChar) := by
  match t, h with
  | [], h => simp only [decUUC] at h; cases h; simp
  | c :: line, h =>
    simp only [decUUC] at h
    split at h
    · cases h; simp
    · simp only [bind_eq_error, symbolValue_eq_error] at h
      rcases h with ⟨-, rfl⟩ | ⟨v, -, h⟩
      · simp
      · split at h
        · cases h; simp
        · simp only [bind_eq_error] at h
          rcases h with h | ⟨r, -, h⟩
          · have := decGroupsUU_error h
            simp only [List.length_cons]
            exact ⟨by omega, by omega, .inr this.2.2⟩
          · cases h

/-- Where a counted line's two kinds of failure are recorded: a length at its first byte, a symbol inside it (R189). -/
theorem decUUC_error_pos {t : Bytes} {base : Nat} {e : Failure} (h : decUUC t base = .error e) :
    (e.kind = .invalidLength → e.pos = base) ∧ (e.kind = .invalidAlphabetChar → e.pos < base + t.length) := by
  match t, h with
  | [], h => simp only [decUUC] at h; cases h; simp
  | c :: line, h =>
    simp only [decUUC] at h
    split at h
    · cases h; simp
    · simp only [bind_eq_error, symbolValue_eq_error] at h
      rcases h with ⟨-, rfl⟩ | ⟨v, -, h⟩
      · simp
      · split at h
        · cases h; simp
        · simp only [bind_eq_error] at h
          rcases h with h | ⟨r, -, h⟩
          · have := decGroupsUU_error h
            simp only [List.length_cons, this.2.2, reduceCtorEq, false_implies, true_and]
            omega
          · cases h

/-- The lines' own bytes and one LF each: the length of what they were split from, and one more (R207). -/
theorem length_splitLines (t : Bytes) : ((splitLines t).map fun l => l.length + 1).sum = t.length + 1 := by
  induction t with
  | nil => rfl
  | cons c cs ih =>
    simp only [splitLines]
    split
    · simp only [List.map_cons, List.sum_cons, ih, List.length_nil, List.length_cons]
      omega
    · cases hs : splitLines cs with
      | nil => simp [hs] at ih
      | cons l ls =>
        simp only [hs, List.map_cons, List.sum_cons, List.length_cons] at ih ⊢
        omega

theorem decLines_length {pos : Nat} {ls : List Bytes} {d : Bytes} (h : decLines pos ls = .ok d) :
    d.length ≤ (ls.map fun l => l.length + 1).sum := by
  induction ls generalizing pos d with
  | nil => simp only [decLines] at h; cases h; simp
  | cons l ls ih =>
    simp only [decLines, bind_eq_ok] at h
    obtain ⟨a, ha, r, hr, h⟩ := h
    cases h
    have := decUUC_length ha
    have := ih hr
    simp only [List.length_append, List.map_cons, List.sum_cons]
    omega

theorem decLines_error {pos : Nat} {ls : List Bytes} {e : Failure} (h : decLines pos ls = .error e) :
    pos ≤ e.pos ∧ e.pos + 1 ≤ pos + (ls.map fun l => l.length + 1).sum ∧
      (e.kind = .invalidLength ∨ e.kind = .invalidAlphabetChar) := by
  induction ls generalizing pos with
  | nil => simp [decLines] at h
  | cons l ls ih =>
    simp only [decLines, bind_eq_error] at h
    simp only [List.map_cons, List.sum_cons]
    rcases h with h | ⟨a, -, h | ⟨r, -, h⟩⟩
    · have := decUUC_error h
      exact ⟨by omega, by omega, this.2.2⟩
    · have := ih h
      exact ⟨by omega, by omega, this.2.2⟩
    · cases h

/-- A body line's symbol failure lies before the end of its line (R207). -/
theorem decLines_error_pos {pos : Nat} {ls : List Bytes} {e : Failure} (h : decLines pos ls = .error e) :
    e.kind = .invalidAlphabetChar → e.pos + 2 ≤ pos + (ls.map fun l => l.length + 1).sum := by
  intro hk
  induction ls generalizing pos with
  | nil => simp [decLines] at h
  | cons l ls ih =>
    simp only [decLines, bind_eq_error] at h
    simp only [List.map_cons, List.sum_cons]
    rcases h with h | ⟨a, -, h | ⟨r, -, h⟩⟩
    · have := (decUUC_error_pos h).2 hk
      omega
    · have := ih h
      omega
    · cases h

/-- What `findSub` finds: the least place at or after which the bytes begin. -/
theorem findSub_eq_some {p : Bytes} {i j : Nat} {t : Bytes} (h : findSub p i t = some j) :
    i ≤ j ∧ j ≤ i + t.length ∧ p <+: t.drop (j - i) ∧ ∀ k, i ≤ k → k < j → ¬ p <+: t.drop (k - i) := by
  induction t generalizing i with
  | nil =>
    simp only [findSub] at h
    split at h
    · rename_i he
      cases h
      simp only [List.isEmpty_iff] at he
      subst he
      simp
    · cases h
  | cons c cs ih =>
    simp only [findSub] at h
    split at h
    · rename_i hp
      cases h
      simp only [List.isPrefixOf_iff_prefix] at hp
      simp [hp]
      omega
    · rename_i hp
      obtain ⟨h1, h2, h3, h4⟩ := ih h
      simp only [List.isPrefixOf_iff_prefix] at hp
      refine ⟨by omega, by simp only [List.length_cons]; omega, ?_, fun k hk1 hk2 => ?_⟩
      · rwa [show j - i = (j - (i + 1)) + 1 by omega, List.drop_succ_cons]
      · by_cases hki : k = i
        · subst hki
          simpa using hp
        · rw [show k - i = (k - (i + 1)) + 1 by omega, List.drop_succ_cons]
          exact h4 k (by omega) hk2

theorem findSub_eq_none {p : Bytes} {i : Nat} {t : Bytes} (h : findSub p i t = none) :
    ∀ k, i ≤ k → k ≤ i + t.length → ¬ p <+: t.drop (k - i) := by
  induction t generalizing i with
  | nil =>
    intro k hk1 hk2
    simp only [findSub] at h
    split at h
    · cases h
    · rename_i he
      simpa using he
  | cons c cs ih =>
    intro k hk1 hk2
    simp only [findSub] at h
    split at h
    · cases h
    · rename_i hp
      simp only [List.isPrefixOf_iff_prefix] at hp
      by_cases hki : k = i
      · subst hki
        simpa using hp
      · rw [show k - i = (k - (i + 1)) + 1 by omega, List.drop_succ_cons]
        simp only [List.length_cons] at hk2
        exact ih h k (by omega) (by omega)

theorem findBody_eq_ok {t : Bytes} {h s : Nat} (hb : findBody t = .ok (h, s)) :
    beginText <+: t ∧ findSub [lf] 0 t = some h ∧ findSub sentinel h (t.drop h) = some s := by
  simp only [findBody] at hb
  split at hb
  · rename_i hp
    split at hb
    · cases hb
    · rename_i h' hh
      split at hb
      · cases hb
      · rename_i s' hs
        cases hb
        exact ⟨by simpa using hp, hh, hs⟩
  · cases hb

theorem findBody_eq_error {t : Bytes} {e : Failure} (hb : findBody t = .error e) :
    e = { kind := .invalidFormat, pos := 0 } := by
  simp only [findBody] at hb
  repeat' split at hb
  all_goals first | (cases hb; rfl) | cases hb

/-- The body lines lie between the header's LF and the sentinel. -/
theorem length_bodyOf {t : Bytes} {h s : Nat} (hb : findBody t = .ok (h, s)) :
    h + 1 + ((bodyOf t h s).map fun l => l.length + 1).sum ≤ t.length + 1 := by
  obtain ⟨-, h1, h2⟩ := findBody_eq_ok hb
  have a := findSub_eq_some h1
  have b := findSub_eq_some h2
  have hs : sentinel.length ≤ (t.drop h).length - (s - h) := by
    simpa [List.drop_drop, Nat.sub_sub] using b.2.2.1.length_le
  simp only [List.length_drop, sentinel, endText, List.length_append, List.length_cons, List.length_nil] at hs
  unfold bodyOf
  split
  · rw [length_splitLines]
    simp only [List.length_drop, List.length_take]
    omega
  · simp only [List.map_nil, List.sum_nil]
    omega

theorem decUUF_length {t d : Bytes} (h : decUUF t = .ok d) : d.length ≤ t.length := by
  simp only [decUUF, bind_eq_ok] at h
  obtain ⟨⟨hh, s⟩, hb, h⟩ := h
  have h1 := length_bodyOf hb
  have h2 := decLines_length h
  simp only at h2
  omega

theorem decUUF_error {t : Bytes} {e : Failure} (h : decUUF t = .error e) :
    e.pos ≤ t.length ∧ (e.kind = .invalidFormat ∨ e.kind = .invalidLength ∨ e.kind = .invalidAlphabetChar) := by
  simp only [decUUF, bind_eq_error] at h
  rcases h with h | ⟨⟨hh, s⟩, hb, h⟩
  · rw [findBody_eq_error h]; simp
  · have h1 := length_bodyOf hb
    have h2 := decLines_error h
    simp only at h2
    exact ⟨by omega, .inr h2.2.2⟩

/-! ### All commands -/

/-- A success writes at most `ReqLen` bytes (R70, R221, R223). -/
theorem ownResult_length {i : Instr} {t mode name d : Bytes} (h : ownResult i t mode name = .ok d) :
    (d ++ tailOf i).length ≤ commandReqLen i t.length mode.length name.length := by
  rw [List.length_append]
  cases i <;> simp only [ownResult, tailOf, commandReqLen, encodeTail, decodeTail, List.length_cons, List.length_nil] at h ⊢
  case b64Enc => cases h; rw [length_encB64]
  case b64uEnc => cases h; rw [length_encB64]
  case b32Enc => cases h; rw [length_encB32]
  case b16Enc => cases h; rw [length_encB16]
  case uulEnc => cases h; rw [length_encUUL]
  case uucEnc =>
    simp only [encUUC] at h
    split at h
    · cases h
    · cases h; rw [length_countedLine]; omega
  case uufEnc => cases h; rw [length_encUUF]
  case b64Dec => simpa using decB64_length h
  case b64uDec => simpa using decB64_length h
  case b32Dec => simpa using (decB32_length h).2
  case b16Dec => have := decB16_length h; omega
  case uulDec => have := decUUL_length h; omega
  case uucDec => have := decUUC_length h; omega
  case uufDec => simpa using decUUF_length h

/-- A failure of a command's own rule records a position inside the input (R28). -/
theorem ownResult_pos {i : Instr} {t mode name : Bytes} {e : Failure} (h : ownResult i t mode name = .error e) :
    e.pos ≤ t.length := by
  cases i <;> simp only [ownResult] at h
  case b64Enc => cases h
  case b64uEnc => cases h
  case b32Enc => cases h
  case b16Enc => cases h
  case uulEnc => cases h
  case uufEnc => cases h
  case uucEnc =>
    simp only [encUUC] at h
    split at h
    · cases h; simp
    · cases h
  case b64Dec => exact (decB64_error h).1
  case b64uDec => exact (decB64_error h).1
  case b32Dec => exact (decB32_error h).1
  case b16Dec => exact (decB16_error h).1
  case uulDec => exact (decUUL_error h).1
  case uucDec => have := decUUC_error h; omega
  case uufDec => exact (decUUF_error h).1

/-- What the recorded position of a command's own failure is, by its kind (R243): 0 for a format and, outside an envelope,
for a length; the index of an input byte for a symbol. -/
theorem ownResult_error_pos {i : Instr} {t mode name : Bytes} {e : Failure} (h : ownResult i t mode name = .error e) :
    (e.kind = .invalidFormat → e.pos = 0) ∧ (e.kind = .invalidLength → i ≠ .uufDec → e.pos = 0) ∧
      (e.kind = .invalidAlphabetChar → e.pos < t.length) := by
  have b64 : ∀ {inv : Byte → Option Nat}, decB64 inv t = .error e →
      (e.kind = .invalidLength ∧ e.pos = 0) ∨
        (e.pos < t.length ∧ (e.kind = .invalidPadding ∨ e.kind = .invalidAlphabetChar)) := by
    intro inv h
    simp only [decB64, bind_eq_error] at h
    rcases h with h | ⟨u, hu, h⟩
    · rw [prepare64_eq_error h]; exact .inl ⟨rfl, rfl⟩
    · have := prepare64_eq_ok hu
      have := decQuanta64_error h
      exact .inr ⟨by omega, this.2⟩
  cases i <;> simp only [ownResult] at h
  case b64Enc => cases h
  case b64uEnc => cases h
  case b32Enc => cases h
  case b16Enc => cases h
  case uulEnc => cases h
  case uufEnc => cases h
  case uucEnc =>
    simp only [encUUC] at h
    split at h <;> cases h
    simp
  case b64Dec => rcases b64 h with ⟨h1, h2⟩ | ⟨h2, h1 | h1⟩ <;> simp [h1, h2]
  case b64uDec => rcases b64 h with ⟨h1, h2⟩ | ⟨h2, h1 | h1⟩ <;> simp [h1, h2]
  case b32Dec =>
    simp only [decB32, bind_eq_error] at h
    rcases h with h | ⟨r, -, h | ⟨_, -, h⟩⟩
    · have h2 := decSymbols32_error h
      have := length_stripCRLF_le t
      have := length_stripPads_le (stripCRLF t)
      have h3 : e.pos < t.length := by omega
      rcases h2.2 with h1 | h1 <;> simp [h1, h3]
    · rw [checkTail32_eq_error h]; simp
    · cases h
  case b16Dec =>
    simp only [decB16] at h
    split at h
    · cases h; simp
    · have h2 := decPairs16_error h
      have h3 : e.pos < t.length := by omega
      simp [h2.2, h3]
  case uulDec =>
    simp only [decUUL] at h
    split at h
    · cases h; simp
    · have h2 := decGroupsUU_error h
      have h3 : e.pos < t.length := by omega
      simp [h2.2.2, h3]
  case uucDec =>
    have h1 := decUUC_error_pos h
    rw [Nat.zero_add] at h1
    refine ⟨fun hk => ?_, fun hk _ => h1.1 hk, h1.2⟩
    rcases (decUUC_error h).2.2 with h2 | h2 <;> rw [h2] at hk <;> cases hk
  case uufDec =>
    simp only [decUUF, bind_eq_error] at h
    rcases h with h | ⟨⟨hh, s⟩, hb, h⟩
    · rw [findBody_eq_error h]; simp
    · have h1 := length_bodyOf hb
      have h2 := decLines_error_pos h
      simp only at h2
      refine ⟨fun hk => ?_, fun _ hn => absurd rfl hn, fun hk => ?_⟩
      · rcases (decLines_error h).2.2 with h3 | h3 <;> rw [h3] at hk <;> cases hk
      · have := h2 hk; omega

end Sys2Proof.Machine
end

