-- ==== Sys2Proof/Laws/Windows.lean ====
section
/-! SUPPORT. The symbols of the encodes place by place: which window of the input each one is (R132, R151, R171, R182). -/

namespace Sys2Proof.Machine

/-- Element `j` of a byte list as a number, 0 beyond its end (the zero extension of R64). -/
def natAt (b : Bytes) (j : Nat) : Nat := (b.getD j 0x00#8).toNat

theorem natAt_lt (b : Bytes) (j : Nat) : natAt b j < 256 := (b.getD j 0x00#8).isLt

theorem natAt_eq_zero {b : Bytes} {j : Nat} (h : b.length ≤ j) : natAt b j = 0 := by
  rw [natAt, List.getD_eq_default _ _ h]
  rfl

@[simp] theorem natAt_cons_zero (c : Byte) (b : Bytes) : natAt (c :: b) 0 = c.toNat := rfl
@[simp] theorem natAt_cons_succ (c : Byte) (b : Bytes) (j : Nat) : natAt (c :: b) (j + 1) = natAt b j := rfl

theorem natAt_drop (b : Bytes) (a j : Nat) : natAt (b.drop a) j = natAt b (a + j) := by
  simp [natAt, List.getD_eq_getElem?_getD]

/-- Window `k` of the 24-bit group that begins at element `a` (R63). -/
def sextetAt (b : Bytes) (a k : Nat) : Nat :=
  (natAt b a * 2 ^ 16 + natAt b (a + 1) * 2 ^ 8 + natAt b (a + 2)) / 2 ^ (18 - 6 * k) % 2 ^ 6

theorem sextetAt_lt (b : Bytes) (a k : Nat) : sextetAt b a k < 64 := Nat.mod_lt _ (by decide)

theorem sextetAt_drop (b : Bytes) (n a k : Nat) : sextetAt (b.drop n) a k = sextetAt b (n + a) k := by
  simp only [sextetAt, natAt_drop, Nat.add_assoc]

/-- The symbols of 6-bit windowing (R132, R182). -/
theorem getElem?_encSextets (sym : Nat → Byte) (fill : Byte) (b : Bytes) (q k : Nat) (hq : q < (b.length + 2) / 3)
    (hk : k < 4) :
    (encSextets sym fill b)[4 * q + k]? = some (if 3 * q + k ≤ b.length then sym (sextetAt b (3 * q) k) else fill) := by
  induction b using encSextets.induct generalizing q with
  | case1 b0 b1 b2 rest ih =>
    cases q with
    | zero =>
      have : k = 0 ∨ k = 1 ∨ k = 2 ∨ k = 3 := by omega
      rcases this with rfl | rfl | rfl | rfl <;>
        simp [encSextets, bits_eq, group24_eq, sextetAt, natAt]
    | succ q =>
      simp only [List.length_cons] at hq
      have h := ih q (by omega)
      rw [show 4 * (q + 1) + k = 4 * q + k + 1 + 1 + 1 + 1 by omega]
      simp only [encSextets, List.getElem?_cons_succ, h, List.length_cons]
      have e : sextetAt (b0 :: b1 :: b2 :: rest) (3 * (q + 1)) k = sextetAt rest (3 * q) k := by
        have := sextetAt_drop (b0 :: b1 :: b2 :: rest) 3 (3 * q) k
        rw [show 3 * (q + 1) = 3 + 3 * q by omega, ← this]
        rfl
      rw [e]
      by_cases hc : 3 * q + k ≤ rest.length
      · rw [if_pos hc, if_pos (by omega)]
      · rw [if_neg hc, if_neg (by omega)]
  | case2 b0 b1 =>
    simp only [List.length_cons, List.length_nil] at hq
    obtain rfl : q = 0 := by omega
    have : k = 0 ∨ k = 1 ∨ k = 2 ∨ k = 3 := by omega
    rcases this with rfl | rfl | rfl | rfl <;>
      simp [encSextets, bits_eq, group24_eq, sextetAt, natAt]
  | case3 b0 =>
    simp only [List.length_cons, List.length_nil] at hq
    obtain rfl : q = 0 := by omega
    have : k = 0 ∨ k = 1 ∨ k = 2 ∨ k = 3 := by omega
    rcases this with rfl | rfl | rfl | rfl <;>
      simp [encSextets, bits_eq, group24_eq, sextetAt, natAt]
  | case4 => simp at hq

/-- Every symbol of 6-bit windowing is the filler or the symbol of a 6-bit value. -/
theorem mem_encSextets {sym : Nat → Byte} {fill : Byte} {b : Bytes} {c : Byte} (h : c ∈ encSextets sym fill b) :
    c = fill ∨ ∃ v < 64, c = sym v := by
  obtain ⟨j, hj⟩ := List.mem_iff_getElem?.1 h
  have hl : j < 4 * ((b.length + 2) / 3) := by
    have := length_encSextets sym fill b
    rw [ceilDiv_eq] at this
    by_contra hn
    rw [List.getElem?_eq_none (by omega)] at hj
    cases hj
  have hg := getElem?_encSextets sym fill b (j / 4) (j % 4) (by omega) (Nat.mod_lt _ (by decide))
  rw [Nat.div_add_mod, hj, Option.some.injEq] at hg
  split at hg
  · exact .inr ⟨_, sextetAt_lt _ _ _, hg⟩
  · exact .inl hg

/-- Window `k` of the 40-bit group that begins at element `a` (R65, R151). -/
def quintetAt (b : Bytes) (a k : Nat) : Nat :=
  (natAt b a * 2 ^ 32 + natAt b (a + 1) * 2 ^ 24 + natAt b (a + 2) * 2 ^ 16 + natAt b (a + 3) * 2 ^ 8 + natAt b (a + 4))
    / 2 ^ (35 - 5 * k) % 2 ^ 5

theorem quintetAt_lt (b : Bytes) (a k : Nat) : quintetAt b a k < 32 := Nat.mod_lt _ (by decide)

theorem quintetAt_drop (b : Bytes) (n a k : Nat) : quintetAt (b.drop n) a k = quintetAt b (n + a) k := by
  simp only [quintetAt, natAt_drop, Nat.add_assoc]

/-- The 40-bit group as a sum (R65). -/
theorem group40_eq (g : Bytes) :
    group40 g = natAt g 0 * 2 ^ 32 + natAt g 1 * 2 ^ 24 + natAt g 2 * 2 ^ 16 + natAt g 3 * 2 ^ 8 + natAt g 4 := by
  have h : ∀ w j, w <<< 8 ||| (g.getD j 0x00#8).toNat = w * 2 ^ 8 + natAt g j := fun w j =>
    shift_or_eq _ _ 8 (g.getD j 0x00#8).isLt
  simp only [group40, h, List.range, List.range.loop, List.foldl]
  omega

theorem getElem?_encGroup32 (g : Bytes) (k : Nat) (hk : k < 8) :
    (encGroup32 g)[k]? = some (if k < 8 - pad32 g.length then symbol a32 (quintetAt g 0 k) else pad) := by
  have hp := pad32_le g.length
  unfold encGroup32
  by_cases h : k < 8 - pad32 g.length
  · rw [List.getElem?_append_left (by simpa using h), if_pos h, List.getElem?_map, List.getElem?_range h]
    simp only [Option.map_some, bits_eq, group40_eq, quintetAt, Nat.zero_add]
    rw [show 39 - 5 * k + 1 - (35 - 5 * k) = 5 by omega]
  · rw [List.getElem?_append_right (by simpa using h), if_neg h, List.getElem?_replicate_of_lt (by simp; omega)]

/-- The symbols of 5-bit windowing (R151, R152). -/
theorem getElem?_encB32 (b : Bytes) (q k : Nat) (hq : q < (b.length + 4) / 5) (hk : k < 8) :
    (encB32 b)[8 * q + k]? =
      some (if 5 * (8 * q + k) < 8 * b.length then symbol a32 (quintetAt b (5 * q) k) else pad) := by
  have last : ∀ g : Bytes, g.length < 6 → 0 < g.length → (encGroup32 g)[k]? =
      some (if 5 * k < 8 * g.length then symbol a32 (quintetAt g 0 k) else pad) := fun g h1 h2 => by
    rw [getElem?_encGroup32 g k hk]
    have : g.length = 1 ∨ g.length = 2 ∨ g.length = 3 ∨ g.length = 4 ∨ g.length = 5 := by omega
    have e : k < 8 - pad32 g.length ↔ 5 * k < 8 * g.length := by
      rcases this with h | h | h | h | h <;> simp only [h, pad32] <;> omega
    simp only [e]
  induction b using encB32.induct generalizing q with
  | case1 b0 b1 b2 b3 b4 rest ih =>
    cases q with
    | zero =>
      simp only [encB32]
      rw [List.getElem?_append_left (by rw [length_encGroup32]; omega), Nat.mul_zero, Nat.zero_add, last _ (by simp) (by simp)]
      have e : quintetAt [b0, b1, b2, b3, b4] 0 k = quintetAt (b0 :: b1 :: b2 :: b3 :: b4 :: rest) (5 * 0) k := rfl
      rw [e, if_pos (by simp; omega), if_pos (by simp; omega)]
    | succ q =>
      simp only [List.length_cons] at hq
      have h := ih q (by omega)
      simp only [encB32]
      rw [List.getElem?_append_right (by rw [length_encGroup32]; omega), length_encGroup32,
        show 8 * (q + 1) + k - 8 = 8 * q + k by omega, h]
      have e : quintetAt (b0 :: b1 :: b2 :: b3 :: b4 :: rest) (5 * (q + 1)) k = quintetAt rest (5 * q) k := by
        have := quintetAt_drop (b0 :: b1 :: b2 :: b3 :: b4 :: rest) 5 (5 * q) k
        rw [show 5 * (q + 1) = 5 + 5 * q by omega, ← this]
        rfl
      rw [e]
      simp only [List.length_cons]
      by_cases hc : 5 * (8 * q + k) < 8 * rest.length
      · rw [if_pos hc, if_pos (by omega)]
      · rw [if_neg hc, if_neg (by omega)]
  | case2 => simp at hq
  | case3 g h1 h2 =>
    have hl : 0 < g.length := List.length_pos_iff.2 h2
    have hl' : g.length < 5 := by
      match g, h1 with
      | [], _ => simp
      | [_], _ => simp
      | [_, _], _ => simp
      | [_, _, _], _ => simp
      | [_, _, _, _], _ => simp
      | b0 :: b1 :: b2 :: b3 :: b4 :: rest, h1 => exact absurd rfl (h1 b0 b1 b2 b3 b4 rest)
    obtain rfl : q = 0 := by omega
    rw [encB32]
    · simpa using last g (by omega) hl
    · exact h1
    · exact h2

/-- The digits of Base16 (R171). -/
theorem getElem?_encB16 (b : Bytes) (j k : Nat) (hj : j < b.length) (hk : k < 2) :
    (encB16 b)[2 * j + k]? = some (symbol a16 (if k = 0 then natAt b j / 16 else natAt b j % 16)) := by
  induction b generalizing j with
  | nil => simp at hj
  | cons c b ih =>
    cases j with
    | zero =>
      have : k = 0 ∨ k = 1 := by omega
      have hc := c.isLt
      rcases this with rfl | rfl
      · simp [encB16, encByte16, bits_eq, Nat.mod_eq_of_lt (show c.toNat / 16 < 16 by omega)]
      · simp [encB16, encByte16, bits_eq]
    | succ j =>
      have := ih j (by simpa using hj)
      rw [show 2 * (j + 1) + k = 2 * j + k + 1 + 1 by omega]
      simpa [encB16, encByte16] using this

end Sys2Proof.Machine
end

