-- ==== Sys2Proof/Laws/Quanta.lean ====
section
/-! SUPPORT. What the decodes make of a text, place by place: the bytes of good quanta (R136, R184, R174), the first bad
symbol of others (R246), and that a decode undoes its encode. -/

namespace Sys2Proof.Machine

/-- The value of the symbol at index `j`; 0 where there is none. -/
def symAt (inv : Byte → Option Nat) (t : Bytes) (j : Nat) : Nat := ((t[j]?).bind inv).getD 0

@[simp] theorem symAt_cons_zero (inv : Byte → Option Nat) (c : Byte) (t : Bytes) :
    symAt inv (c :: t) 0 = (inv c).getD 0 := rfl
@[simp] theorem symAt_cons_succ (inv : Byte → Option Nat) (c : Byte) (t : Bytes) (j : Nat) :
    symAt inv (c :: t) (j + 1) = symAt inv t j := rfl
@[simp] theorem symAt_nil (inv : Byte → Option Nat) (j : Nat) : symAt inv [] j = 0 := rfl

/-- Four symbols from index `a` on as a 24-bit integer (R136, R184). -/
def quantumAt (inv : Byte → Option Nat) (t : Bytes) (a : Nat) : Nat :=
  symAt inv t a * 2 ^ 18 + symAt inv t (a + 1) * 2 ^ 12 + symAt inv t (a + 2) * 2 ^ 6 + symAt inv t (a + 3)

/-- Byte `j` of the groups of four symbols. -/
def quantumByte (inv : Byte → Option Nat) (t : Bytes) (j : Nat) : Nat :=
  quantumAt inv t (4 * (j / 3)) / 2 ^ (16 - 8 * (j % 3)) % 2 ^ 8

theorem quantumByte_cons4 (inv : Byte → Option Nat) (c0 c1 c2 c3 : Byte) (t : Bytes) (j : Nat) :
    quantumByte inv (c0 :: c1 :: c2 :: c3 :: t) (j + 3) = quantumByte inv t j := by
  simp only [quantumByte, quantumAt, Nat.add_mod_right, Nat.add_div_right j (show 0 < 3 by decide)]
  rw [show 4 * (j / 3).succ = 4 * (j / 3) + 1 + 1 + 1 + 1 by omega]
  rfl

/-- The bytes `d` are the first bytes of the groups of `t`. -/
def AreQuantumBytes (inv : Byte → Option Nat) (t d : Bytes) : Prop :=
  ∀ j, j < d.length → (d[j]?).map BitVec.toNat = some (quantumByte inv t j)

theorem areQuantumBytes_nil (inv : Byte → Option Nat) (t : Bytes) : AreQuantumBytes inv t [] := fun j h => by simp at h

/-- The bytes of one group of values below 64. -/
theorem quantumBytes_head {inv : Byte → Option Nat} (hinv : ∀ c v, inv c = some v → v < 64) (c0 c1 c2 c3 : Byte)
    (rest : Bytes) {v0 v1 v2 v3 : Nat} (h0 : (inv c0).getD 0 = v0) (h1 : (inv c1).getD 0 = v1)
    (h2 : (inv c2).getD 0 = v2) (h3 : (inv c3).getD 0 = v3) :
    (byteAt (joinSextets v0 v1 v2 v3) 23 16).toNat = quantumByte inv (c0 :: c1 :: c2 :: c3 :: rest) 0 ∧
    (byteAt (joinSextets v0 v1 v2 v3) 15 8).toNat = quantumByte inv (c0 :: c1 :: c2 :: c3 :: rest) 1 ∧
    (byteAt (joinSextets v0 v1 v2 v3) 7 0).toNat = quantumByte inv (c0 :: c1 :: c2 :: c3 :: rest) 2 := by
  have lt : ∀ (c : Byte) (v : Nat), (inv c).getD 0 = v → v < 64 := fun c v h => by
    cases hc : inv c with
    | none => rw [hc] at h; simp at h; omega
    | some w => rw [hc] at h; have := hinv c w hc; simp at h; omega
  have l0 := lt _ _ h0
  have l1 := lt _ _ h1
  have l2 := lt _ _ h2
  have l3 := lt _ _ h3
  have e : quantumAt inv (c0 :: c1 :: c2 :: c3 :: rest) 0 = v0 * 2 ^ 18 + v1 * 2 ^ 12 + v2 * 2 ^ 6 + v3 := by
    simp [quantumAt, h0, h1, h2, h3]
  have r0 : quantumByte inv (c0 :: c1 :: c2 :: c3 :: rest) 0 =
      quantumAt inv (c0 :: c1 :: c2 :: c3 :: rest) 0 / 2 ^ 16 % 2 ^ 8 := rfl
  have r1 : quantumByte inv (c0 :: c1 :: c2 :: c3 :: rest) 1 =
      quantumAt inv (c0 :: c1 :: c2 :: c3 :: rest) 0 / 2 ^ 8 % 2 ^ 8 := rfl
  have r2 : quantumByte inv (c0 :: c1 :: c2 :: c3 :: rest) 2 =
      quantumAt inv (c0 :: c1 :: c2 :: c3 :: rest) 0 / 2 ^ 0 % 2 ^ 8 := rfl
  rw [e] at r0 r1 r2
  simp only [r0, r1, r2, byteAt_toNat _ 23 16 (by decide), byteAt_toNat _ 15 8 (by decide),
    byteAt_toNat _ 7 0 (by decide), bits_eq, joinSextets_eq l1 l2 l3]
  simp

/-- One more group of three bytes in front. -/
theorem AreQuantumBytes.cons3 {inv : Byte → Option Nat} {c0 c1 c2 c3 b0 b1 b2 : Byte} {t d : Bytes}
    (h : AreQuantumBytes inv t d) (h0 : b0.toNat = quantumByte inv (c0 :: c1 :: c2 :: c3 :: t) 0)
    (h1 : b1.toNat = quantumByte inv (c0 :: c1 :: c2 :: c3 :: t) 1)
    (h2 : b2.toNat = quantumByte inv (c0 :: c1 :: c2 :: c3 :: t) 2) :
    AreQuantumBytes inv (c0 :: c1 :: c2 :: c3 :: t) (b0 :: b1 :: b2 :: d) := by
  intro j hj
  match j with
  | 0 => simp [h0]
  | 1 => simp [h1]
  | 2 => simp [h2]
  | j + 3 =>
    rw [quantumByte_cons4]
    simpa using h j (by simpa using hj)

/-- A shorter run of the same bytes. -/
theorem AreQuantumBytes.take {inv : Byte → Option Nat} {t d : Bytes} (h : AreQuantumBytes inv t d) (n : Nat) :
    AreQuantumBytes inv t (d.take n) := by
  intro j hj
  simp only [List.length_take] at hj
  rw [List.getElem?_take_of_lt (by omega)]
  exact h j (by omega)

/-! ### uuencode groups -/

theorem decGroupUU_valid {pos : Nat} {c0 c1 c2 c3 : Byte} {v0 v1 v2 v3 : Nat} (e0 : uuVal c0 = some v0)
    (e1 : uuVal c1 = some v1) (e2 : uuVal c2 = some v2) (e3 : uuVal c3 = some v3) :
    decGroupUU pos c0 c1 c2 c3 = .ok [byteAt (joinSextets v0 v1 v2 v3) 23 16, byteAt (joinSextets v0 v1 v2 v3) 15 8,
      byteAt (joinSextets v0 v1 v2 v3) 7 0] := by
  simp [decGroupUU, symbolValue, e0, e1, e2, e3, bind, Except.bind]

/-- A line of whole groups of good symbols decodes to three bytes a group (R184). -/
theorem decGroupsUU_valid (pos : Nat) (t : Bytes) (hl : t.length % 4 = 0) (hv : ∀ c ∈ t, uuVal c ≠ none) :
    ∃ d, decGroupsUU pos t = .ok d ∧ d.length = 3 * (t.length / 4) ∧ AreQuantumBytes uuVal t d := by
  suffices ∃ d, decGroupsUU pos t = .ok d ∧ AreQuantumBytes uuVal t d by
    obtain ⟨d, h, h'⟩ := this
    exact ⟨d, h, decGroupsUU_length h, h'⟩
  induction pos, t using decGroupsUU.induct with
  | case1 pos c0 c1 c2 c3 rest ih =>
    obtain ⟨d, hd, hb⟩ := ih (by simp only [List.length_cons] at hl; omega)
      fun c hc => hv c (by simp [hc])
    obtain ⟨v0, e0⟩ := Option.ne_none_iff_exists'.1 (hv c0 (by simp))
    obtain ⟨v1, e1⟩ := Option.ne_none_iff_exists'.1 (hv c1 (by simp))
    obtain ⟨v2, e2⟩ := Option.ne_none_iff_exists'.1 (hv c2 (by simp))
    obtain ⟨v3, e3⟩ := Option.ne_none_iff_exists'.1 (hv c3 (by simp))
    obtain ⟨q0, q1, q2⟩ := quantumBytes_head uuVal_lt c0 c1 c2 c3 rest (v0 := v0) (v1 := v1) (v2 := v2) (v3 := v3)
      (by rw [e0]; rfl) (by rw [e1]; rfl) (by rw [e2]; rfl) (by rw [e3]; rfl)
    refine ⟨_, ?_, hb.cons3 q0 q1 q2⟩
    simp only [decGroupsUU, decGroupUU_valid e0 e1 e2 e3, hd, bind, Except.bind, List.cons_append, List.nil_append]
  | case2 t pos hne =>
    match t, hne, hl with
    | [], _, _ => exact ⟨[], rfl, areQuantumBytes_nil _ _⟩
    | [_], _, h => simp at h
    | [_, _], _, h => simp at h
    | [_, _, _], _, h => simp at h
    | c0 :: c1 :: c2 :: c3 :: rest, hne, _ => exact absurd rfl (hne c0 c1 c2 c3 rest)

/-- The first bad symbol of a line decides (R184, R246). -/
theorem decGroupsUU_bad (pos : Nat) (t : Bytes) (p : Nat) (hl : t.length % 4 = 0) (hp : p < t.length)
    (hg : ∀ j c, j < p → t[j]? = some c → uuVal c ≠ none) (hb : ∀ c, t[p]? = some c → uuVal c = none) :
    decGroupsUU pos t = .error { kind := .invalidAlphabetChar, pos := pos + p } := by
  induction pos, t using decGroupsUU.induct generalizing p with
  | case1 pos c0 c1 c2 c3 rest ih =>
    simp only [decGroupsUU, decGroupUU, bind_eq_error, bind_eq_ok, symbolValue_eq_ok, symbolValue_eq_error]
    match p, hp, hg, hb with
    | 0, _, _, hb => exact .inl (.inl ⟨hb c0 rfl, rfl⟩)
    | 1, _, hg, hb =>
      obtain ⟨v0, e0⟩ := Option.ne_none_iff_exists'.1 (hg 0 c0 (by omega) rfl)
      exact .inl (.inr ⟨v0, e0, .inl ⟨hb c1 rfl, rfl⟩⟩)
    | 2, _, hg, hb =>
      obtain ⟨v0, e0⟩ := Option.ne_none_iff_exists'.1 (hg 0 c0 (by omega) rfl)
      obtain ⟨v1, e1⟩ := Option.ne_none_iff_exists'.1 (hg 1 c1 (by omega) rfl)
      exact .inl (.inr ⟨v0, e0, .inr ⟨v1, e1, .inl ⟨hb c2 rfl, rfl⟩⟩⟩)
    | 3, _, hg, hb =>
      obtain ⟨v0, e0⟩ := Option.ne_none_iff_exists'.1 (hg 0 c0 (by omega) rfl)
      obtain ⟨v1, e1⟩ := Option.ne_none_iff_exists'.1 (hg 1 c1 (by omega) rfl)
      obtain ⟨v2, e2⟩ := Option.ne_none_iff_exists'.1 (hg 2 c2 (by omega) rfl)
      exact .inl (.inr ⟨v0, e0, .inr ⟨v1, e1, .inr ⟨v2, e2, .inl ⟨hb c3 rfl, rfl⟩⟩⟩⟩)
    | p + 4, hp, hg, hb =>
      obtain ⟨v0, e0⟩ := Option.ne_none_iff_exists'.1 (hg 0 c0 (by omega) rfl)
      obtain ⟨v1, e1⟩ := Option.ne_none_iff_exists'.1 (hg 1 c1 (by omega) rfl)
      obtain ⟨v2, e2⟩ := Option.ne_none_iff_exists'.1 (hg 2 c2 (by omega) rfl)
      obtain ⟨v3, e3⟩ := Option.ne_none_iff_exists'.1 (hg 3 c3 (by omega) rfl)
      simp only [List.length_cons] at hl hp
      have := ih p (by omega) (by omega) (fun j c hj h => hg (j + 4) c (by omega) h) (fun c h => hb c h)
      refine .inr ⟨_, ⟨v0, e0, v1, e1, v2, e2, v3, e3, rfl⟩, .inl ?_⟩
      rw [this, show pos + 4 + p = pos + (p + 4) by omega]
  | case2 t pos hne =>
    match t, hne, hl, hp with
    | [], _, _, h => simp at h
    | [_], _, h, _ => simp at h
    | [_, _], _, h, _ => simp at h
    | [_, _, _], _, h, _ => simp at h
    | c0 :: c1 :: c2 :: c3 :: rest, hne, _, _ => exact absurd rfl (hne c0 c1 c2 c3 rest)

/-- Decoding the groups of a line gives the data, zero-extended to whole groups (R185). -/
theorem decGroupsUU_encUUL (pos : Nat) (b : Bytes) :
    decGroupsUU pos (encUUL b) = .ok (b ++ List.replicate ((3 - b.length % 3) % 3) 0x00#8) := by
  have lt : ∀ w hi lo, hi + 1 - lo = 6 → bits w hi lo < 64 := fun w hi lo h => by
    have := bits_lt w hi lo
    rwa [h] at this
  unfold encUUL
  induction b using encSextets.induct generalizing pos with
  | case1 b0 b1 b2 rest ih =>
    have h0 := b0.isLt
    have h1 := b1.isLt
    have h2 := b2.isLt
    simp only [encSextets, decGroupsUU, decGroupUU, symbolValue, uuVal_uuChar _ (lt _ 23 18 rfl),
      uuVal_uuChar _ (lt _ 17 12 rfl), uuVal_uuChar _ (lt _ 11 6 rfl), uuVal_uuChar _ (lt _ 5 0 rfl), ih,
      bind, Except.bind, List.length_cons, List.cons_append, List.nil_append]
    have j := joinSextets_eq (v0 := bits (group24 b0 b1 b2) 23 18) (lt (group24 b0 b1 b2) 17 12 rfl)
      (lt (group24 b0 b1 b2) 11 6 rfl) (lt (group24 b0 b1 b2) 5 0 rfl)
    rw [byteAt_eq_of_bits _ 23 16 b0 (by rw [j]; simp only [bits_eq, group24_eq]; omega),
      byteAt_eq_of_bits _ 15 8 b1 (by rw [j]; simp only [bits_eq, group24_eq]; omega),
      byteAt_eq_of_bits _ 7 0 b2 (by rw [j]; simp only [bits_eq, group24_eq]; omega)]
    rw [show (rest.length + 1 + 1 + 1) % 3 = rest.length % 3 by omega]
  | case2 b0 b1 =>
    have h0 := b0.isLt
    have h1 := b1.isLt
    have e : uuVal backtick = some 0 := by decide
    simp only [encSextets, decGroupsUU, decGroupUU, symbolValue, uuVal_uuChar _ (lt _ 23 18 rfl),
      uuVal_uuChar _ (lt _ 17 12 rfl), uuVal_uuChar _ (lt _ 11 6 rfl), e, bind, Except.bind]
    have j := joinSextets_eq (v0 := bits (group24 b0 b1 0) 23 18) (lt (group24 b0 b1 0) 17 12 rfl)
      (lt (group24 b0 b1 0) 11 6 rfl) (show 0 < 64 by decide)
    rw [byteAt_eq_of_bits _ 23 16 b0 (by rw [j]; simp [bits_eq, group24_eq]; omega),
      byteAt_eq_of_bits _ 15 8 b1 (by rw [j]; simp [bits_eq, group24_eq]; omega),
      byteAt_eq_of_bits _ 7 0 0x00#8 (by rw [j]; simp [bits_eq, group24_eq]; omega)]
    rfl
  | case3 b0 =>
    have h0 := b0.isLt
    have e : uuVal backtick = some 0 := by decide
    simp only [encSextets, decGroupsUU, decGroupUU, symbolValue, uuVal_uuChar _ (lt _ 23 18 rfl),
      uuVal_uuChar _ (lt _ 17 12 rfl), e, bind, Except.bind]
    have j := joinSextets_eq (v0 := bits (group24 b0 0 0) 23 18) (lt (group24 b0 0 0) 17 12 rfl)
      (show 0 < 64 by decide) (show 0 < 64 by decide)
    rw [byteAt_eq_of_bits _ 23 16 b0 (by rw [j]; simp [bits_eq, group24_eq]; omega),
      byteAt_eq_of_bits _ 15 8 0x00#8 (by rw [j]; simp [bits_eq, group24_eq]; omega),
      byteAt_eq_of_bits _ 7 0 0x00#8 (by rw [j]; simp [bits_eq, group24_eq]; omega)]
    rfl
  | case4 => rfl

/-! ### Base64 quanta -/

/-- What one quantum of three or four symbols, or two, and pads decodes to (R136). -/
theorem decQuantum64_full {inv : Byte → Option Nat} (hp : inv pad = none) {last : Bool} {pos : Nat} {c0 c1 c2 c3 : Byte}
    {v0 v1 v2 v3 : Nat} (e0 : inv c0 = some v0) (e1 : inv c1 = some v1) (e2 : inv c2 = some v2) (e3 : inv c3 = some v3) :
    decQuantum64 inv last pos c0 c1 c2 c3 = .ok [byteAt (joinSextets v0 v1 v2 v3) 23 16,
      byteAt (joinSextets v0 v1 v2 v3) 15 8, byteAt (joinSextets v0 v1 v2 v3) 7 0] := by
  have ne : ∀ c v, inv c = some v → c ≠ pad := fun c v h hc => by rw [hc, hp] at h; cases h
  simp [decQuantum64, dataSymbol, symbolValue, e0, e1, e2, e3, ne _ _ e0, ne _ _ e1, ne _ _ e2, ne _ _ e3, bind, Except.bind]

theorem decQuantum64_onePad {inv : Byte → Option Nat} (hp : inv pad = none) {pos : Nat} {c0 c1 c2 : Byte}
    {v0 v1 v2 : Nat} (e0 : inv c0 = some v0) (e1 : inv c1 = some v1) (e2 : inv c2 = some v2) :
    decQuantum64 inv true pos c0 c1 c2 pad = .ok [byteAt (joinSextets v0 v1 v2 0) 23 16,
      byteAt (joinSextets v0 v1 v2 0) 15 8] := by
  have ne : ∀ c v, inv c = some v → c ≠ pad := fun c v h hc => by rw [hc, hp] at h; cases h
  simp [decQuantum64, dataSymbol, symbolValue, e0, e1, e2, ne _ _ e0, ne _ _ e1, ne _ _ e2, bind, Except.bind]

theorem decQuantum64_twoPads {inv : Byte → Option Nat} (hp : inv pad = none) {pos : Nat} {c0 c1 : Byte}
    {v0 v1 : Nat} (e0 : inv c0 = some v0) (e1 : inv c1 = some v1) :
    decQuantum64 inv true pos c0 c1 pad pad = .ok [byteAt (joinSextets v0 v1 0 0) 23 16] := by
  have ne : ∀ c v, inv c = some v → c ≠ pad := fun c v h hc => by rw [hc, hp] at h; cases h
  simp [decQuantum64, dataSymbol, symbolValue, e0, e1, ne _ _ e0, ne _ _ e1, bind, Except.bind]

/-- Symbols and at most two pads, together whole quanta, decode (R136). -/
theorem decQuanta64_valid {inv : Byte → Option Nat} (hp : inv pad = none) (hlt : ∀ c v, inv c = some v → v < 64)
    (pos : Nat) (syms : Bytes) (p : Nat) (hv : ∀ c ∈ syms, inv c ≠ none) (hl : (syms.length + p) % 4 = 0) (hp2 : p ≤ 2) :
    ∃ d, decQuanta64 inv pos (syms ++ List.replicate p pad) = .ok d ∧ d.length = 3 * ((syms.length + p) / 4) - p ∧
      AreQuantumBytes inv (syms ++ List.replicate p pad) d := by
  match syms with
  | [] =>
    obtain rfl : p = 0 := by simp at hl; omega
    exact ⟨[], rfl, rfl, areQuantumBytes_nil _ _⟩
  | [_] => simp at hl; omega
  | [c0, c1] =>
    obtain rfl : p = 2 := by simp at hl; omega
    obtain ⟨v0, e0⟩ := Option.ne_none_iff_exists'.1 (hv c0 (by simp))
    obtain ⟨v1, e1⟩ := Option.ne_none_iff_exists'.1 (hv c1 (by simp))
    obtain ⟨q0, -, -⟩ := quantumBytes_head hlt c0 c1 pad pad [] (v0 := v0) (v1 := v1) (v2 := 0) (v3 := 0)
      (by rw [e0]; rfl) (by rw [e1]; rfl) (by rw [hp]; rfl) (by rw [hp]; rfl)
    refine ⟨[byteAt (joinSextets v0 v1 0 0) 23 16], ?_, by simp, fun j hj => ?_⟩
    · show decQuanta64 inv pos [c0, c1, pad, pad] = _
      simp [decQuanta64, decQuantum64_twoPads hp e0 e1, bind, Except.bind]
    · obtain rfl : j = 0 := by simpa using hj
      simp [q0, List.replicate]
  | [c0, c1, c2] =>
    obtain rfl : p = 1 := by simp at hl; omega
    obtain ⟨v0, e0⟩ := Option.ne_none_iff_exists'.1 (hv c0 (by simp))
    obtain ⟨v1, e1⟩ := Option.ne_none_iff_exists'.1 (hv c1 (by simp))
    obtain ⟨v2, e2⟩ := Option.ne_none_iff_exists'.1 (hv c2 (by simp))
    obtain ⟨q0, q1, -⟩ := quantumBytes_head hlt c0 c1 c2 pad [] (v0 := v0) (v1 := v1) (v2 := v2) (v3 := 0)
      (by rw [e0]; rfl) (by rw [e1]; rfl) (by rw [e2]; rfl) (by rw [hp]; rfl)
    refine ⟨[byteAt (joinSextets v0 v1 v2 0) 23 16, byteAt (joinSextets v0 v1 v2 0) 15 8], ?_, by simp, fun j hj => ?_⟩
    · show decQuanta64 inv pos [c0, c1, c2, pad] = _
      simp [decQuanta64, decQuantum64_onePad hp e0 e1 e2, bind, Except.bind]
    · have : j = 0 ∨ j = 1 := by simp at hj; omega
      rcases this with rfl | rfl
      · simp [q0, List.replicate]
      · simp [q1, List.replicate]
  | c0 :: c1 :: c2 :: c3 :: rest =>
    obtain ⟨d, hd, hdl, hb⟩ := decQuanta64_valid hp hlt (pos + 4) rest p (fun c hc => hv c (by simp [hc]))
      (by simp only [List.length_cons] at hl; omega) hp2
    obtain ⟨v0, e0⟩ := Option.ne_none_iff_exists'.1 (hv c0 (by simp))
    obtain ⟨v1, e1⟩ := Option.ne_none_iff_exists'.1 (hv c1 (by simp))
    obtain ⟨v2, e2⟩ := Option.ne_none_iff_exists'.1 (hv c2 (by simp))
    obtain ⟨v3, e3⟩ := Option.ne_none_iff_exists'.1 (hv c3 (by simp))
    obtain ⟨q0, q1, q2⟩ := quantumBytes_head hlt c0 c1 c2 c3 (rest ++ List.replicate p pad) (v0 := v0) (v1 := v1)
      (v2 := v2) (v3 := v3) (by rw [e0]; rfl) (by rw [e1]; rfl) (by rw [e2]; rfl) (by rw [e3]; rfl)
    refine ⟨_, ?_, ?_, hb.cons3 q0 q1 q2⟩
    · simp only [List.cons_append, decQuanta64, decQuantum64_full hp e0 e1 e2 e3, hd, bind, Except.bind, List.nil_append]
    · simp only [List.length_cons, hdl] at hl ⊢
      omega

/-- The first byte that is no symbol decides (R136, R246): no pad, or a pad where none may stand. -/
theorem decQuanta64_bad {inv : Byte → Option Nat} (hp : inv pad = none) (pos : Nat) (t : Bytes) (p : Nat) (c : Byte)
    (hl : t.length % 4 = 0) (hc : t[p]? = some c) (hn : inv c = none)
    (hg : ∀ j x, j < p → t[j]? = some x → inv x ≠ none) :
    (c ≠ pad → decQuanta64 inv pos t = .error { kind := .invalidAlphabetChar, pos := pos + p }) ∧
    (c = pad → p % 4 < 2 ∨ p / 4 + 1 < t.length / 4 ∨ (p % 4 = 2 ∧ t[p + 1]? ≠ some pad) →
      decQuanta64 inv pos t = .error { kind := .invalidPadding, pos := pos + p }) := by
  have ne : ∀ c v, inv c = some v → c ≠ pad := fun c v h hc => by rw [hc, hp] at h; cases h
  induction pos, t using decQuanta64.induct generalizing p with
  | case1 pos c0 c1 c2 c3 rest ih =>
    match p, hc, hg with
    | 0, hc, _ =>
      simp only [List.getElem?_cons_zero, Option.some.injEq] at hc
      subst hc
      constructor
      · intro h
        simp [decQuanta64, decQuantum64, dataSymbol, symbolValue, h, hn, bind, Except.bind]
      · rintro rfl -
        simp [decQuanta64, decQuantum64, dataSymbol, bind, Except.bind]
    | 1, hc, hg =>
      simp only [List.getElem?_cons_succ, List.getElem?_cons_zero, Option.some.injEq] at hc
      subst hc
      obtain ⟨v0, e0⟩ := Option.ne_none_iff_exists'.1 (hg 0 c0 (by omega) rfl)
      constructor
      · intro h
        simp [decQuanta64, decQuantum64, dataSymbol, symbolValue, h, hn, e0, ne _ _ e0, bind, Except.bind]
      · rintro rfl -
        simp [decQuanta64, decQuantum64, dataSymbol, symbolValue, e0, ne _ _ e0, bind, Except.bind]
    | 2, hc, hg =>
      simp only [List.getElem?_cons_succ, List.getElem?_cons_zero, Option.some.injEq] at hc
      subst hc
      obtain ⟨v0, e0⟩ := Option.ne_none_iff_exists'.1 (hg 0 c0 (by omega) rfl)
      obtain ⟨v1, e1⟩ := Option.ne_none_iff_exists'.1 (hg 1 c1 (by omega) rfl)
      constructor
      · intro h
        simp [decQuanta64, decQuantum64, dataSymbol, symbolValue, h, hn, e0, ne _ _ e0, e1, ne _ _ e1, bind, Except.bind]
      · rintro rfl h
        have h' : ¬rest = [] ∨ ¬c3 = pad := by
          rcases h with h | h | ⟨-, h⟩
          · omega
          · left
            cases rest with
            | nil => simp at h
            | cons => simp
          · right
            simpa using h
        simp [decQuanta64, decQuantum64, dataSymbol, symbolValue, e0, ne _ _ e0, e1, ne _ _ e1, h', bind, Except.bind]
    | 3, hc, hg =>
      simp only [List.getElem?_cons_succ, List.getElem?_cons_zero, Option.some.injEq] at hc
      subst hc
      obtain ⟨v0, e0⟩ := Option.ne_none_iff_exists'.1 (hg 0 c0 (by omega) rfl)
      obtain ⟨v1, e1⟩ := Option.ne_none_iff_exists'.1 (hg 1 c1 (by omega) rfl)
      obtain ⟨v2, e2⟩ := Option.ne_none_iff_exists'.1 (hg 2 c2 (by omega) rfl)
      constructor
      · intro h
        simp [decQuanta64, decQuantum64, dataSymbol, symbolValue, h, hn, e0, ne _ _ e0, e1, ne _ _ e1, e2, ne _ _ e2,
          bind, Except.bind]
      · rintro rfl h
        have h' : ¬rest = [] := by
          cases rest with
          | nil => simp at h
          | cons => simp
        simp [decQuanta64, decQuantum64, dataSymbol, symbolValue, e0, ne _ _ e0, e1, ne _ _ e1, e2, ne _ _ e2, h',
          bind, Except.bind]
    | p + 4, hc, hg =>
      obtain ⟨v0, e0⟩ := Option.ne_none_iff_exists'.1 (hg 0 c0 (by omega) rfl)
      obtain ⟨v1, e1⟩ := Option.ne_none_iff_exists'.1 (hg 1 c1 (by omega) rfl)
      obtain ⟨v2, e2⟩ := Option.ne_none_iff_exists'.1 (hg 2 c2 (by omega) rfl)
      obtain ⟨v3, e3⟩ := Option.ne_none_iff_exists'.1 (hg 3 c3 (by omega) rfl)
      simp only [List.length_cons] at hl
      obtain ⟨i1, i2⟩ := ih p (by omega) hc (fun j x hj h => hg (j + 4) x (by omega) h)
      constructor
      · intro h
        simp only [decQuanta64, decQuantum64_full hp e0 e1 e2 e3, i1 h, bind, Except.bind]
        rw [show pos + 4 + p = pos + (p + 4) by omega]
      · intro h h'
        have := i2 h (by
          rcases h' with h' | h' | h'
          · exact .inl (by omega)
          · exact .inr (.inl (by simp only [List.length_cons] at h'; omega))
          · exact .inr (.inr ⟨by omega, h'.2⟩))
        simp only [decQuanta64, decQuantum64_full hp e0 e1 e2 e3, this, bind, Except.bind]
        rw [show pos + 4 + p = pos + (p + 4) by omega]
  | case2 t pos hne =>
    match t, hne, hl, hc with
    | [], _, _, h => simp at h
    | [_], _, h, _ => simp at h
    | [_, _], _, h, _ => simp at h
    | [_, _, _], _, h, _ => simp at h
    | c0 :: c1 :: c2 :: c3 :: rest, hne, _, _ => exact absurd rfl (hne c0 c1 c2 c3 rest)

/-- Decoding the quanta of an encode gives the data (R139). -/
theorem decQuanta64_encSextets {inv : Byte → Option Nat} {sym : Nat → Byte} (hp : inv pad = none)
    (hs : ∀ v < 64, inv (sym v) = some v) (pos : Nat) (b : Bytes) :
    decQuanta64 inv pos (encSextets sym pad b) = .ok b := by
  have lt : ∀ w hi lo, hi + 1 - lo = 6 → bits w hi lo < 64 := fun w hi lo h => by
    have := bits_lt w hi lo
    rwa [h] at this
  induction b using encSextets.induct generalizing pos with
  | case1 b0 b1 b2 rest ih =>
    have h0 := b0.isLt
    have h1 := b1.isLt
    have h2 := b2.isLt
    have j := joinSextets_eq (v0 := bits (group24 b0 b1 b2) 23 18) (lt (group24 b0 b1 b2) 17 12 rfl)
      (lt (group24 b0 b1 b2) 11 6 rfl) (lt (group24 b0 b1 b2) 5 0 rfl)
    simp only [encSextets, decQuanta64, ih, bind, Except.bind, decQuantum64_full hp (hs _ (lt _ 23 18 rfl))
      (hs _ (lt _ 17 12 rfl)) (hs _ (lt _ 11 6 rfl)) (hs _ (lt _ 5 0 rfl))]
    rw [byteAt_eq_of_bits _ 23 16 b0 (by rw [j]; simp only [bits_eq, group24_eq]; omega),
      byteAt_eq_of_bits _ 15 8 b1 (by rw [j]; simp only [bits_eq, group24_eq]; omega),
      byteAt_eq_of_bits _ 7 0 b2 (by rw [j]; simp only [bits_eq, group24_eq]; omega)]
    rfl
  | case2 b0 b1 =>
    have h0 := b0.isLt
    have h1 := b1.isLt
    have j := joinSextets_eq (v0 := bits (group24 b0 b1 0) 23 18) (lt (group24 b0 b1 0) 17 12 rfl)
      (lt (group24 b0 b1 0) 11 6 rfl) (show 0 < 64 by decide)
    simp only [encSextets, decQuanta64, bind, Except.bind, List.isEmpty_nil, decQuantum64_onePad hp (hs _ (lt _ 23 18 rfl))
      (hs _ (lt _ 17 12 rfl)) (hs _ (lt _ 11 6 rfl))]
    rw [byteAt_eq_of_bits _ 23 16 b0 (by rw [j]; simp [bits_eq, group24_eq]; omega),
      byteAt_eq_of_bits _ 15 8 b1 (by rw [j]; simp [bits_eq, group24_eq]; omega)]
    rfl
  | case3 b0 =>
    have h0 := b0.isLt
    have j := joinSextets_eq (v0 := bits (group24 b0 0 0) 23 18) (lt (group24 b0 0 0) 17 12 rfl)
      (show 0 < 64 by decide) (show 0 < 64 by decide)
    simp only [encSextets, decQuanta64, bind, Except.bind, List.isEmpty_nil, decQuantum64_twoPads hp (hs _ (lt _ 23 18 rfl))
      (hs _ (lt _ 17 12 rfl))]
    rw [byteAt_eq_of_bits _ 23 16 b0 (by rw [j]; simp [bits_eq, group24_eq]; omega)]
    rfl
  | case4 => rfl

end Sys2Proof.Machine
end

