-- ==== Sys2Proof/Laws/Base3216.lean ====
section
/-! SUPPORT. What the decodes of Base32 and Base16 make of a text, place by place (R154 to R157, R173, R174), and that
they undo the encodes (R158, R175). -/

namespace Sys2Proof.Machine

/-! ### Base32 -/

/-- A symbol that makes no byte whole. -/
theorem decSymbols32_step_lt {i acc n v : Nat} {c : Byte} {cs : Bytes} (h : inv32 c = some v) (hn : n < 3) :
    decSymbols32 i acc n (c :: cs) = decSymbols32 (i + 1) (acc * 32 + v) (n + 5) cs := by
  have hv := inv32_lt _ _ h
  have hc : c ≠ pad := fun hc => by rw [hc, inv32_pad] at h; cases h
  have e : acc <<< 5 ||| v = acc * 32 + v := shift_or_eq acc v 5 hv
  simp only [decSymbols32, decSymbol32, dataSymbol, symbolValue, h, if_neg hc, bind, Except.bind, e,
    if_neg (show ¬ 8 ≤ n + 5 by omega), List.nil_append]
  cases decSymbols32 (i + 1) (acc * 32 + v) (n + 5) cs <;> rfl

/-- A symbol that makes a byte whole. -/
theorem decSymbols32_step_ge {i acc n v : Nat} {c : Byte} {cs : Bytes} (h : inv32 c = some v) (hn : 3 ≤ n) :
    decSymbols32 i acc n (c :: cs) =
      (decSymbols32 (i + 1) ((acc * 32 + v) % 2 ^ (n - 3)) (n - 3) cs).map
        (BitVec.ofNat 8 ((acc * 32 + v) / 2 ^ (n - 3)) :: ·) := by
  have hv := inv32_lt _ _ h
  have hc : c ≠ pad := fun hc => by rw [hc, inv32_pad] at h; cases h
  have e : acc <<< 5 ||| v = acc * 32 + v := shift_or_eq acc v 5 hv
  have e2 : ∀ x : Nat, x &&& 1 <<< (n - 3) - 1 = x % 2 ^ (n - 3) := fun x => by
    rw [Nat.one_shiftLeft, Nat.and_two_pow_sub_one_eq_mod]
  have e3 : ∀ x : Nat, BitVec.ofNat 8 (x >>> (n - 3) &&& 0xFF) = BitVec.ofNat 8 (x / 2 ^ (n - 3)) := fun x => by
    rw [Nat.shiftRight_eq_div_pow, show 0xFF = 2 ^ 8 - 1 by rfl, Nat.and_two_pow_sub_one_eq_mod]
    exact BitVec.eq_of_toNat_eq (by simp)
  simp only [decSymbols32, decSymbol32, dataSymbol, symbolValue, h, if_neg hc, bind, Except.bind, e,
    if_pos (show 8 ≤ n + 5 by omega), show n + 5 - 8 = n - 3 by omega, e2, e3]
  cases decSymbols32 (i + 1) ((acc * 32 + v) % 2 ^ (n - 3)) (n - 3) cs <;> rfl

/-- Eight symbols from index `a` on as a 40-bit integer. -/
def quantum32At (t : Bytes) (a : Nat) : Nat :=
  symAt inv32 t a * 2 ^ 35 + symAt inv32 t (a + 1) * 2 ^ 30 + symAt inv32 t (a + 2) * 2 ^ 25 +
    symAt inv32 t (a + 3) * 2 ^ 20 + symAt inv32 t (a + 4) * 2 ^ 15 + symAt inv32 t (a + 5) * 2 ^ 10 +
    symAt inv32 t (a + 6) * 2 ^ 5 + symAt inv32 t (a + 7)

/-- Byte `j` of the groups of eight symbols. -/
def quantum32Byte (t : Bytes) (j : Nat) : Nat := quantum32At t (8 * (j / 5)) / 2 ^ (32 - 8 * (j % 5)) % 2 ^ 8

theorem quantum32Byte_cons8 (c0 c1 c2 c3 c4 c5 c6 c7 : Byte) (t : Bytes) (j : Nat) :
    quantum32Byte (c0 :: c1 :: c2 :: c3 :: c4 :: c5 :: c6 :: c7 :: t) (j + 5) = quantum32Byte t j := by
  simp only [quantum32Byte, quantum32At, Nat.add_mod_right, Nat.add_div_right j (show 0 < 5 by decide)]
  rw [show 8 * (j / 5).succ = 8 * (j / 5) + 1 + 1 + 1 + 1 + 1 + 1 + 1 + 1 by omega]
  rfl

/-- The bytes `d` are the first bytes of the groups of `t`. -/
def AreQuantum32Bytes (t d : Bytes) : Prop := ∀ j, j < d.length → (d[j]?).map BitVec.toNat = some (quantum32Byte t j)

theorem quantum32Byte_head (t : Bytes) :
    quantum32Byte t 0 = quantum32At t 0 / 2 ^ 32 % 2 ^ 8 ∧ quantum32Byte t 1 = quantum32At t 0 / 2 ^ 24 % 2 ^ 8 ∧
    quantum32Byte t 2 = quantum32At t 0 / 2 ^ 16 % 2 ^ 8 ∧ quantum32Byte t 3 = quantum32At t 0 / 2 ^ 8 % 2 ^ 8 ∧
    quantum32Byte t 4 = quantum32At t 0 / 2 ^ 0 % 2 ^ 8 := ⟨rfl, rfl, rfl, rfl, rfl⟩

/-- Eight good symbols give five bytes and leave nothing over (R154). -/
theorem decSymbols32_eight (i : Nat) {c0 c1 c2 c3 c4 c5 c6 c7 : Byte} (rest : Bytes)
    (hv : ∀ c ∈ [c0, c1, c2, c3, c4, c5, c6, c7], inv32 c ≠ none) :
    ∃ b0 b1 b2 b3 b4 : Byte, decSymbols32 i 0 0 (c0 :: c1 :: c2 :: c3 :: c4 :: c5 :: c6 :: c7 :: rest) =
        (decSymbols32 (i + 8) 0 0 rest).map (fun r => b0 :: b1 :: b2 :: b3 :: b4 :: r) ∧
      b0.toNat = quantum32Byte (c0 :: c1 :: c2 :: c3 :: c4 :: c5 :: c6 :: c7 :: rest) 0 ∧
      b1.toNat = quantum32Byte (c0 :: c1 :: c2 :: c3 :: c4 :: c5 :: c6 :: c7 :: rest) 1 ∧
      b2.toNat = quantum32Byte (c0 :: c1 :: c2 :: c3 :: c4 :: c5 :: c6 :: c7 :: rest) 2 ∧
      b3.toNat = quantum32Byte (c0 :: c1 :: c2 :: c3 :: c4 :: c5 :: c6 :: c7 :: rest) 3 ∧
      b4.toNat = quantum32Byte (c0 :: c1 :: c2 :: c3 :: c4 :: c5 :: c6 :: c7 :: rest) 4 := by
  obtain ⟨v0, e0⟩ := Option.ne_none_iff_exists'.1 (hv c0 (by simp))
  obtain ⟨v1, e1⟩ := Option.ne_none_iff_exists'.1 (hv c1 (by simp))
  obtain ⟨v2, e2⟩ := Option.ne_none_iff_exists'.1 (hv c2 (by simp))
  obtain ⟨v3, e3⟩ := Option.ne_none_iff_exists'.1 (hv c3 (by simp))
  obtain ⟨v4, e4⟩ := Option.ne_none_iff_exists'.1 (hv c4 (by simp))
  obtain ⟨v5, e5⟩ := Option.ne_none_iff_exists'.1 (hv c5 (by simp))
  obtain ⟨v6, e6⟩ := Option.ne_none_iff_exists'.1 (hv c6 (by simp))
  obtain ⟨v7, e7⟩ := Option.ne_none_iff_exists'.1 (hv c7 (by simp))
  have l1 := inv32_lt _ _ e1
  have l2 := inv32_lt _ _ e2
  have l3 := inv32_lt _ _ e3
  have l4 := inv32_lt _ _ e4
  have l5 := inv32_lt _ _ e5
  have l6 := inv32_lt _ _ e6
  have l7 := inv32_lt _ _ e7
  have hq : quantum32At (c0 :: c1 :: c2 :: c3 :: c4 :: c5 :: c6 :: c7 :: rest) 0 =
      v0 * 2 ^ 35 + v1 * 2 ^ 30 + v2 * 2 ^ 25 + v3 * 2 ^ 20 + v4 * 2 ^ 15 + v5 * 2 ^ 10 + v6 * 2 ^ 5 + v7 := by
    simp [quantum32At, e0, e1, e2, e3, e4, e5, e6, e7]
  obtain ⟨q0, q1, q2, q3, q4⟩ := quantum32Byte_head (c0 :: c1 :: c2 :: c3 :: c4 :: c5 :: c6 :: c7 :: rest)
  rw [q0, q1, q2, q3, q4, hq]
  refine ⟨.ofNat 8 ((v0 * 32 + v1) / 4), .ofNat 8 (((v1 % 4 * 32 + v2) * 32 + v3) / 16), .ofNat 8 ((v3 % 16 * 32 + v4) / 2),
    .ofNat 8 (((v4 % 2 * 32 + v5) * 32 + v6) / 8), .ofNat 8 (v6 % 8 * 32 + v7), ?_, ?_⟩
  · rw [decSymbols32_step_lt e0 (by omega), decSymbols32_step_ge e1 (by omega), decSymbols32_step_lt e2 (by omega),
      decSymbols32_step_ge e3 (by omega), decSymbols32_step_ge e4 (by omega), decSymbols32_step_lt e5 (by omega),
      decSymbols32_step_ge e6 (by omega), decSymbols32_step_ge e7 (by omega)]
    simp only [Nat.reduceAdd, Nat.reduceSub, Nat.reducePow, Nat.mod_one, Nat.add_assoc]
    cases decSymbols32 (i + 8) 0 0 rest with
    | error e => rfl
    | ok r =>
      simp only [Except.map, Except.ok.injEq, List.cons.injEq, and_true]
      refine ⟨?_, ?_, ?_, ?_, ?_⟩ <;>
        exact BitVec.eq_of_toNat_eq (by simp only [BitVec.toNat_ofNat, Nat.reducePow]; omega)
  · simp only [BitVec.toNat_ofNat, Nat.reducePow]
    omega

/-- What is read first does not depend on what follows. -/
theorem decSymbols32_prefix {i acc n : Nat} {s t d' : Bytes} (h : decSymbols32 i acc n (s ++ t) = .ok d') :
    ∃ d, decSymbols32 i acc n s = .ok d ∧ d <+: d' := by
  induction s generalizing i acc n d' with
  | nil => exact ⟨[], rfl, List.nil_prefix⟩
  | cons c s ih =>
    simp only [List.cons_append, decSymbols32, bind_eq_ok] at h ⊢
    obtain ⟨a, ha, r, hr, h⟩ := h
    cases h
    obtain ⟨d, hd, hp⟩ := ih hr
    exact ⟨_, ⟨a, ha, d, hd, rfl⟩, (List.prefix_append_right_inj _).2 hp⟩

/-- Symbols of value 0 behind a text do not change its groups. -/
theorem symAt_append_zero (s : Bytes) (n j : Nat) : symAt inv32 (s ++ List.replicate n 0x41#8) j = symAt inv32 s j := by
  by_cases h : j < s.length
  · rw [symAt, symAt, List.getElem?_append_left h]
  · rw [symAt, symAt, List.getElem?_append_right (by omega), List.getElem?_eq_none (l := s) (by omega),
      List.getElem?_replicate]
    split
    · decide
    · rfl

/-- Good symbols decode to `floor(5k/8)` bytes (R154, R157). -/
theorem decSymbols32_valid (i : Nat) (t : Bytes) (hv : ∀ c ∈ t, inv32 c ≠ none) :
    ∃ d, decSymbols32 i 0 0 t = .ok d ∧ d.length = 5 * t.length / 8 ∧ AreQuantum32Bytes t d := by
  suffices ∃ d, decSymbols32 i 0 0 t = .ok d ∧ AreQuantum32Bytes t d by
    obtain ⟨d, h, h'⟩ := this
    exact ⟨d, h, by simpa using decSymbols32_length h (by decide), h'⟩
  by_cases hl : t.length < 8
  · have hu : (t ++ List.replicate (8 - t.length) 0x41#8).length = 8 := by simp; omega
    have hvu : ∀ c ∈ t ++ List.replicate (8 - t.length) 0x41#8, inv32 c ≠ none := fun c hc => by
      rcases List.mem_append.1 hc with hc | hc
      · exact hv c hc
      · rw [List.eq_of_mem_replicate hc]; decide
    obtain ⟨u, hu'⟩ : ∃ u, u = t ++ List.replicate (8 - t.length) 0x41#8 := ⟨_, rfl⟩
    rw [← hu'] at hu hvu
    match u, hu, hvu, hu' with
    | [c0, c1, c2, c3, c4, c5, c6, c7], _, hvu, hu' =>
      obtain ⟨b0, b1, b2, b3, b4, h, q0, q1, q2, q3, q4⟩ := decSymbols32_eight i [] hvu
      have hq : ∀ j, quantum32Byte [c0, c1, c2, c3, c4, c5, c6, c7] j = quantum32Byte t j := fun j => by
        simp only [quantum32Byte, quantum32At, hu', symAt_append_zero]
      rw [hq] at q0 q1 q2 q3 q4
      rw [hu', show decSymbols32 (i + 8) 0 0 [] = .ok [] from rfl] at h
      obtain ⟨d, hd, r, hr⟩ := decSymbols32_prefix h
      refine ⟨d, hd, fun j hj => ?_⟩
      have e := congrArg (·[j]?) hr
      simp only [List.getElem?_append_left hj] at e
      rw [e]
      have : j < 5 := by have := congrArg List.length hr; simp at this; omega
      match j, this with
      | 0, _ => simp [q0]
      | 1, _ => simp [q1]
      | 2, _ => simp [q2]
      | 3, _ => simp [q3]
      | 4, _ => simp [q4]
  · match t, hl, hv with
    | [], hl, _ => simp at hl
    | [_], hl, _ => simp at hl
    | [_, _], hl, _ => simp at hl
    | [_, _, _], hl, _ => simp at hl
    | [_, _, _, _], hl, _ => simp at hl
    | [_, _, _, _, _], hl, _ => simp at hl
    | [_, _, _, _, _, _], hl, _ => simp at hl
    | [_, _, _, _, _, _, _], hl, _ => simp at hl
    | c0 :: c1 :: c2 :: c3 :: c4 :: c5 :: c6 :: c7 :: rest, _, hv =>
      obtain ⟨d, hd, -, hb⟩ := decSymbols32_valid (i + 8) rest fun c hc => hv c (by simp [hc])
      obtain ⟨b0, b1, b2, b3, b4, h, q0, q1, q2, q3, q4⟩ := decSymbols32_eight i (c0 := c0) (c1 := c1) (c2 := c2) (c3 := c3)
        (c4 := c4) (c5 := c5) (c6 := c6) (c7 := c7) rest fun c hc => hv c (by simp at hc ⊢; tauto)
      refine ⟨_, by rw [h, hd]; rfl, fun j hj => ?_⟩
      match j with
      | 0 => simp [q0]
      | 1 => simp [q1]
      | 2 => simp [q2]
      | 3 => simp [q3]
      | 4 => simp [q4]
      | j + 5 =>
        rw [quantum32Byte_cons8]
        simpa using hb j (by simpa using hj)

/-- The first byte that is no symbol decides (R154, R156). -/
theorem decSymbols32_bad (i acc n : Nat) (t : Bytes) (p : Nat) (c : Byte) (hc : t[p]? = some c) (hn : inv32 c = none)
    (hg : ∀ j x, j < p → t[j]? = some x → inv32 x ≠ none) :
    decSymbols32 i acc n t =
      .error { kind := if c = pad then .invalidPadding else .invalidAlphabetChar, pos := i + p } := by
  induction t generalizing i acc n p with
  | nil => simp at hc
  | cons x t ih =>
    cases p with
    | zero =>
      simp only [List.getElem?_cons_zero, Option.some.injEq] at hc
      subst hc
      by_cases hp : x = pad
      · simp [decSymbols32, decSymbol32, dataSymbol, hp, bind, Except.bind]
      · simp [decSymbols32, decSymbol32, dataSymbol, symbolValue, hp, hn, bind, Except.bind]
    | succ p =>
      obtain ⟨v, e⟩ := Option.ne_none_iff_exists'.1 (hg 0 x (by omega) rfl)
      have ih' := fun i acc n => ih i acc n p hc (fun j y hj h => hg (j + 1) y (by omega) h)
      by_cases h3 : n < 3
      · rw [decSymbols32_step_lt e h3, ih', show i + 1 + p = i + (p + 1) by omega]
      · rw [decSymbols32_step_ge e (by omega), ih', show i + 1 + p = i + (p + 1) by omega]
        rfl

theorem inv32_symbol_ne_none {v : Nat} (h : v < 32) : inv32 (symbol a32 v) ≠ none := by rw [inv32_symbol v h]; simp

/-- The eight windows of a 40-bit integer, joined again. -/
theorem join_quintets (x : Nat) (h : x < 2 ^ 40) :
    x / 2 ^ 35 % 2 ^ 5 * 2 ^ 35 + x / 2 ^ 30 % 2 ^ 5 * 2 ^ 30 + x / 2 ^ 25 % 2 ^ 5 * 2 ^ 25 + x / 2 ^ 20 % 2 ^ 5 * 2 ^ 20 +
      x / 2 ^ 15 % 2 ^ 5 * 2 ^ 15 + x / 2 ^ 10 % 2 ^ 5 * 2 ^ 10 + x / 2 ^ 5 % 2 ^ 5 * 2 ^ 5 + x / 2 ^ 0 % 2 ^ 5 = x := by
  omega

/-- The bytes of a 40-bit integer (R65). -/
theorem bytes_of_group (n0 n1 n2 n3 n4 : Nat) (h0 : n0 < 256) (h1 : n1 < 256) (h2 : n2 < 256) (h3 : n3 < 256)
    (h4 : n4 < 256) :
    (n0 * 2 ^ 32 + n1 * 2 ^ 24 + n2 * 2 ^ 16 + n3 * 2 ^ 8 + n4) / 2 ^ 32 % 2 ^ 8 = n0 ∧
    (n0 * 2 ^ 32 + n1 * 2 ^ 24 + n2 * 2 ^ 16 + n3 * 2 ^ 8 + n4) / 2 ^ 24 % 2 ^ 8 = n1 ∧
    (n0 * 2 ^ 32 + n1 * 2 ^ 24 + n2 * 2 ^ 16 + n3 * 2 ^ 8 + n4) / 2 ^ 16 % 2 ^ 8 = n2 ∧
    (n0 * 2 ^ 32 + n1 * 2 ^ 24 + n2 * 2 ^ 16 + n3 * 2 ^ 8 + n4) / 2 ^ 8 % 2 ^ 8 = n3 ∧
    (n0 * 2 ^ 32 + n1 * 2 ^ 24 + n2 * 2 ^ 16 + n3 * 2 ^ 8 + n4) / 2 ^ 0 % 2 ^ 8 = n4 := by
  omega

/-- The windows that carry no data are zero (R151). -/
theorem quintetAt_eq_zero {g : Bytes} {k : Nat} (h0 : 0 < g.length) (h5 : g.length ≤ 5) (hk : 8 - pad32 g.length ≤ k)
    (hk8 : k < 8) : quintetAt g 0 k = 0 := by
  have hn : g.length = 1 ∨ g.length = 2 ∨ g.length = 3 ∨ g.length = 4 ∨ g.length = 5 := by omega
  rcases hn with h | h | h | h | h
  · have z1 : natAt g 1 = 0 := natAt_eq_zero (by omega)
    have z2 : natAt g 2 = 0 := natAt_eq_zero (by omega)
    have z3 : natAt g 3 = 0 := natAt_eq_zero (by omega)
    have z4 : natAt g 4 = 0 := natAt_eq_zero (by omega)
    have : k = 2 ∨ k = 3 ∨ k = 4 ∨ k = 5 ∨ k = 6 ∨ k = 7 := by rw [h, pad32] at hk; omega
    rcases this with rfl | rfl | rfl | rfl | rfl | rfl <;> simp only [quintetAt, Nat.zero_add, z1, z2, z3, z4] <;> omega
  · have z2 : natAt g 2 = 0 := natAt_eq_zero (by omega)
    have z3 : natAt g 3 = 0 := natAt_eq_zero (by omega)
    have z4 : natAt g 4 = 0 := natAt_eq_zero (by omega)
    have : k = 4 ∨ k = 5 ∨ k = 6 ∨ k = 7 := by rw [h, pad32] at hk; omega
    rcases this with rfl | rfl | rfl | rfl <;> simp only [quintetAt, Nat.zero_add, z2, z3, z4] <;> omega
  · have z3 : natAt g 3 = 0 := natAt_eq_zero (by omega)
    have z4 : natAt g 4 = 0 := natAt_eq_zero (by omega)
    have : k = 5 ∨ k = 6 ∨ k = 7 := by rw [h, pad32] at hk; omega
    rcases this with rfl | rfl | rfl <;> simp only [quintetAt, Nat.zero_add, z3, z4] <;> omega
  · have z4 : natAt g 4 = 0 := natAt_eq_zero (by omega)
    obtain rfl : k = 7 := by rw [h, pad32] at hk; omega
    simp only [quintetAt, Nat.zero_add, z4]
    omega
  · rw [h] at hk
    simp only [pad32] at hk
    omega

/-- The symbols of one group decode to its bytes. -/
theorem decSymbols32_group (i : Nat) (g : Bytes) (h0 : 0 < g.length) (h5 : g.length ≤ 5) :
    decSymbols32 i 0 0 ((List.range (8 - pad32 g.length)).map fun k => symbol a32 (quintetAt g 0 k)) = .ok g := by
  obtain ⟨d, hd, hl, hb⟩ := decSymbols32_valid i ((List.range (8 - pad32 g.length)).map fun k => symbol a32 (quintetAt g 0 k))
    (by
      intro c hc
      obtain ⟨k, -, rfl⟩ := List.mem_map.1 hc
      exact inv32_symbol_ne_none (quintetAt_lt _ _ _))
  rw [hd]
  congr 1
  have hn : g.length = 1 ∨ g.length = 2 ∨ g.length = 3 ∨ g.length = 4 ∨ g.length = 5 := by omega
  have hdl : d.length = g.length := by
    rw [hl]
    simp only [List.length_map, List.length_range]
    rcases hn with h | h | h | h | h <;> simp [h, pad32]
  have hs : ∀ k, k < 8 →
      symAt inv32 ((List.range (8 - pad32 g.length)).map fun k => symbol a32 (quintetAt g 0 k)) k = quintetAt g 0 k := by
    intro k hk
    by_cases hc : k < 8 - pad32 g.length
    · rw [symAt, List.getElem?_map, List.getElem?_range hc, Option.map_some, Option.bind_some,
        inv32_symbol _ (quintetAt_lt _ _ _), Option.getD_some]
    · rw [symAt, List.getElem?_eq_none (by simp; omega), quintetAt_eq_zero h0 h5 (by omega) hk]
      rfl
  have n0 := natAt_lt g 0
  have n1 := natAt_lt g 1
  have n2 := natAt_lt g 2
  have n3 := natAt_lt g 3
  have n4 := natAt_lt g 4
  have hq : quantum32At ((List.range (8 - pad32 g.length)).map fun k => symbol a32 (quintetAt g 0 k)) 0 =
      natAt g 0 * 2 ^ 32 + natAt g 1 * 2 ^ 24 + natAt g 2 * 2 ^ 16 + natAt g 3 * 2 ^ 8 + natAt g 4 := by
    obtain ⟨x, hx⟩ : ∃ x, x = natAt g 0 * 2 ^ 32 + natAt g 1 * 2 ^ 24 + natAt g 2 * 2 ^ 16 + natAt g 3 * 2 ^ 8 +
      natAt g 4 := ⟨_, rfl⟩
    have key : ∀ k, quintetAt g 0 k = x / 2 ^ (35 - 5 * k) % 2 ^ 5 := fun k => by
      simp only [quintetAt, Nat.zero_add, hx]
    have hlt : x < 2 ^ 40 := by omega
    simp only [quantum32At, Nat.zero_add]
    rw [hs 0 (by omega), hs 1 (by omega), hs 2 (by omega), hs 3 (by omega), hs 4 (by omega), hs 5 (by omega),
      hs 6 (by omega), hs 7 (by omega), ← hx]
    clear hx
    simp only [key, Nat.reduceMul, Nat.reduceSub]
    exact join_quintets x hlt
  refine List.ext_getElem? fun j => ?_
  by_cases hj : j < g.length
  · have h1 := hb j (by omega)
    obtain ⟨x, hx⟩ : ∃ x, d[j]? = some x := ⟨_, List.getElem?_eq_getElem (by omega)⟩
    rw [hx, Option.map_some, Option.some.injEq] at h1
    have h2 : g[j]? = some g[j] := List.getElem?_eq_getElem hj
    rw [hx, h2, Option.some.injEq]
    apply BitVec.eq_of_toNat_eq
    have h3 : g[j].toNat = natAt g j := by simp [natAt, List.getD_eq_getElem?_getD, h2]
    rw [h1, h3, quantum32Byte, show j / 5 = 0 by omega, show j % 5 = j by omega, Nat.mul_zero, hq]
    have : j = 0 ∨ j = 1 ∨ j = 2 ∨ j = 3 ∨ j = 4 := by omega
    obtain ⟨r0, r1, r2, r3, r4⟩ := bytes_of_group _ _ _ _ _ n0 n1 n2 n3 n4
    rcases this with rfl | rfl | rfl | rfl | rfl
    · exact r0
    · exact r1
    · exact r2
    · exact r3
    · exact r4
  · rw [List.getElem?_eq_none (by omega), List.getElem?_eq_none (by omega)]

theorem encGroup32_eq (g : Bytes) : encGroup32 g =
    ((List.range (8 - pad32 g.length)).map fun k => symbol a32 (quintetAt g 0 k)) ++ List.replicate (pad32 g.length) pad := by
  rw [encGroup32]
  congr 1
  refine List.map_congr_left fun k hk => ?_
  have hk : k < 8 - pad32 g.length := by simpa using hk
  simp only [bits_eq, group40_eq, quintetAt, Nat.zero_add]
  rw [show 39 - 5 * k + 1 - (35 - 5 * k) = 5 by omega]

/-- An encode is its symbols, which decode to the data, and the canonical pads (R151, R152, R158). -/
theorem encB32_split (b : Bytes) : ∃ syms : Bytes, encB32 b = syms ++ List.replicate (canon32 (syms.length % 8)) pad ∧
    (∀ c ∈ syms, inv32 c ≠ none) ∧ (∀ i, decSymbols32 i 0 0 syms = .ok b) ∧
    syms.length % 8 ≠ 1 ∧ syms.length % 8 ≠ 3 ∧ syms.length % 8 ≠ 6 := by
  have last : ∀ g : Bytes, 0 < g.length → g.length ≤ 5 → ∃ syms : Bytes,
      encGroup32 g = syms ++ List.replicate (canon32 (syms.length % 8)) pad ∧
      (∀ c ∈ syms, inv32 c ≠ none) ∧ (∀ i, decSymbols32 i 0 0 syms = .ok g) ∧
      syms.length % 8 ≠ 1 ∧ syms.length % 8 ≠ 3 ∧ syms.length % 8 ≠ 6 := fun g h0 h5 => by
    refine ⟨_, ?_, ?_, fun i => decSymbols32_group i g h0 h5, ?_⟩
    · rw [encGroup32_eq]
      have : g.length = 1 ∨ g.length = 2 ∨ g.length = 3 ∨ g.length = 4 ∨ g.length = 5 := by omega
      congr 2
      simp only [List.length_map, List.length_range]
      rcases this with h | h | h | h | h <;> simp [h, pad32, canon32]
    · intro c hc
      obtain ⟨k, -, rfl⟩ := List.mem_map.1 hc
      exact inv32_symbol_ne_none (quintetAt_lt _ _ _)
    · have : g.length = 1 ∨ g.length = 2 ∨ g.length = 3 ∨ g.length = 4 ∨ g.length = 5 := by omega
      simp only [List.length_map, List.length_range]
      rcases this with h | h | h | h | h <;> simp [h, pad32]
  induction b using encB32.induct with
  | case1 b0 b1 b2 b3 b4 rest ih =>
    obtain ⟨syms, h1, h2, h3, h4⟩ := ih
    have e : encGroup32 [b0, b1, b2, b3, b4] =
        (List.range 8).map fun k => symbol a32 (quintetAt [b0, b1, b2, b3, b4] 0 k) := by
      rw [encGroup32_eq]; simp [pad32]
    have hg : ∀ i, decSymbols32 i 0 0 ((List.range 8).map fun k => symbol a32 (quintetAt [b0, b1, b2, b3, b4] 0 k)) =
        .ok [b0, b1, b2, b3, b4] := fun i => by
      simpa [pad32] using decSymbols32_group i [b0, b1, b2, b3, b4] (by simp) (by simp)
    refine ⟨encGroup32 [b0, b1, b2, b3, b4] ++ syms, ?_, ?_, fun i => ?_, ?_⟩
    · rw [encB32, h1, List.append_assoc, List.length_append, length_encGroup32, Nat.add_mod_left]
    · intro c hc
      rcases List.mem_append.1 hc with hc | hc
      · rw [e] at hc
        obtain ⟨k, -, rfl⟩ := List.mem_map.1 hc
        exact inv32_symbol_ne_none (quintetAt_lt _ _ _)
      · exact h2 c hc
    · rw [e]
      have hg' := hg i
      simp only [List.range, List.range.loop, List.map_cons, List.map_nil] at hg' ⊢
      have hv : ∀ c ∈ [symbol a32 (quintetAt [b0, b1, b2, b3, b4] 0 0), symbol a32 (quintetAt [b0, b1, b2, b3, b4] 0 1),
          symbol a32 (quintetAt [b0, b1, b2, b3, b4] 0 2), symbol a32 (quintetAt [b0, b1, b2, b3, b4] 0 3),
          symbol a32 (quintetAt [b0, b1, b2, b3, b4] 0 4), symbol a32 (quintetAt [b0, b1, b2, b3, b4] 0 5),
          symbol a32 (quintetAt [b0, b1, b2, b3, b4] 0 6), symbol a32 (quintetAt [b0, b1, b2, b3, b4] 0 7)],
          inv32 c ≠ none := by
        intro c hc
        simp only [List.mem_cons, List.not_mem_nil, or_false] at hc
        rcases hc with rfl | rfl | rfl | rfl | rfl | rfl | rfl | rfl <;> exact inv32_symbol_ne_none (quintetAt_lt _ _ _)
      obtain ⟨x0, x1, x2, x3, x4, hx, q0, q1, q2, q3, q4⟩ := decSymbols32_eight i [] hv
      obtain ⟨y0, y1, y2, y3, y4, hy, p0, p1, p2, p3, p4⟩ := decSymbols32_eight i syms hv
      rw [hx] at hg'
      simp only [decSymbols32, Except.map, Except.ok.injEq, List.cons.injEq, and_true] at hg'
      obtain ⟨rfl, rfl, rfl, rfl, rfl⟩ := hg'
      have hq : ∀ j, j < 5 → quantum32Byte (symbol a32 (quintetAt [x0, x1, x2, x3, x4] 0 0) ::
          symbol a32 (quintetAt [x0, x1, x2, x3, x4] 0 1) :: symbol a32 (quintetAt [x0, x1, x2, x3, x4] 0 2) ::
          symbol a32 (quintetAt [x0, x1, x2, x3, x4] 0 3) :: symbol a32 (quintetAt [x0, x1, x2, x3, x4] 0 4) ::
          symbol a32 (quintetAt [x0, x1, x2, x3, x4] 0 5) :: symbol a32 (quintetAt [x0, x1, x2, x3, x4] 0 6) ::
          symbol a32 (quintetAt [x0, x1, x2, x3, x4] 0 7) :: syms) j = quantum32Byte (symbol a32 (quintetAt [x0, x1, x2, x3, x4] 0 0) ::
          symbol a32 (quintetAt [x0, x1, x2, x3, x4] 0 1) :: symbol a32 (quintetAt [x0, x1, x2, x3, x4] 0 2) ::
          symbol a32 (quintetAt [x0, x1, x2, x3, x4] 0 3) :: symbol a32 (quintetAt [x0, x1, x2, x3, x4] 0 4) ::
          symbol a32 (quintetAt [x0, x1, x2, x3, x4] 0 5) :: symbol a32 (quintetAt [x0, x1, x2, x3, x4] 0 6) ::
          symbol a32 (quintetAt [x0, x1, x2, x3, x4] 0 7) :: []) j := fun j hj => by
        simp only [quantum32Byte, show j / 5 = 0 by omega]
        rfl
      rw [hq _ (by decide), ← q0] at p0
      rw [hq _ (by decide), ← q1] at p1
      rw [hq _ (by decide), ← q2] at p2
      rw [hq _ (by decide), ← q3] at p3
      rw [hq _ (by decide), ← q4] at p4
      obtain rfl := BitVec.eq_of_toNat_eq p0
      obtain rfl := BitVec.eq_of_toNat_eq p1
      obtain rfl := BitVec.eq_of_toNat_eq p2
      obtain rfl := BitVec.eq_of_toNat_eq p3
      obtain rfl := BitVec.eq_of_toNat_eq p4
      rw [List.cons_append, List.cons_append, List.cons_append, List.cons_append, List.cons_append, List.cons_append,
        List.cons_append, List.cons_append, List.nil_append, hy, h3]
      rfl
    · rw [List.length_append, length_encGroup32, Nat.add_mod_left]
      exact h4
  | case2 => exact ⟨[], rfl, fun c hc => by simp at hc, fun i => rfl, by decide, by decide, by decide⟩
  | case3 g h1 h2 =>
    have hl : 0 < g.length := List.length_pos_iff.2 h2
    have hl' : g.length < 5 := by
      match g, h1 with
      | [], _ => simp
      | [_], _ => simp
      | [_, _], _ => simp
      | [_, _, _], _ => simp
      | [_, _, _, _], _ => simp
      | b0 :: b1 :: b2 :: b3 :: b4 :: rest, h1 => exact absurd rfl (h1 b0 b1 b2 b3 b4 rest)
    rw [encB32]
    · exact last g hl (by omega)
    · exact h1
    · exact h2

/-! ### Trailing runs -/

/-- Dropping a trailing run gives the text before it. -/
theorem rdropWhile_append {p : Byte → Bool} {u e : Bytes} (he : ∀ c ∈ e, p c = true)
    (hu : ∀ c, u.getLast? = some c → p c = false) : (u ++ e).rdropWhile p = u := by
  induction e using List.reverseRecOn with
  | nil =>
    rw [List.append_nil]
    induction u using List.reverseRecOn with
    | nil => rfl
    | append_singleton u c _ =>
      rw [List.rdropWhile_concat_neg]
      simpa using hu c (by simp)
  | append_singleton e c ih =>
    rw [← List.append_assoc, List.rdropWhile_concat_pos _ _ _ (he c (by simp))]
    exact ih fun x hx => he x (by simp [hx])

theorem stripCRLF_append {u e : Bytes} (he : ∀ c ∈ e, isLineEnd c = true)
    (hu : ∀ c, u.getLast? = some c → isLineEnd c = false) : stripCRLF (u ++ e) = u := rdropWhile_append he hu

/-- The pads behind a text that does not end in a pad. -/
theorem stripPads_append {u : Bytes} {p : Nat} (hu : ∀ c, u.getLast? = some c → c ≠ pad) :
    stripPads (u ++ List.replicate p pad) = u :=
  rdropWhile_append (fun c hc => by rw [List.eq_of_mem_replicate hc]; rfl) fun c hc => by simpa using hu c hc

/-- What the whole-input checks of Base64 make of a text and line ends (R136, R137). -/
theorem prepare64_append {u e : Bytes} (he : ∀ c ∈ e, isLineEnd c = true)
    (hu : ∀ c, u.getLast? = some c → isLineEnd c = false) :
    prepare64 (u ++ e) =
      if u = [] ∧ e ≠ [] ∨ u.length % 4 ≠ 0 then .error { kind := .invalidLength, pos := 0 } else .ok u := by
  have hs := stripCRLF_append he hu
  simp only [prepare64, hs]
  by_cases h : u = []
  · subst h
    by_cases h2 : e = []
    · subst h2; simp
    · simp [h2]
  · simp [h]

/-- The symbols, the pads and the line ends of a Base32 text (R154). -/
theorem decB32_append {u e : Bytes} {p : Nat} (he : ∀ c ∈ e, isLineEnd c = true)
    (hu : ∀ c, u.getLast? = some c → c ≠ pad) (hul : p = 0 → ∀ c, u.getLast? = some c → isLineEnd c = false) :
    decB32 (u ++ List.replicate p pad ++ e) =
      (do let d ← decSymbols32 0 0 0 u; checkTail32 u.length p; .ok d) := by
  have h1 : stripCRLF (u ++ List.replicate p pad ++ e) = u ++ List.replicate p pad := by
    refine stripCRLF_append he fun c hc => ?_
    rcases Nat.eq_zero_or_pos p with rfl | h0
    · exact hul rfl c (by simpa using hc)
    · have : c ∈ (u ++ List.replicate p pad).getLast? := hc
      rw [List.getLast?_append_of_ne_nil _ (by simp; omega)] at this
      have : c = pad := List.eq_of_mem_replicate (List.mem_of_getLast? this)
      rw [this]; rfl
  simp only [decB32, h1, stripPads_append hu, List.length_append, List.length_replicate, Nat.add_sub_cancel_left]

/-! ### Base16 -/

/-- The value of a digit of either case (R173). -/
def digit (c : Byte) : Option Nat := inv16 (upper c)

theorem digit_lt {c : Byte} {v : Nat} (h : digit c = some v) : v < 16 := inv16_lt _ _ h

theorem decPairs16_cons {pos : Nat} {h l : Byte} {rest : Bytes} {vh vl : Nat} (e0 : digit h = some vh)
    (e1 : digit l = some vl) : decPairs16 pos (h :: l :: rest) =
      (decPairs16 (pos + 2) rest).map (BitVec.ofNat 8 (16 * vh + vl) :: ·) := by
  have hl := digit_lt e1
  have e : vh <<< 4 ||| vl = 16 * vh + vl := by rw [shift_or_eq _ _ 4 hl]; omega
  simp only [digit] at e0 e1
  simp only [decPairs16, decPair16, symbolValue, e0, e1, bind, Except.bind, e]
  cases decPairs16 (pos + 2) rest <;> rfl

/-- Pairs of digits decode to bytes (R174). -/
theorem decPairs16_valid (pos : Nat) (t : Bytes) (hl : t.length % 2 = 0) (hv : ∀ c ∈ t, digit c ≠ none) :
    ∃ d, decPairs16 pos t = .ok d ∧ d.length = t.length / 2 ∧
      ∀ j, j < d.length → (d[j]?).map BitVec.toNat = some (16 * symAt digit t (2 * j) + symAt digit t (2 * j + 1)) := by
  suffices ∃ d, decPairs16 pos t = .ok d ∧
      ∀ j, j < d.length → (d[j]?).map BitVec.toNat = some (16 * symAt digit t (2 * j) + symAt digit t (2 * j + 1)) by
    obtain ⟨d, h, h'⟩ := this
    exact ⟨d, h, decPairs16_length h, h'⟩
  induction pos, t using decPairs16.induct with
  | case1 pos h l rest ih =>
    obtain ⟨d, hd, hb⟩ := ih (by simp only [List.length_cons] at hl; omega) fun c hc => hv c (by simp [hc])
    obtain ⟨vh, e0⟩ := Option.ne_none_iff_exists'.1 (hv h (by simp))
    obtain ⟨vl, e1⟩ := Option.ne_none_iff_exists'.1 (hv l (by simp))
    refine ⟨_, by rw [decPairs16_cons e0 e1, hd]; rfl, fun j hj => ?_⟩
    have l0 := digit_lt e0
    have l1 := digit_lt e1
    cases j with
    | zero =>
      simp only [List.getElem?_cons_zero, Option.map_some, BitVec.toNat_ofNat, Option.some.injEq, Nat.mul_zero,
        symAt_cons_zero, symAt_cons_succ, e0, e1, Option.getD_some]
      omega
    | succ j =>
      rw [show 2 * (j + 1) = 2 * j + 1 + 1 by omega]
      simpa using hb j (by simpa using hj)
  | case2 t pos hne =>
    match t, hne, hl with
    | [], _, _ => exact ⟨[], rfl, fun j h => by simp at h⟩
    | [_], _, h => simp at h
    | a :: b :: rest, hne, _ => exact absurd rfl (hne a b rest)

/-- The first byte that is no digit decides (R174). -/
theorem decPairs16_bad (pos : Nat) (t : Bytes) (p : Nat) (c : Byte) (hl : t.length % 2 = 0) (hc : t[p]? = some c)
    (hn : digit c = none) (hg : ∀ j x, j < p → t[j]? = some x → digit x ≠ none) :
    decPairs16 pos t = .error { kind := .invalidAlphabetChar, pos := pos + p } := by
  induction pos, t using decPairs16.induct generalizing p with
  | case1 pos h l rest ih =>
    match p, hc, hg with
    | 0, hc, _ =>
      simp only [List.getElem?_cons_zero, Option.some.injEq] at hc
      subst hc
      simp only [digit] at hn
      simp [decPairs16, decPair16, symbolValue, hn, bind, Except.bind]
    | 1, hc, hg =>
      simp only [List.getElem?_cons_succ, List.getElem?_cons_zero, Option.some.injEq] at hc
      subst hc
      obtain ⟨v, e⟩ := Option.ne_none_iff_exists'.1 (hg 0 h (by omega) rfl)
      simp only [digit] at hn e
      simp [decPairs16, decPair16, symbolValue, hn, e, bind, Except.bind]
    | p + 2, hc, hg =>
      obtain ⟨v, e⟩ := Option.ne_none_iff_exists'.1 (hg 0 h (by omega) rfl)
      obtain ⟨w, f⟩ := Option.ne_none_iff_exists'.1 (hg 1 l (by omega) rfl)
      rw [decPairs16_cons e f, ih p (by simp only [List.length_cons] at hl; omega) hc
        (fun j x hj h => hg (j + 2) x (by omega) h), show pos + 2 + p = pos + (p + 2) by omega]
      rfl
  | case2 t pos hne =>
    match t, hne, hl, hc with
    | [], _, _, h => simp at h
    | [_], _, h, _ => simp at h
    | a :: b :: rest, hne, _, _ => exact absurd rfl (hne a b rest)

/-- Decoding the digits of an encode gives the data (R175). -/
theorem decPairs16_encB16 (pos : Nat) (b : Bytes) : decPairs16 pos (encB16 b) = .ok b := by
  induction b generalizing pos with
  | nil => rfl
  | cons c b ih =>
    have hc := c.isLt
    have e0 : digit (symbol a16 (bits c.toNat 7 4)) = some (bits c.toNat 7 4) := inv16_symbol _ (bits_lt _ 7 4)
    have e1 : digit (symbol a16 (bits c.toNat 3 0)) = some (bits c.toNat 3 0) := inv16_symbol _ (bits_lt _ 3 0)
    have h := decPairs16_cons (pos := pos) (rest := encB16 b) e0 e1
    rw [ih] at h
    have hb : BitVec.ofNat 8 (16 * bits c.toNat 7 4 + bits c.toNat 3 0) = c := by
      apply BitVec.eq_of_toNat_eq
      simp only [BitVec.toNat_ofNat, bits_eq]
      omega
    rw [hb] at h
    exact h

end Sys2Proof.Machine
end

