-- ==== Sys2Proof/Laws/Envelope.lean ====
section
/-! SUPPORT. What the decode of the file envelope makes of a text (R207, R208): where the header ends, where the body ends,
its lines; and that it undoes the encode (R209). -/

namespace Sys2Proof.Machine

/-! ### Counted lines -/

theorem decUUC_badLength {c : Byte} {ln : Bytes} {base : Nat} (h : ln.length % 4 ≠ 0) :
    decUUC (c :: ln) base = .error { kind := .invalidLength, pos := base } := by
  rw [decUUC, if_pos h]

theorem decUUC_badCount {c : Byte} {ln : Bytes} {base : Nat} (h : ln.length % 4 = 0) (hc : uuVal c = none) :
    decUUC (c :: ln) base = .error { kind := .invalidAlphabetChar, pos := base } := by
  simp [decUUC, h, symbolValue, hc, bind, Except.bind]

/-- A counted line whose length and count character are in order (R189). -/
theorem decUUC_counted {c : Byte} {ln : Bytes} {base e : Nat} (h : ln.length % 4 = 0) (hc : uuVal c = some e) :
    decUUC (c :: ln) base =
      if 3 * (ln.length / 4) < e then .error { kind := .invalidLength, pos := base }
      else (decGroupsUU (base + 1) ln).map fun d => d.take e := by
  have e3 : 3 * ln.length / 4 = 3 * (ln.length / 4) := by omega
  simp only [decUUC, h, ne_eq, not_true_eq_false, if_false, symbolValue, hc, bind, Except.bind, e3]
  split
  · rfl
  · cases decGroupsUU (base + 1) ln <;> rfl

/-- A good line gives as many bytes as its count says (R189). -/
theorem decUUC_valid {c : Byte} {ln : Bytes} {e : Nat} (base : Nat) (h : ln.length % 4 = 0) (hc : uuVal c = some e)
    (he : e ≤ 3 * (ln.length / 4)) (hv : ∀ x ∈ ln, uuVal x ≠ none) :
    ∃ d, decUUC (c :: ln) base = .ok d ∧ d.length = e ∧ AreQuantumBytes uuVal ln d := by
  obtain ⟨d, hd, hl, hb⟩ := decGroupsUU_valid (base + 1) ln h hv
  refine ⟨d.take e, ?_, by rw [List.length_take]; omega, hb.take e⟩
  rw [decUUC_counted h hc, if_neg (by omega), hd]
  rfl

/-- A counted line decodes to its data (R190). -/
theorem decUUC_countedLine (b : Bytes) (base : Nat) (hb : b.length ≤ 63) : decUUC (countedLine b) base = .ok b := by
  have hl : (encUUL b).length % 4 = 0 := by rw [length_encUUL]; omega
  rw [countedLine, decUUC_counted hl (uuVal_uuChar _ (by omega)), decGroupsUU_encUUL, if_neg]
  · simp [Except.map]
  · rw [length_encUUL, ceilDiv_eq]
    omega

/-! ### Lines -/

/-- Lines, each with its LF. -/
def joinLines (ls : List Bytes) : Bytes := ls.flatMap fun l => l ++ [lf]

@[simp] theorem joinLines_nil : joinLines [] = [] := rfl
@[simp] theorem joinLines_cons (l : Bytes) (ls : List Bytes) : joinLines (l :: ls) = l ++ lf :: joinLines ls := by
  simp [joinLines]

theorem joinLines_append (a b : List Bytes) : joinLines (a ++ b) = joinLines a ++ joinLines b := by simp [joinLines]

theorem splitLines_line {l : Bytes} (h : lf ∉ l) : splitLines l = [l] := by
  induction l with
  | nil => rfl
  | cons c l ih =>
    simp only [List.mem_cons, not_or] at h
    simp only [splitLines, if_neg (Ne.symm h.1), ih h.2]

theorem splitLines_cons {l : Bytes} (h : lf ∉ l) (t : Bytes) : splitLines (l ++ lf :: t) = l :: splitLines t := by
  induction l with
  | nil => simp [splitLines]
  | cons c l ih =>
    simp only [List.mem_cons, not_or] at h
    simp only [List.cons_append, splitLines, if_neg (Ne.symm h.1), ih h.2]

/-- The lines of a body without its last LF (R207). -/
theorem splitLines_joinLines {ls : List Bytes} (hne : ls ≠ []) (h : ∀ l ∈ ls, lf ∉ l) :
    splitLines ((joinLines ls).take ((joinLines ls).length - 1)) = ls := by
  induction ls with
  | nil => exact absurd rfl hne
  | cons l ls ih =>
    have hl := h l (by simp)
    by_cases hls : ls = []
    · subst hls
      rw [joinLines_cons, joinLines_nil]
      simpa using splitLines_line hl
    · have hpos : 0 < (joinLines ls).length := by
        cases ls with
        | nil => exact absurd rfl hls
        | cons a ls => simp
      have e : (joinLines (l :: ls)).take ((joinLines (l :: ls)).length - 1) =
          l ++ lf :: (joinLines ls).take ((joinLines ls).length - 1) := by
        rw [joinLines_cons, List.length_append, List.length_cons,
          show l.length + ((joinLines ls).length + 1) - 1 = l.length + ((joinLines ls).length - 1 + 1) by omega,
          List.take_length_add_append, List.take_succ_cons]
      rw [e, splitLines_cons hl, ih hls fun x hx => h x (by simp [hx])]

/-! ### Searches -/

/-- The least place where the bytes begin. -/
theorem findSub_eq_of {p t : Bytes} {i j : Nat} (hj : j ≤ t.length) (hp : p <+: t.drop j)
    (hn : ∀ k, k < j → ¬ p <+: t.drop k) : findSub p i t = some (i + j) := by
  cases h : findSub p i t with
  | none =>
    have := findSub_eq_none h (i + j) (by omega) (by omega)
    rw [show i + j - i = j by omega] at this
    exact absurd hp this
  | some m =>
    obtain ⟨h1, h2, h3, h4⟩ := findSub_eq_some h
    rcases Nat.lt_trichotomy m (i + j) with hlt | heq | hgt
    · exact absurd h3 (hn _ (by omega))
    · rw [heq]
    · have := h4 (i + j) (by omega) hgt
      rw [show i + j - i = j by omega] at this
      exact absurd hp this

/-- The bytes begin nowhere. -/
theorem findSub_eq_none_of {p t : Bytes} {i : Nat} (hn : ¬ p <:+: t) : findSub p i t = none := by
  cases h : findSub p i t with
  | none => rfl
  | some m =>
    obtain ⟨-, -, h3, -⟩ := findSub_eq_some h
    exact absurd (h3.isInfix.trans (List.drop_suffix _ _).isInfix) hn

/-- The first LF (R207). -/
theorem findSub_lf {a t : Bytes} (h : lf ∉ a) (i : Nat) : findSub [lf] i (a ++ lf :: t) = some (i + a.length) := by
  refine findSub_eq_of (by simp) (by simp) fun k hk hp => ?_
  obtain ⟨r, hr⟩ := hp
  have e := congrArg (·[0]?) hr
  simp only [List.cons_append, List.nil_append, List.getElem?_cons_zero, List.getElem?_drop, Nat.add_zero,
    List.getElem?_append_left hk] at e
  exact h (List.mem_of_getElem? e.symm)

theorem sentinel_eq : sentinel = [0x0A#8, 0x60#8, 0x0A#8, 0x65#8, 0x6E#8, 0x64#8] := rfl

/-- The trailer right behind the header's LF and the body, when no sentinel stands in them: the first sentinel begins
with their last LF (R207, R208 (b)). -/
theorem findSub_sentinel {ls : List Bytes} (hn : ¬ sentinel <:+: lf :: joinLines ls) (i : Nat) (rest : Bytes) :
    findSub sentinel i (lf :: joinLines ls ++ trailer ++ rest) = some (i + (joinLines ls).length) := by
  obtain ⟨u, hu⟩ : ∃ u, lf :: joinLines ls = u ++ [lf] ∧ u.length = (joinLines ls).length := by
    induction ls with
    | nil => exact ⟨[], rfl, rfl⟩
    | cons l ls ih =>
      have : ∀ ls : List Bytes, ∃ u, lf :: joinLines ls = u ++ [lf] := fun ls => by
        induction ls with
        | nil => exact ⟨[], rfl⟩
        | cons l ls ih =>
          obtain ⟨u, hu⟩ := ih
          exact ⟨lf :: l ++ u, by rw [joinLines_cons, hu]; simp⟩
      obtain ⟨u, hu⟩ := this (l :: ls)
      refine ⟨u, hu, ?_⟩
      have := congrArg List.length hu
      simp only [List.length_cons, List.length_append, List.length_nil] at this
      omega
  obtain ⟨hu, hl⟩ := hu
  have htr : [lf] ++ trailer = sentinel := rfl
  rw [hu] at hn ⊢
  rw [← hl]
  have e : u ++ [lf] ++ trailer ++ rest = u ++ (sentinel ++ rest) := by rw [← htr]; simp
  rw [e]
  refine findSub_eq_of (by simp) (by rw [List.drop_left]; exact List.prefix_append _ _) fun k hk hp => ?_
  obtain ⟨r, hr⟩ := hp
  have get : ∀ x, x < 6 → sentinel[x]? = (u ++ (sentinel ++ rest))[k + x]? := fun x hx => by
    have := congrArg (·[x]?) hr
    rw [List.getElem?_append_left (by rw [sentinel_eq]; simpa using hx), List.getElem?_drop] at this
    exact this
  have tail : ∀ x, x < 6 → (u ++ (sentinel ++ rest))[u.length + x]? = sentinel[x]? := fun x hx => by
    rw [List.getElem?_append_right (by omega), List.getElem?_append_left (by rw [sentinel_eq]; simp; omega),
      show u.length + x - u.length = x by omega]
  by_cases hfit : k + 6 ≤ u.length + 1
  · apply hn
    refine ⟨u.take k, (u ++ [lf]).drop (k + 6), ?_⟩
    have e2 : sentinel = ((u ++ [lf]).drop k).take 6 := by
      have := congrArg (List.take 6) hr
      rw [List.take_left' (by rw [sentinel_eq]; rfl)] at this
      rw [this]
      have e3 : u ++ (sentinel ++ rest) = (u ++ [lf]) ++ (trailer ++ rest) := by rw [← htr]; simp
      rw [e3, List.drop_append_of_le_length (by simp; omega), List.take_append_of_le_length (by simp; omega)]
    have e4 : u.take k = (u ++ [lf]).take k := by rw [List.take_append_of_le_length (by omega)]
    rw [e2, e4, List.append_assoc, ← List.drop_drop, List.take_append_drop, List.take_append_drop]
  · have h0 := get (u.length - k) (by omega)
    rw [show k + (u.length - k) = u.length + 0 by omega, tail 0 (by omega)] at h0
    have h1 : u.length - k = 2 := by
      have : u.length - k = 1 ∨ u.length - k = 2 ∨ u.length - k = 3 ∨ u.length - k = 4 ∨ u.length - k = 5 := by omega
      rcases this with h | h | h | h | h
      · rw [h] at h0; exact absurd h0 (by decide)
      · exact h
      · rw [h] at h0; exact absurd h0 (by decide)
      · rw [h] at h0; exact absurd h0 (by decide)
      · rw [h] at h0; exact absurd h0 (by decide)
    have h2 := get 3 (by omega)
    rw [show k + 3 = u.length + 1 by omega, tail 1 (by omega)] at h2
    revert h2
    decide

/-- No line begins with `e`, so no sentinel stands in the body (R208 (b)). -/
theorem not_sentinel_infix {ls : List Bytes} (h : ∀ l ∈ ls, lf ∉ l ∧ l ≠ [] ∧ l[0]? ≠ some 0x65#8) :
    ¬ sentinel <:+: lf :: joinLines ls := by
  have key : ∀ k, (lf :: joinLines ls)[k]? = some lf → (lf :: joinLines ls)[k + 1]? ≠ some 0x65#8 := by
    induction ls with
    | nil => intro k _; simp
    | cons l ls ih =>
      obtain ⟨h1, h2, h3⟩ := h l (by simp)
      have hpos := List.length_pos_iff.2 h2
      have ih := ih fun x hx => h x (by simp [hx])
      intro k hk
      rw [joinLines_cons] at hk ⊢
      cases k with
      | zero =>
        rw [List.getElem?_cons_succ, List.getElem?_append_left hpos]
        exact h3
      | succ k =>
        rw [List.getElem?_cons_succ] at hk ⊢
        by_cases hkl : k < l.length
        · rw [List.getElem?_append_left hkl] at hk
          exact absurd (List.mem_of_getElem? hk) h1
        · rw [List.getElem?_append_right (by omega)] at hk ⊢
          rw [show k + 1 - l.length = k - l.length + 1 by omega]
          exact ih _ hk
  rintro ⟨a, b, hab⟩
  have get : ∀ x, x < 6 → (lf :: joinLines ls)[a.length + x]? = sentinel[x]? := fun x hx => by
    rw [← hab, List.append_assoc, List.getElem?_append_right (by omega),
      List.getElem?_append_left (by rw [sentinel_eq]; simp; omega), show a.length + x - a.length = x by omega]
  exact key (a.length + 2) (get 2 (by omega)) (get 3 (by omega))

/-! ### The envelope -/

/-- Header, body and trailer: the lines that are decoded (R207). -/
theorem decUUF_eq {hdr rest : Bytes} {ls : List Bytes} (hh : lf ∉ hdr) (hl : ∀ l ∈ ls, lf ∉ l)
    (hn : ¬ sentinel <:+: lf :: joinLines ls) :
    decUUF (beginText ++ hdr ++ [lf] ++ joinLines ls ++ trailer ++ rest) = decLines (beginText.length + hdr.length + 1) ls := by
  have hb : lf ∉ beginText ++ hdr := by
    rw [List.mem_append, not_or]
    exact ⟨by decide, hh⟩
  have e : beginText ++ hdr ++ [lf] ++ joinLines ls ++ trailer ++ rest =
      (beginText ++ hdr) ++ lf :: (joinLines ls ++ trailer ++ rest) := by simp
  have hlen : (beginText ++ hdr).length = beginText.length + hdr.length := List.length_append
  have hfind : findBody (beginText ++ hdr ++ [lf] ++ joinLines ls ++ trailer ++ rest) =
      .ok (beginText.length + hdr.length, beginText.length + hdr.length + (joinLines ls).length) := by
    have h1 : beginText.isPrefixOf (beginText ++ hdr ++ [lf] ++ joinLines ls ++ trailer ++ rest) = true := by
      rw [List.isPrefixOf_iff_prefix]
      simp [List.append_assoc]
    have h2 : findSub [lf] 0 (beginText ++ hdr ++ [lf] ++ joinLines ls ++ trailer ++ rest) =
        some (beginText.length + hdr.length) := by
      rw [e, findSub_lf hb, Nat.zero_add, hlen]
    have h3 : (beginText ++ hdr ++ [lf] ++ joinLines ls ++ trailer ++ rest).drop (beginText.length + hdr.length) =
        lf :: joinLines ls ++ trailer ++ rest := by
      rw [e, ← hlen, List.drop_left]
      simp
    simp only [findBody, h1, if_true, h2, h3, findSub_sentinel hn]
  simp only [decUUF, hfind, bind, Except.bind]
  congr 1
  unfold bodyOf
  by_cases hls : ls = []
  · subst hls; simp
  · have hpos : 0 < (joinLines ls).length := by
      cases ls with
      | nil => exact absurd rfl hls
      | cons a ls => simp
    rw [if_pos (by omega)]
    have e2 : ((beginText ++ hdr ++ [lf] ++ joinLines ls ++ trailer ++ rest).take
        (beginText.length + hdr.length + (joinLines ls).length)).drop (beginText.length + hdr.length + 1) =
        (joinLines ls).take ((joinLines ls).length - 1) := by
      rw [List.drop_take, show beginText.length + hdr.length + (joinLines ls).length - (beginText.length + hdr.length + 1) =
        (joinLines ls).length - 1 by omega]
      have e3 : beginText ++ hdr ++ [lf] ++ joinLines ls ++ trailer ++ rest =
          (beginText ++ hdr ++ [lf]) ++ (joinLines ls ++ (trailer ++ rest)) := by simp
      rw [e3, show beginText.length + hdr.length + 1 = (beginText ++ hdr ++ [lf]).length by simp; omega, List.drop_left,
        List.take_append_of_le_length (by omega)]
    rw [e2, splitLines_joinLines hls hl]

/-- Lines that each decode give their bytes one after the other. -/
theorem decLines_all {ls : List Bytes} {f : Bytes → Bytes} (pos : Nat) (h : ∀ l ∈ ls, ∀ p, decUUC l p = .ok (f l)) :
    decLines pos ls = .ok (ls.flatMap f) := by
  induction ls generalizing pos with
  | nil => rfl
  | cons l ls ih =>
    simp only [decLines, h l (by simp), ih _ fun x hx => h x (by simp [hx]), bind, Except.bind, List.flatMap_cons]

/-- The first line that fails decides (R207). -/
theorem decLines_first {good later : List Bytes} {bad : Bytes} {k : FailKind} {p : Nat} (pos : Nat)
    (h : ∀ l ∈ good, ∀ p, ∃ d, decUUC l p = .ok d) (hb : ∀ q, decUUC bad q = .error { kind := k, pos := q + p }) :
    decLines pos (good ++ bad :: later) = .error { kind := k, pos := pos + (joinLines good).length + p } := by
  induction good generalizing pos with
  | nil => simp [decLines, hb, bind, Except.bind]
  | cons l good ih =>
    obtain ⟨d, hd⟩ := h l (by simp) pos
    simp only [List.cons_append, decLines, hd, ih _ fun x hx => h x (by simp [hx]), bind, Except.bind, joinLines_cons,
      List.length_append, List.length_cons, Except.error.injEq, Failure.mk.injEq, true_and]
    omega

theorem chunks_flatMap (b : Bytes) (n : Nat) (h : b.length ≤ 60 * n) :
    (List.range n).flatMap (fun g => chunk b g) = b := by
  have : ∀ k, (List.range k).flatMap (fun g => chunk b g) = b.take (60 * k) := fun k => by
    induction k with
    | zero => simp
    | succ k ih =>
      rw [List.range_succ, List.flatMap_append, ih]
      simp only [List.flatMap_cons, List.flatMap_nil, List.append_nil, chunk, chunkSize]
      rw [show 60 * (k + 1) = 60 * k + 60 by omega, List.take_add]
  rw [this, List.take_of_length_le h]

theorem uuVal_lf : uuVal lf = none := by decide

/-- A counted line holds no LF and begins with its count, which is no `e`. -/
theorem countedLine_clean {b : Bytes} (hb : b.length ≤ 63) :
    lf ∉ countedLine b ∧ countedLine b ≠ [] ∧ (countedLine b)[0]? ≠ some 0x65#8 := by
  have h1 : ∀ v < 64, uuChar v ≠ lf ∧ uuChar v ≠ 0x65#8 := by decide
  refine ⟨?_, by simp [countedLine], ?_⟩
  · rw [countedLine, List.mem_cons, not_or]
    refine ⟨(h1 _ (by omega)).1.symm, fun h => ?_⟩
    rcases mem_encSextets h with h | ⟨v, hv, h⟩
    · revert h; decide
    · exact (h1 v hv).1 h.symm
  · simpa [countedLine] using (h1 _ (by omega)).2

/-- Decoding an envelope gives its data (R209). -/
theorem decUUF_encUUF {b mode name : Bytes} (hm : lf ∉ mode) (hn : lf ∉ name) : decUUF (encUUF b mode name) = .ok b := by
  have hb : bodyLines b = joinLines ((List.range (ceilDiv b.length chunkSize)).map fun g => countedLine (chunk b g)) := by
    simp [bodyLines, joinLines, List.flatMap_map]
  have hc : ∀ g, (chunk b g).length ≤ 63 := fun g => by rw [length_chunk]; omega
  have e : encUUF b mode name = beginText ++ (mode ++ [0x20#8] ++ name) ++ [lf] ++
      joinLines ((List.range (ceilDiv b.length chunkSize)).map fun g => countedLine (chunk b g)) ++ trailer ++ [] := by
    simp [encUUF, headerLine, hb]
  have hcl : ∀ l ∈ (List.range (ceilDiv b.length chunkSize)).map fun g => countedLine (chunk b g),
      lf ∉ l ∧ l ≠ [] ∧ l[0]? ≠ some 0x65#8 := fun l hl => by
    obtain ⟨g, -, rfl⟩ := List.mem_map.1 hl
    exact countedLine_clean (hc g)
  rw [e, decUUF_eq _ (fun l hl => (hcl l hl).1) (not_sentinel_infix hcl)]
  · have : ∀ (gs : List Nat) (pos : Nat), decLines pos (gs.map fun g => countedLine (chunk b g)) =
        .ok (gs.flatMap fun g => chunk b g) := fun gs => by
      induction gs with
      | nil => intro pos; rfl
      | cons g gs ih =>
        intro pos
        simp only [List.map_cons, decLines, decUUC_countedLine _ _ (hc g), ih, bind, Except.bind, List.flatMap_cons]
    rw [this, chunks_flatMap]
    simp only [ceilDiv, chunkSize]
    omega
  · simp only [List.mem_append, not_or]
    exact ⟨⟨hm, by decide⟩, hn⟩

end Sys2Proof.Machine
end

