-- ==== Sys2Proof/Laws/Claims.lean ====
section
/-! SUPPORT. The words of the claims beside the model's own: small lemmas that carry a state's bytes, windows, symbols
and lines over to lists, and a completed command to what the claims say of it. -/

namespace Sys2Proof.Claims

open Sys2Proof.Machine

/-- A failure changes no input (R244). -/
theorem unchanged_raise (s : State) (f : Failure) : Unchanged s (s.raise f) := by
  refine ⟨rfl, rfl, rfl, rfl, rfl, rfl, rfl, fun sp a h => ?_⟩
  cases sp <;> first | rfl | exact absurd rfl h

/-- A success changes no input (R36). -/
theorem unchanged_succeed (s : State) (d tail : Bytes) : Unchanged s (s.succeed d tail) := by
  refine ⟨rfl, rfl, rfl, rfl, rfl, rfl, rfl, fun sp a h => ?_⟩
  cases sp <;> first | rfl | exact absurd rfl h

/-- Failure completion, in the words of the claims (R244). -/
theorem fails_raise (s : State) (k : FailKind) (p : Nat) : Fails (s.raise ⟨k,p⟩) k p := ⟨rfl, rfl, rfl, rfl⟩

/-- Success completion, in the words of the claims (R245). -/
theorem succeeds_succeed (s : State) (d tail : Bytes) (n : Nat) (h : d.length = n) : Succeeds (s.succeed d tail) n :=
    ⟨rfl, rfl, h, rfl⟩

/-- Every command ends at `DONE` (R228). -/
theorem phase_exec {s t : State} {i : Instr} (h : exec i s = .next t) : t.phase = .done := by
  rcases exec_cases h with ⟨_, rfl⟩ | ⟨_, f, _, rfl⟩ | ⟨_, d, _, rfl⟩ <;> rfl

/-- The capacity check from the words of the claims (R226). -/
theorem fits_of_room {s : State} {i : Instr} (hi : i ≠ .uufEnc)
    (h : Room s (commandReqLen i s.inLen s.modeLen s.nameLen)) : s.fits i = true :=
  (fits_iff s i).2 ⟨h.1, fun h' => absurd h' hi, h.2⟩

/-- The claims' size table is the model's (R221, R223). -/
theorem sizeTable_eq (i : Instr) (n m f : Nat) : sizeTable i n m f = commandReqLen i n m f := by
  cases i <;> simp [sizeTable, commandReqLen, ceilDiv, envelopeLen] <;> omega

/-- The claims' envelope size is the model's (R203). -/
theorem envelopeSize_eq (n m f : Nat) : envelopeSize n m f = envelopeLen n m f := rfl

/-- The marker's length (R66, R67). -/
theorem length_tailOf (i : Instr) : (tailOf i).length = if isEncode i then 1 else 0 := by cases i <;> rfl

/-- A result byte of a success, by the list of result bytes. -/
theorem byte_of_getElem {s : State} {d tail : Bytes} {j : Nat} {x : Byte}
    (h : d[j]? = some x) : (s.succeed d tail).byte .output j = x := by
  obtain ⟨hj, h⟩ := List.getElem?_eq_some_iff.1 h
  rw [byte_succeed _ _ _ hj, h]

/-- The same as a number. -/
theorem toNat_byte_of_getElem {s : State} {d tail : Bytes} {j n : Nat}
    (h : (d[j]?).map BitVec.toNat = some n) : ((s.succeed d tail).byte .output j).toNat = n := by
  obtain ⟨x, hx, rfl⟩ := Option.map_eq_some_iff.1 h
  rw [byte_of_getElem hx]

/-- Buffers that agree byte for byte read alike. -/
theorem Buffer_read_congr (sp : Space) (b b' : Buffer) (n : Nat) (h : ∀ j, j < n → b'.byte sp j = b.byte sp j) :
    b'.read sp 0 n = b.read sp 0 n := by
  simp only [Buffer.read, Nat.zero_add]
  exact List.map_congr_left fun j hj => h j (by simpa using hj)

/-- An input byte of the claims, by the list of input bytes. -/
theorem inAt_eq (s : State) (j : Nat) : inAt s j = natAt s.inputBytes j := by
  unfold inAt natAt
  split
  · rename_i h; rw [List.getD_eq_getElem?_getD, getElem?_inputBytes s h]; rfl
  · rename_i h; rw [List.getD_eq_default _ _ (by simp; omega)]; rfl

/-- A window of 24 bits (R63). -/
theorem sextet_eq (s : State) (a k : Nat) : sextet s a k = sextetAt s.inputBytes a k := by
  simp only [sextet, sextetAt, inAt_eq]

/-- A window of 40 bits (R65). -/
theorem quintet_eq (s : State) (a k : Nat) : quintet s a k = quintetAt s.inputBytes a k := by
  simp only [quintet, quintetAt, inAt_eq]

/-- CR or LF (R105). -/
theorem lineEnd_iff (c : Byte) : LineEnd c ↔ isLineEnd c = true := by
  simp [LineEnd, isLineEnd, cr, lf]

/-- Lists of one length that agree everywhere. -/
theorem list_ext_of_length (t : Bytes) (u : Bytes) (h : t.length = u.length) (g : ∀ j, j < u.length →
    t[j]? = u[j]?) : t = u := by
  apply List.ext_getElem?
  intro j
  by_cases hj : j < u.length
  · exact g j hj
  · rw [List.getElem?_eq_none (by omega), List.getElem?_eq_none (by omega)]

/-- A text with line ends behind it, as lists (R133). -/
theorem inputBytes_split {s : State} {l e : Nat} (h : EndsIn s l e) : ∃ tail,
    s.inputBytes = s.inputBytes.take l ++ tail ∧ tail.length = e ∧ ∀ c ∈ tail, isLineEnd c = true := by
  refine ⟨s.inputBytes.drop l, (List.take_append_drop _ _).symm, by simp [h.1], fun c hc => ?_⟩
  obtain ⟨j, hj, rfl⟩ := List.mem_iff_getElem.1 hc
  rw [← lineEnd_iff, List.getElem_drop, getElem_inputBytes]
  simp [h.1] at hj
  exact h.2 _ (by omega) (by omega)

/-- A text with pads behind its symbols, as lists. -/
theorem take_pads {s : State} {k p : Nat} (hl : k + p ≤ s.inLen) (hp : PadsAt s k p) :
    s.inputBytes.take (k + p) = s.inputBytes.take k ++ List.replicate p pad := by
  apply list_ext_of_length
  · simp; omega
  · intro j hj
    simp at hj
    rw [List.getElem?_take_of_lt (by omega), getElem?_inputBytes _ (by omega)]
    by_cases hjk : j < k
    · rw [List.getElem?_append_left (by simp; omega), List.getElem?_take_of_lt hjk, getElem?_inputBytes _ (by omega)]
    · have hlen : (List.take k s.inputBytes).length = k := by simp; omega
      rw [List.getElem?_append_right (by omega), hlen, List.getElem?_replicate_of_lt (by omega),
        hp j (by omega) (by omega)]; rfl

/-- Symbols in front, as a list. -/
theorem symbols_take {inv : Byte → Option Nat} {s : State} {k : Nat} (hk : k ≤ s.inLen)
    (h : SymbolsTo inv s k) : ∀ c ∈ s.inputBytes.take k, inv c ≠ none := by
  intro c hc
  obtain ⟨j, hj, rfl⟩ := List.mem_iff_getElem.1 hc
  simp at hj
  rw [List.getElem_take, getElem_inputBytes]
  exact h j (by omega)

/-- Symbols everywhere, as a list. -/
theorem symbols_all {inv : Byte → Option Nat} {s : State} (hs : SymbolsTo inv s s.inLen) : ∀ c ∈ s.inputBytes,
    inv c ≠ none := by
  have hv := symbols_take (le_refl _) hs
  rwa [List.take_of_length_le (by simp)] at hv

/-- A symbol's value, by the list. -/
theorem valueAt_eq {inv : Byte → Option Nat} {s : State} {k : Nat} (hk : k ≤ s.inLen) (t : Bytes) (ht : ∀ j, j < k →
    t[j]? = s.inputBytes[j]?)
    (hz : ∀ j, k ≤ j → symAt inv t j = 0) (j : Nat) : valueAt inv s k j = symAt inv t j := by
  unfold valueAt
  split
  · rename_i h; rw [symAt, ht j h, getElem?_inputBytes s (by omega)]; rfl
  · rename_i h; rw [hz j (by omega)]

/-- The same with no end of the symbols in sight. -/
theorem valueAt_all (inv : Byte → Option Nat) (s : State) : ∀ j, valueAt inv s s.inLen j = symAt inv s.inputBytes j :=
  valueAt_eq le_rfl _ (fun _ _ => rfl) (fun j hj => by rw [symAt, List.getElem?_eq_none (by simpa using hj)]; rfl)

/-- The last byte of the text in front of index `l`. -/
theorem getLast_take (s : State) (l : Nat) (h : l ≤ s.inLen) (c : Byte)
    (hc : (s.inputBytes.take l).getLast? = some c) : 0 < l ∧ c = s.byte .input (l-1) := by
  rw [List.getLast?_eq_getElem?] at hc
  have hl : (s.inputBytes.take l).length = l := by simp; omega
  rw [hl] at hc
  by_cases h0 : l = 0
  · subst h0; simp at hc
  · rw [List.getElem?_take_of_lt (by omega), getElem?_inputBytes _ (by omega)] at hc
    exact ⟨by omega, by simpa using hc.symm⟩

/-- The text in front of all line ends does not end in one. -/
theorem getLast_text {s : State} {l e : Nat} (h : EndsInAll s l e) : ∀ c, (s.inputBytes.take l).getLast? = some c →
    isLineEnd c = false := by
  intro c hc
  obtain ⟨h1, rfl⟩ := getLast_take s l (by have := h.1.1; omega) c hc
  have := h.2 h1
  rw [lineEnd_iff] at this
  simpa using this

/-- Pads count as value 0 (R136). -/
theorem symAt_pads {inv : Byte → Option Nat} (hp : inv pad = none) (u : Bytes) (p j : Nat)
    (hj : u.length ≤ j) : symAt inv (u ++ List.replicate p pad) j = 0 := by
  rw [symAt, List.getElem?_append_right hj, List.getElem?_replicate]
  split
  · simp [hp]
  · rfl

/-- The canonical pad count (R155). -/
theorem canonicalPads_eq (k : Nat) : canonicalPads k = canon32 (k % 8) := by
  have : k % 8 < 8 := Nat.mod_lt _ (by decide)
  unfold canonicalPads
  generalize k % 8 = r at *
  interval_cases r <;> rfl

/-- A Base32 symbol is neither a pad nor a line end. -/
theorem inv32_symbol_ne : ∀ c, inv32 c ≠ none → c ≠ 0x3D#8 ∧ isLineEnd c = false := by decide

/-- `B32.DEC` on symbols, pads and line ends (R154). -/
theorem ownResult_b32Dec {s : State} {k p e : Nat} (he : EndsIn s (k + p) e) (hp : PadsAt s k p) (hk : k = 0 ∨
    s.byte .input (k-1) ≠ 0x3D#8) (hkl : p = 0 → k = 0 ∨ isLineEnd (s.byte .input (k-1)) = false) :
    ∀ m f, ownResult .b32Dec s.inputBytes m f = (do let d ← decSymbols32 0 0 0 (s.inputBytes.take k); checkTail32 k p; .ok d) := by
  intro m f
  obtain ⟨tail, ht, htl, hte⟩ := inputBytes_split he
  have hlen := he.1
  have hlk : (s.inputBytes.take k).length = k := by simp; omega
  show decB32 s.inputBytes = _
  conv => lhs; rw [ht, take_pads (by omega) hp]
  rw [decB32_append hte, hlk]
  · intro c hc
    obtain ⟨h1, rfl⟩ := getLast_take s k (by omega) c hc
    rcases hk with h | h
    · omega
    · exact h
  · intro hp0 c hc
    obtain ⟨h1, rfl⟩ := getLast_take s k (by omega) c hc
    rcases hkl hp0 with h | h
    · omega
    · exact h

/-- Hexadecimal digits (R173). -/
theorem hexValue_eq : ∀ c, hexValue c = digit c := by decide

/-- A counted line that is not whole groups (R189). -/
theorem decUUC_not_whole {c : Byte} {line : Bytes} {base : Nat}
    (h : line.length % 4 ≠ 0) : decUUC (c :: line) base = .error ⟨.invalidLength, base⟩ := by
  rw [decUUC, if_pos h]

/-- A counted line of whole groups (R189). -/
theorem decUUC_whole {c : Byte} {line : Bytes} {base : Nat}
    (h : line.length % 4 = 0) : decUUC (c :: line) base = (symbolValue uuVal c base).bind fun e =>
   if 3 * line.length / 4 < e then .error { kind := .invalidLength, pos := base }
      else (decGroupsUU (base + 1) line).bind fun d => .ok (d.take e) := by
  rw [decUUC, if_neg (by omega)]; rfl

/-- A byte of a chunk. -/
theorem natAt_chunk (b : Bytes) (g j : Nat) (hj : j < 60) : natAt (chunk b g) j = natAt b (60 * g + j) := by
  simp only [natAt, chunk, chunkSize, List.getD_eq_getElem?_getD]
  rw [List.getElem?_take_of_lt hj, List.getElem?_drop]

/-- A symbol of a body line (R202). -/
theorem bodyLines_getElem (b : Bytes) (g : Nat) (hg : 60 * g < b.length) (j : Nat)
    (hj : j < (countedLine (chunk b g) ++ [lf]).length) :
    (bodyLines b)[82 * g + j]? = (countedLine (chunk b g) ++ [lf])[j]? := by
  have hn : g < ceilDiv b.length chunkSize := by simp [ceilDiv, chunkSize]; omega
  have : List.range (ceilDiv b.length chunkSize) = List.range g ++ g :: ((List.range (ceilDiv b.length chunkSize)).drop (g+1)) := by
    have h1 : (List.range (ceilDiv b.length chunkSize)).take g = List.range g := by rw [List.take_range,
      Nat.min_eq_left (by omega)]
    have h2 : (List.range (ceilDiv b.length chunkSize)).drop g = g :: (List.range (ceilDiv b.length chunkSize)).drop (g+1) := by
      rw [List.drop_eq_getElem_cons (by simpa using hn)]; simp
    rw [← h1, ← h2, List.take_append_drop]
  rw [bodyLines, this, List.flatMap_append, List.flatMap_cons]
  have hl := length_bodyPrefix b g (by omega)
  rw [List.getElem?_append_right (by omega), hl, show 82 * g + j - 82 * g = j by omega, List.getElem?_append_left hj]

/-- Lines joined, each with its LF. -/
theorem asBody_eq (ls : List Bytes) : asBody ls = joinLines ls := rfl

/-- A good body line decodes to its bytes (R189). -/
theorem decUUC_good {l : Bytes} {e : Nat} (h : GoodLine l e) : (∀ p, decUUC l p = .ok (lineData l e)) ∧
    (lineData l e).length = e := by
  obtain ⟨c, ln, rfl, h4, hc, he, hv⟩ := h
  refine ⟨fun p => ?_, by simp [lineData]⟩
  obtain ⟨d, hd, hl, hb⟩ := decUUC_valid p h4 hc he hv
  rw [hd]
  congr 1
  apply List.ext_getElem (by simp [lineData, hl])
  intro j h1 h2
  have := hb j h1
  rw [List.getElem?_eq_getElem h1, Option.map_some, Option.some.injEq] at this
  apply BitVec.eq_of_toNat_eq
  rw [this]
  simp only [lineData, List.getElem_map, List.getElem_range, BitVec.toNat_ofNat]
  have hsym : ∀ k, k < ln.length → (uuVal ((c :: ln).getD (1 + k) 0x60#8)).getD 0 = symAt uuVal ln k := by
    intro k hk
    rw [Nat.add_comm, symAt, List.getD_cons_succ, List.getD_eq_getElem?_getD, List.getElem?_eq_getElem hk]; rfl
  have hj : j < e := by rw [← hl]; exact h1
  simp only [Nat.add_assoc]
  rw [Nat.add_zero, hsym _ (by omega), hsym _ (by omega), hsym _ (by omega), hsym _ (by omega)]
  simp [quantumByte, quantumAt, Nat.add_assoc]

/-- A good body line holds no LF and is not empty. -/
theorem good_no_lf {l : Bytes} {e : Nat} (h : GoodLine l e) : lf ∉ l ∧ l ≠ [] ∧ l[0]? ≠ some 0x65#8 := by
  obtain ⟨c, ln, rfl, h4, hc, he, hv⟩ := h
  refine ⟨?_, by simp, ?_⟩
  · rw [List.mem_cons, not_or]
    refine ⟨?_, fun hx => hv lf hx uuVal_lf⟩
    rintro rfl; rw [uuVal_lf] at hc; cases hc
  · rintro hx
    simp at hx; subst hx
    have : uuVal 0x65#8 = none := by decide
    rw [this] at hc; cases hc

/-- A body line that is refused (R189). -/
theorem decUUC_bad {l : Bytes} {k : FailKind} {pos : Nat} (h : BadLine l k pos) (q : Nat) : decUUC l q = .error ⟨k,
    q + pos⟩ := by
  rcases h with ⟨rfl, rfl, rfl⟩ | ⟨c, ln, rfl, ⟨h4, rfl, rfl⟩ | ⟨h4, hc, rfl, rfl⟩ | ⟨h4, e, hc, ⟨he, rfl, rfl⟩ | ⟨he,
    rfl, hp, ⟨x, hx, hxn⟩, hg⟩⟩⟩
  · rfl
  · exact decUUC_badLength h4
  · exact decUUC_badCount h4 hc
  · rw [decUUC_counted h4 hc, if_pos he]; rfl
  · rw [decUUC_counted h4 hc, if_neg (by omega)]
    obtain ⟨p, rfl⟩ : ∃ p, pos = p + 1 := ⟨pos - 1, by omega⟩
    rw [List.getElem?_cons_succ] at hx
    have hpl : p < ln.length := (List.getElem?_eq_some_iff.1 hx).1
    rw [decGroupsUU_bad (q+1) ln p h4 hpl (fun j y hj hy => hg (j+1) y (by omega) (by omega) (by simpa using hy)) (fun y hy => by rw [hx] at hy; cases hy; exact hxn)]
    simp [Except.map]; omega

end Sys2Proof.Claims
end

