-- ==== Sys2Proof/Laws/Units.lean ====
section
/-! SUPPORT. The unit steps (R235) said once: what the units of a command deliver one after the other, and that a run of
unit steps ends where the units' bytes end. -/

namespace Sys2Proof.Machine

/-- What `k` units and the last unit deliver, from the working registers `w` on. -/
def unitsFrom (i : Instr) (t : Bytes) : Nat → Work → Except Failure Bytes
  | 0, w => lastUnit i w
  | k + 1, w => do
    let (w', d) ← unitAt i t w
    let r ← unitsFrom i t k w'
    .ok (d ++ r)

/-- `OP` and the count of units are the unit step's own: a unit carries them along unread. -/
theorem unitAt_own (i : Instr) (t : Bytes) (w : Work) (op : Nat) (left : Option Nat) :
    unitAt i t { w with op := op, left := left } =
      (unitAt i t w).map fun x => ({ x.1 with op := op, left := left }, x.2) := by
  cases i <;> simp only [unitAt, bind, Except.bind] <;> first | rfl | (split <;> simp_all [Except.map, Work.advance])

theorem lastUnit_own (i : Instr) (w : Work) (op : Nat) (left : Option Nat) :
    lastUnit i { w with op := op, left := left } = lastUnit i w := by cases i <;> rfl

theorem unitsFrom_own (i : Instr) (t : Bytes) (k : Nat) (w : Work) (op : Nat) (left : Option Nat) :
    unitsFrom i t k { w with op := op, left := left } = unitsFrom i t k w := by
  induction k generalizing w with
  | zero => exact lastUnit_own i w op left
  | succ k ih =>
    simp only [unitsFrom, unitAt_own, bind, Except.bind]
    cases unitAt i t w with
    | error e => rfl
    | ok x => simp only [Except.map, ih]

/-- A decode's unit delivers at most as many bytes as it moves `IP` (R70). -/
theorem unitAt_decode_bound {i : Instr} {t : Bytes} {w w' : Work} {d : Bytes} (hi : tailOf i = []) (hw : w.ip ≤ t.length)
    (h0 : i = .uucDec → w.ip = 0) (h : unitAt i t w = .ok (w', d)) : w.ip + d.length ≤ w'.ip ∧ w'.ip ≤ t.length := by
  have four : ∀ {f : Byte → Byte → Byte → Byte → Except Failure Bytes} {d : Bytes},
      (∀ a b c e d, f a b c e = .ok d → d.length ≤ 3) → onFour (sliceOf t w.ip 4) f = .ok d →
      w.ip + d.length ≤ min (w.ip + 4) t.length := fun hf h => by
    unfold onFour at h
    split at h
    · rename_i c0 c1 c2 c3 hs
      have hl := congrArg List.length hs
      simp only [sliceOf, List.length_take, List.length_drop, List.length_cons, List.length_nil] at hl
      have := hf _ _ _ _ _ h
      omega
    · cases h; simp only [List.length_nil]; omega
  cases i <;> simp only [tailOf, encodeTail, decodeTail, reduceCtorEq] at hi <;> simp only [unitAt, bind_eq_ok] at h
  case b64Dec =>
    obtain ⟨d', hd, h⟩ := h
    cases h
    exact ⟨four (fun _ _ _ _ _ h => decQuantum64_length h) hd, by simp only [Work.advance]; omega⟩
  case b64uDec =>
    obtain ⟨d', hd, h⟩ := h
    cases h
    exact ⟨four (fun _ _ _ _ _ h => decQuantum64_length h) hd, by simp only [Work.advance]; omega⟩
  case uulDec =>
    obtain ⟨d', hd, h⟩ := h
    cases h
    exact ⟨four (fun _ _ _ _ _ h => (decGroupUU_length h).le) hd, by simp only [Work.advance]; omega⟩
  case b32Dec =>
    obtain ⟨⟨a, n, d'⟩, hd, h⟩ := h
    cases h
    by_cases hlt : w.ip < t.length
    · simp only [decSymbol32, bind_eq_ok] at hd
      obtain ⟨v, -, hd⟩ := hd
      refine ⟨?_, by simp only [Work.advance]; omega⟩
      split at hd <;> cases hd <;> simp only [Work.advance, List.length_cons, List.length_nil] <;> omega
    · rw [List.getD_eq_default _ _ (by omega)] at hd
      simp only [decSymbol32, bind_eq_ok, dataSymbol_eq_ok] at hd
      obtain ⟨v, ⟨-, hv⟩, -⟩ := hd
      exact absurd hv (by rw [show inv32 0x00#8 = none by decide]; simp)
  case b16Dec =>
    obtain ⟨d', hd, h⟩ := h
    cases h
    refine ⟨?_, by simp only [Work.advance]; omega⟩
    unfold onTwo at hd
    split at hd
    · rename_i c0 c1 hs
      have hl := congrArg List.length hs
      simp only [sliceOf, List.length_take, List.length_drop, List.length_cons, List.length_nil] at hl
      have := decPair16_length hd
      simp only [Work.advance]
      omega
    · cases hd; simp only [Work.advance, List.length_nil]; omega
  case uucDec =>
    obtain ⟨d', hd, h⟩ := h
    cases h
    have := decUUC_length hd
    have := h0 rfl
    simp only [Work.advance]
    omega
  case uufDec =>
    obtain ⟨d', hd, h⟩ := h
    cases h
    have := decUUC_length hd
    simp only [sliceOf, List.length_take, List.length_drop] at this
    simp only [Work.advance]
    omega

theorem lastUnit_decode {i : Instr} {w : Work} {d : Bytes} (hi : tailOf i = []) (h : lastUnit i w = .ok d) : d = [] := by
  cases i <;> simp only [tailOf, encodeTail, decodeTail, reduceCtorEq] at hi <;> simp only [lastUnit, bind_eq_ok] at h
  case b32Dec => obtain ⟨_, -, h⟩ := h; cases h; rfl
  all_goals cases h; rfl

/-- A run of unit steps in the middle of a command, the bytes `acc` delivered and `k` units to come: it ends as the units
do. The bytes fit because all of them together do, or because a decode delivers no more than it has read (R70). -/
theorem runUnits_middle {i : Instr} {s : State} (hp : s.phase = .busy) (e k : Nat) (w : Work) (acc : Bytes)
    (hl : w.left = some k) (ho : w.op = acc.length)
    (hfit : (∃ r, unitsFrom i s.inputBytes k w = .ok r ∧ (acc ++ (r ++ tailOf i)).length ≤ s.par.outCap) ∨
      (tailOf i = [] ∧ (i = .uucDec → w.ip = 0 ∨ k = 0) ∧ acc.length ≤ w.ip ∧ w.ip ≤ s.inLen ∧ s.inLen ≤ s.par.outCap ∧
        (i = .uucDec → k ≤ 1))) :
    runUnits i (k + 1) { s with outBuf := { cells := Memory.write [] 0 acc, epoch := e }, work := w } =
      match unitsFrom i s.inputBytes k w with
      | .ok r => .next (s.succeed (acc ++ r) (tailOf i))
      | .error f => .next (s.raise f) := by
  induction k generalizing w acc with
  | zero =>
    have hstep : unitStep i { s with outBuf := { cells := Memory.write [] 0 acc, epoch := e }, work := w } =
        match unitsFrom i s.inputBytes 0 w with
        | .ok r => .next (s.succeed (acc ++ r) (tailOf i))
        | .error f => .next (s.raise f) := by
      unfold unitStep
      simp only [hl, unitsFrom]
      cases hd : lastUnit i w with
      | error f => rfl
      | ok d =>
        have hc : (acc ++ (d ++ tailOf i)).length ≤ s.par.outCap := by
          rcases hfit with ⟨r, hr, hc⟩ | ⟨ht, -, h1, h2, h3, -⟩
          · rw [unitsFrom, hd] at hr; cases hr; exact hc
          · rw [lastUnit_decode ht hd, ht]; simp only [List.append_nil]; omega
        have hn : ¬ s.par.outCap < w.op + (d ++ tailOf i).length := by
          rw [ho]; rw [List.length_append] at hc; omega
        simp only [State.finishUnits]
        rw [if_neg hn]
        simp only [ho, Memory.write_append]
        simp only [State.succeed, State.complete, List.append_assoc, List.length_append]
    rw [runUnits, hstep]
    cases unitsFrom i s.inputBytes 0 w with
    | ok r => rfl
    | error f => rfl
  | succ k ih =>
    have hstep : unitStep i { s with outBuf := { cells := Memory.write [] 0 acc, epoch := e }, work := w } =
        match unitAt i s.inputBytes w with
        | .error f => .next (s.raise f)
        | .ok (w', d) => .next { s with outBuf := { cells := Memory.write [] 0 (acc ++ d), epoch := e },
                                        work := { w' with op := acc.length + d.length, left := some k } } := by
      unfold unitStep
      simp only [hl]
      have hin : State.inputBytes { s with outBuf := { cells := Memory.write [] 0 acc, epoch := e }, work := w } =
        s.inputBytes := rfl
      rw [hin]
      cases hd : unitAt i s.inputBytes w with
      | error f => rfl
      | ok x =>
        obtain ⟨w', d⟩ := x
        have hop : w'.op = acc.length := by
          have := unitAt_own i s.inputBytes w w.op w.left
          have e2 : { w with op := w.op, left := w.left } = w := rfl
          rw [e2, hd] at this
          simp only [Except.map, Except.ok.injEq, Prod.mk.injEq, and_true] at this
          rw [this, ho]
        have hc : acc.length + d.length ≤ s.par.outCap := by
          rcases hfit with ⟨r, hr, hc⟩ | ⟨ht, h0, h1, h2, h3, -⟩
          · simp only [unitsFrom, hd, bind_eq_ok] at hr
            obtain ⟨x, hx, r', -, hr⟩ := hr
            cases hx; cases hr
            simp only [List.length_append] at hc
            omega
          · have := unitAt_decode_bound ht (by rw [length_inputBytes]; exact h2) (fun h => (h0 h).resolve_right (by omega)) hd
            rw [length_inputBytes] at this
            omega
        have hn : ¬ s.par.outCap < w'.op + d.length := by omega
        simp only [State.emit]
        rw [if_neg hn]
        simp only [hop, Memory.write_append]
    rw [runUnits, hstep]
    simp only [unitsFrom, bind, Except.bind]
    cases hd : unitAt i s.inputBytes w with
    | error f => rfl
    | ok x =>
      obtain ⟨w', d⟩ := x
      simp only
      rw [if_pos (show s.phase = .busy from hp)]
      have hw := unitsFrom_own i s.inputBytes k w' (acc.length + d.length) (some k)
      rw [ih { w' with op := acc.length + d.length, left := some k } (acc ++ d) rfl (by simp), hw]
      · cases unitsFrom i s.inputBytes k w' with
        | error f => rfl
        | ok r => simp only [List.append_assoc]
      · rw [hw]
        rcases hfit with ⟨r, hr, hc⟩ | ⟨ht, h0, h1, h2, h3, h4⟩
        · simp only [unitsFrom, hd, bind_eq_ok] at hr
          obtain ⟨x, hx, r', hr', hr⟩ := hr
          cases hx; cases hr
          exact .inl ⟨r', hr', by simpa [List.append_assoc] using hc⟩
        · have := unitAt_decode_bound ht (by rw [length_inputBytes]; exact h2) (fun h => (h0 h).resolve_right (by omega)) hd
          rw [length_inputBytes] at this
          refine .inr ⟨ht, fun h => .inr ?_, ?_, this.2, h3, fun h => ?_⟩
          · have := h4 h; omega
          · simp only [List.length_append]; omega
          · have := h4 h; omega

end Sys2Proof.Machine
end

