-- ==== Sys2Proof/Laws/Invariant.lean ====
section
/-! SUPPORT. Each kind of step by itself keeps the invariant of `Safety.lean`, and how it changes `PHASE`. -/

namespace Sys2Proof.Machine

/-- Free working registers keep their widths. -/
theorem workFree_lt (l d : Nat) : (Work.free l d).ip < 2^l ∧ (Work.free l d).op < 2^l ∧ (Work.free l d).lenS < 2^l ∧
    (Work.free l d).padCnt < 2^l ∧ (Work.free l d).lineStart < 2^l ∧ (Work.free l d).lineEnd < 2^l ∧
    (Work.free l d).bodyEnd < 2^l := by
  have : 0 < 2^l := by positivity
  refine ⟨?_, ?_, ?_, ?_, ?_, ?_, ?_⟩ <;> exact Nat.mod_lt _ this

/-- Completion keeps the invariant. -/
theorem wf_complete {s : State} (h : s.wf) (st : Status) (pos len : Nat) (out : Memory)
    (h1 : pos < 2 ^ s.par.lenw) (h2 : len ≤ s.par.outCap) (h3 : Memory.wf s.par.outCap out)
    (h4 : st ≠ .ok → len = 0) (h5 : st = .ok → pos = 0) (h6 : st ≠ .failed .ioFailure)
      (h7 : st ≠ .failed .outOfMemory) :
    (s.complete st pos len out).wf := by
  obtain ⟨p, ⟨r1, r2, r3, r4, r5⟩, ⟨m1, m2, m3, m4⟩, hr, hw⟩ := h
  have := workFree_lt s.par.lenw s.draws
  refine ⟨p, ⟨r1, r2, r3, lt_of_le_of_lt h2 p.2.1, h1⟩, ⟨m1, h3, m3, m4⟩, ⟨h4, h5, h6, h7, by simp, h2⟩, ?_⟩
  obtain ⟨a1, a2, a3, a4, a5, a6, a7⟩ := this
  exact ⟨a1, a2, a3, a4, a5, a6, a7, by simp⟩

/-- A failure keeps the invariant. -/
theorem wf_raise {s : State} (h : s.wf) (f : Failure) (h1 : f.pos < 2 ^ s.par.lenw) (h6 : f.kind ≠ .ioFailure)
    (h7 : f.kind ≠ .outOfMemory) :
    (s.raise f).wf :=
  wf_complete h _ _ _ _ h1 (Nat.zero_le _) (Memory.wf_nil _) (fun _ => rfl) (by simp) (by simpa using h6) (by simpa using h7)

/-- A kind the core may produce (R242). -/
def CoreKind (k : FailKind) : Prop := k ≠ .ioFailure ∧ k ≠ .outOfMemory

/-- The core never produces the host's two kinds (R242). -/
theorem ownResult_kind {i : Instr} {t mode name : Bytes} {e : Failure}
    (hf : ownResult i t mode name = .error e) : CoreKind e.kind := by
  cases i <;> simp only [ownResult] at hf
  case b64Enc => cases hf
  case b64uEnc => cases hf
  case b32Enc => cases hf
  case b16Enc => cases hf
  case uulEnc => cases hf
  case uufEnc => cases hf
  case uucEnc =>
    simp only [encUUC] at hf
    split at hf <;> cases hf
    simp [CoreKind]
  case b64Dec => rcases (decB64_error hf).2 with h | h | h <;> rw [h] <;> simp [CoreKind]
  case b64uDec => rcases (decB64_error hf).2 with h | h | h <;> rw [h] <;> simp [CoreKind]
  case b32Dec => rcases (decB32_error hf).2 with h | h <;> rw [h] <;> simp [CoreKind]
  case b16Dec => rcases (decB16_error hf).2 with h | h <;> rw [h] <;> simp [CoreKind]
  case uulDec => rcases (decUUL_error hf).2 with h | h <;> rw [h] <;> simp [CoreKind]
  case uucDec => rcases (decUUC_error hf).2.2 with h | h <;> rw [h] <;> simp [CoreKind]
  case uufDec => rcases (decUUF_error hf).2 with h | h | h <;> rw [h] <;> simp [CoreKind]

/-- A command keeps the invariant. -/
theorem wf_exec {s t : State} {i : Instr} (h : s.wf) (he : exec i s = .next t) : t.wf := by
  have hz : 0 < 2 ^ s.par.lenw := by positivity
  rcases exec_cases he with ⟨_, rfl⟩ | ⟨_, f, hf, rfl⟩ | ⟨hfit, d, hd, rfl⟩
  · exact wf_raise h _ hz (by simp) (by simp)
  · have h1 := ownResult_pos hf
    have h2 := ownResult_kind hf
    simp at h1
    exact wf_raise h _ (lt_of_le_of_lt h1 h.2.1.1) h2.1 h2.2
  · have h1 := ownResult_length hd
    have h2 := ((fits_iff s i).1 hfit).2.2
    simp at h1
    refine wf_complete h _ _ _ _ hz (by omega) (Memory.wf_write (Memory.wf_nil _) (by simp; omega)) (by simp) (by simp) (by simp) (by simp)

/-- An illegal word keeps the invariant. -/
theorem wf_takeIllegal {s : State} (h : s.wf) : s.takeIllegal.wf :=
  wf_raise h _ (by positivity) (by simp) (by simp)

/-- A turn of the core keeps the invariant. -/
theorem wf_coreTurn {s t : State} (h : s.wf) (hc : coreTurn s = .next t) : t.wf ∧ t.par = s.par := by
  rcases coreTurn_cases s with ⟨_, e⟩ | ⟨_, i, _, e⟩ | ⟨_, _, _, e⟩ <;> rw [e] at hc
  · cases hc; exact ⟨h, rfl⟩
  · refine ⟨wf_exec h hc, ?_⟩
    rcases exec_cases hc with ⟨_, rfl⟩ | ⟨_, f, hf, rfl⟩ | ⟨hfit, d, hd, rfl⟩ <;> rfl
  · cases hc; exact ⟨wf_takeIllegal h, rfl⟩

/-- `START` keeps the invariant. -/
theorem wf_start {s : State} (h : s.wf) : s.start.wf := by
  obtain ⟨p, r, m, ⟨h1, h2, h3, h4, h5, h6⟩, hw⟩ := h
  have hz : 0 < 2 ^ s.par.lenw := by positivity
  exact ⟨p, r, m, ⟨h1, h2, h3, h4, by simp [State.start], h6⟩, ⟨hz, hz, hz, hz, hz, hz, hz, fun _ => ⟨Nat.zero_le _,
    Nat.zero_le _⟩⟩⟩

/-- A host access keeps the invariant. -/
theorem wf_hostAccess {a : Access} {s t : State} (h : s.wf) (hc : hostAccess a s = .next t) : t.wf ∧ t.par = s.par := by
  have hz : 0 < 2 ^ s.par.lenw := by positivity
  rcases hostAccess_cases hc with ⟨r, rfl, rfl⟩ | ⟨r, v, rfl, hp, rfl⟩ | ⟨sp, i, rfl, hi, rfl⟩ | ⟨sp, i, v, rfl, hp, hi, rfl⟩
  · unfold State.hostReadReg; split <;> exact ⟨h, rfl⟩
  · obtain ⟨p, ⟨r1, r2, r3, r4, r5⟩, m, hr, ⟨w1, w2, w3, w4, w5, w6, w7, w8⟩⟩ := h
    have hw : ∀ x : Nat, s.phase = .busy → s.work.ip ≤ x ∧ s.work.op ≤ s.par.outCap := fun _ hb => absurd hb hp
    refine ⟨?_, by cases r <;> simp only [State.writeReg] <;> split <;> rfl⟩
    cases r <;> simp only [State.writeReg]
    · exact ⟨p, ⟨r1, r2, r3, r4, r5⟩, m, hr, ⟨w1, w2, w3, w4, w5, w6, w7, w8⟩⟩
    · exact ⟨p, ⟨Nat.mod_lt _ hz, r2, r3, r4, r5⟩, m, hr, ⟨w1, w2, w3, w4, w5, w6, w7, hw _⟩⟩
    · exact ⟨p, ⟨r1, Nat.mod_lt _ hz, r3, r4, r5⟩, m, hr, ⟨w1, w2, w3, w4, w5, w6, w7, w8⟩⟩
    · exact ⟨p, ⟨r1, r2, Nat.mod_lt _ hz, r4, r5⟩, m, hr, ⟨w1, w2, w3, w4, w5, w6, w7, w8⟩⟩
    · split
      · exact wf_start ⟨p, ⟨r1, r2, r3, r4, r5⟩, m, hr, ⟨w1, w2, w3, w4, w5, w6, w7, w8⟩⟩
      · exact ⟨p, ⟨r1, r2, r3, r4, r5⟩, m, hr, ⟨w1, w2, w3, w4, w5, w6, w7, w8⟩⟩
    all_goals exact ⟨p, ⟨r1, r2, r3, r4, r5⟩, m, hr, ⟨w1, w2, w3, w4, w5, w6, w7, w8⟩⟩
  · unfold State.hostReadByte; split <;> exact ⟨h, rfl⟩
  · obtain ⟨p, r, ⟨m1, m2, m3, m4⟩, hr, hw⟩ := h
    cases sp
    · exact ⟨⟨p, r, ⟨Memory.wf_set v m1 hi, m2, m3, m4⟩, hr, hw⟩, rfl⟩
    · exact ⟨⟨p, r, ⟨m1, Memory.wf_set v m2 hi, m3, m4⟩, hr, hw⟩, rfl⟩
    · exact ⟨⟨p, r, ⟨m1, m2, Memory.wf_set v m3 hi, m4⟩, hr, hw⟩, rfl⟩
    · exact ⟨⟨p, r, ⟨m1, m2, m3, Memory.wf_set v m4 hi⟩, hr, hw⟩, rfl⟩

/-- The reset input keeps the invariant. -/
theorem wf_reset {s : State} (h : s.wf) : s.applyReset.wf := by
  have hz : 0 < 2 ^ s.par.lenw := by positivity
  refine ⟨h.1, ⟨hz, hz, hz, hz, hz⟩, ⟨Memory.wf_nil _, Memory.wf_nil _, Memory.wf_nil _, Memory.wf_nil _⟩, ?_,
    ⟨Nat.mod_lt _ hz, Nat.mod_lt _ hz, Nat.mod_lt _ hz, Nat.mod_lt _ hz, Nat.mod_lt _ hz, Nat.mod_lt _ hz,
    Nat.mod_lt _ hz, fun h => by cases h⟩⟩
  exact ⟨fun h => absurd rfl h, fun _ => rfl, by simp [State.applyReset, State.reset], by simp [State.applyReset,
    State.reset], fun _ => ⟨rfl, rfl⟩, Nat.zero_le _⟩

/-- Working registers inside their widths, `IP` inside the input (R31, R33). -/
structure WorkBound (L n : Nat) (w : Work) : Prop where
  ip : w.ip < 2^L
  lenS : w.lenS < 2^L
  padCnt : w.padCnt < 2^L
  ls : w.lineStart < 2^L
  le : w.lineEnd < 2^L
  be : w.bodyEnd < 2^L
  ipn : w.ip ≤ n

/-- The pre-scan leaves bounded working registers. -/
theorem preScan_bound {i : Instr} {t m f : Bytes} {w : Work} {d : Bytes} {L : Nat} (ht : t.length < 2^L)
    (h : preScan i t m f = .ok (w, d)) : WorkBound L t.length w := by
  have hz : 0 < 2 ^ L := by positivity
  have base : ∀ (k n : Nat), k ≤ t.length → WorkBound L t.length { Work.init with lenS := k, left := some n } := fun k n hk =>
    ⟨hz, lt_of_le_of_lt hk ht, hz, hz, hz, hz, Nat.zero_le _⟩
  cases i <;> simp only [preScan, bind_eq_ok] at h
  case uucEnc => split at h <;> cases h; exact base _ _ le_rfl
  case b16Dec => split at h <;> cases h; exact base _ _ le_rfl
  case uulDec => split at h <;> cases h; exact base _ _ le_rfl
  case b64Dec => obtain ⟨u, hu, h⟩ := h; cases h; exact base _ _ (prepare64_eq_ok hu)
  case b64uDec => obtain ⟨u, hu, h⟩ := h; cases h; exact base _ _ (prepare64_eq_ok hu)
  case b32Dec =>
    cases h
    have h1 := length_stripCRLF_le t
    exact ⟨hz, lt_of_le_of_lt h1 ht, by simp only; omega, hz, hz, hz, Nat.zero_le _⟩
  case uufDec =>
    obtain ⟨⟨a, b⟩, hb, h⟩ := h
    cases h
    have h1 := length_bodyOf hb
    obtain ⟨_, e1, e2⟩ := findBody_eq_ok hb
    have e1' := findSub_eq_some e1
    have e2' := findSub_eq_some e2
    have l1 : a < t.length := by
      have := e1'.2.2.1.length_le
      simp at this; omega
    have l2 : b ≤ t.length := by have := e2'.2.1; simp at this; omega
    exact ⟨by simp only; omega, by simp only; omega, hz, hz, hz, by simp only; omega, by simp only; omega⟩
  all_goals cases h; exact base _ _ le_rfl

/-- Moving `IP` keeps them bounded (R31). -/
theorem workBound_advance {L : Nat} {w : Work} {t : Bytes} (a : Nat) (ht : t.length < 2^L)
    (h : WorkBound L t.length w) : WorkBound L t.length (w.advance a t) :=
  ⟨by simp only [Work.advance]; omega, h.lenS, h.padCnt, h.ls, h.le, h.be, by simp only [Work.advance]; omega⟩

/-- The end of a body line. -/
theorem lineEndAt_lt {t : Bytes} {ip be L : Nat} (ht : t.length < 2^L) (h1 : ip < 2^L)
    (h2 : be < 2^L) : lineEndAt t ip be < 2^L := by
  unfold lineEndAt
  split
  · rename_i e he
    have := (findSub_eq_some he).2.1
    simp [sliceOf] at this
    omega
  · exact h2

/-- A unit leaves bounded working registers. -/
theorem unitAt_bound {i : Instr} {t : Bytes} {w w' : Work} {d : Bytes} {L : Nat} (ht : t.length < 2^L)
    (hw : WorkBound L t.length w)
    (h : unitAt i t w = .ok (w', d)) : WorkBound L t.length w' := by
  cases i <;> simp only [unitAt, bind_eq_ok] at h
  case uucEnc => cases h; have := workBound_advance t.length ht hw; exact { this with le := ht }
  case uufEnc =>
    cases h; have := workBound_advance (w.ip + chunkSize) ht hw; exact { this with ls := hw.ip, le := by simp only; omega }
  case b32Dec =>
    obtain ⟨⟨a, b, c⟩, _, h⟩ := h; cases h
    have := workBound_advance (w.ip + 1) ht hw
    exact { this with }
  case uucDec => obtain ⟨_, _, h⟩ := h; cases h; have := workBound_advance t.length ht hw; exact { this with le := ht }
  case uufDec =>
    obtain ⟨_, _, h⟩ := h; cases h
    have := workBound_advance (lineEndAt t w.ip w.bodyEnd + 1) ht hw; exact { this with ls := hw.ip, le := lineEndAt_lt ht hw.ip hw.be }
  case b64Dec => obtain ⟨_, _, h⟩ := h; cases h; exact workBound_advance _ ht hw
  case b64uDec => obtain ⟨_, _, h⟩ := h; cases h; exact workBound_advance _ ht hw
  case b16Dec => obtain ⟨_, _, h⟩ := h; cases h; exact workBound_advance _ ht hw
  case uulDec => obtain ⟨_, _, h⟩ := h; cases h; exact workBound_advance _ ht hw
  all_goals cases h; exact workBound_advance _ ht hw

/-- A failure of a group of four. -/
theorem onFour_error {g : Bytes} {f : Byte → Byte → Byte → Byte → Except Failure Bytes} {e : Failure}
    (h : onFour g f = .error e) :
    g.length = 4 ∧ ∃ a b c d, f a b c d = .error e := by
  unfold onFour at h
  split at h
  · exact ⟨rfl, _, _, _, _, h⟩
  · cases h

/-- A failure of a pair. -/
theorem onTwo_error {g : Bytes} {f : Byte → Byte → Except Failure Bytes} {e : Failure} (h : onTwo g f = .error e) :
    g.length = 2 ∧ ∃ a b, f a b = .error e := by
  unfold onTwo at h
  split at h
  · exact ⟨rfl, _, _, h⟩
  · cases h

/-- A unit's failure lies in range (R28). -/
theorem unitAt_error_range {i : Instr} {t : Bytes} {w : Work} {e : Failure} {L : Nat} (ht : t.length < 2^L)
    (hw : WorkBound L t.length w)
    (h : unitAt i t w = .error e) : e.pos < 2^L ∧ CoreKind e.kind := by
  cases i <;> simp only [unitAt, bind_eq_error] at h
  case b64Dec =>
    rcases h with h | ⟨_, _, h⟩
    · obtain ⟨hl, _, _, _, _, h⟩ := onFour_error h
      simp [sliceOf] at hl
      have := decQuantum64_error h
      refine ⟨by omega, ?_⟩
      rcases this.2 with h | h <;> rw [h] <;> simp [CoreKind]
    · cases h
  case b64uDec =>
    rcases h with h | ⟨_, _, h⟩
    · obtain ⟨hl, _, _, _, _, h⟩ := onFour_error h
      simp [sliceOf] at hl
      have := decQuantum64_error h
      refine ⟨by omega, ?_⟩
      rcases this.2 with h | h <;> rw [h] <;> simp [CoreKind]
    · cases h
  case uulDec =>
    rcases h with h | ⟨_, _, h⟩
    · obtain ⟨hl, _, _, _, _, h⟩ := onFour_error h
      simp [sliceOf] at hl
      have := decGroupUU_error h
      refine ⟨by omega, ?_⟩
      rw [this.2.2]; simp [CoreKind]
    · cases h
  case b16Dec =>
    rcases h with h | ⟨_, _, h⟩
    · obtain ⟨hl, _, _, h⟩ := onTwo_error h
      simp [sliceOf] at hl
      have := decPair16_error h
      refine ⟨by omega, ?_⟩
      rw [this.2]; simp [CoreKind]
    · cases h
  case b32Dec =>
    rcases h with h | ⟨⟨_, _, _⟩, _, h⟩
    · have := decSymbol32_eq_error h
      refine ⟨by rw [this.1]; exact hw.ip, ?_⟩
      rcases this.2 with h | h <;> rw [h] <;> simp [CoreKind]
    · cases h
  case uucDec =>
    rcases h with h | ⟨_, _, h⟩
    · have := decUUC_error h
      refine ⟨by omega, ?_⟩
      rcases this.2.2 with h | h <;> rw [h] <;> simp [CoreKind]
    · cases h
  case uufDec =>
    rcases h with h | ⟨_, _, h⟩
    · have := decUUC_error h
      have h2 := hw.ip
      have h3 := hw.ipn
      simp [sliceOf] at this
      refine ⟨by omega, ?_⟩
      rcases this.2.2 with h | h <;> rw [h] <;> simp [CoreKind]
    · cases h
  all_goals cases h

/-- The pre-scan's failure lies in range. -/
theorem preScan_error_range {i : Instr} {t m f : Bytes} {e : Failure} 
    (h : preScan i t m f = .error e) : e.pos = 0 ∧ CoreKind e.kind := by
  cases i <;> simp only [preScan, bind_eq_error] at h
  case uucEnc => split at h <;> cases h; simp [CoreKind]
  case b16Dec => split at h <;> cases h; simp [CoreKind]
  case uulDec => split at h <;> cases h; simp [CoreKind]
  case b64Dec =>
    rcases h with h | ⟨_, _, h⟩
    · rw [prepare64_eq_error h]; simp [CoreKind]
    · cases h
  case b64uDec =>
    rcases h with h | ⟨_, _, h⟩
    · rw [prepare64_eq_error h]; simp [CoreKind]
    · cases h
  case uufDec =>
    rcases h with h | ⟨⟨_, _⟩, _, h⟩
    · rw [findBody_eq_error h]; simp [CoreKind]
    · cases h
  all_goals cases h

/-- The last unit's failure lies in range. -/
theorem lastUnit_error_range {i : Instr} {w : Work} {e : Failure} 
    (h : lastUnit i w = .error e) : e.pos = 0 ∧ CoreKind e.kind := by
  cases i <;> simp only [lastUnit, bind_eq_error] at h
  case b32Dec =>
    rcases h with h | ⟨_, _, h⟩
    · rw [checkTail32_eq_error h]; simp [CoreKind]
    · cases h
  all_goals cases h

/-- Delivering bytes keeps the invariant (R70). -/
theorem wf_emit {s t : State} {w : Work} {d : Bytes} (c : Memory) (hc : c = [] ∨ c = s.outBuf.cells) (h : s.wf)
    (hw : WorkBound s.par.lenw s.inLen w)
    (he : ({ s with outBuf := { s.outBuf with cells := c } } : State).emit w d = .next t) : t.wf ∧ t.par = s.par := by
  simp only [State.emit] at he
  split at he
  · cases he
  · rename_i ho
    have ho := Nat.le_of_not_lt ho
    cases he
    obtain ⟨p, r, ⟨m1, m2, m3, m4⟩, hr, _⟩ := h
    have hc' : Memory.wf s.par.outCap c := by rcases hc with rfl | rfl; exact Memory.wf_nil _; exact m2
    have hp := p.2.1
    refine ⟨⟨p, r, ⟨m1, Memory.wf_write hc' ho, m3, m4⟩, hr, ⟨hw.ip, by simp only; omega, hw.lenS, hw.padCnt, hw.ls,
      hw.le, hw.be, fun _ => ⟨hw.ipn, ho⟩⟩⟩, rfl⟩

/-- A unit step keeps the invariant. -/
theorem wf_unitStep {s t : State} {i : Instr} (h : s.wf) (hb : s.phase = .busy) (hc : unitStep i s = .next t) : t.wf ∧
    t.par = s.par := by
  have hz : 0 < 2 ^ s.par.lenw := by positivity
  have hlen : s.inputBytes.length < 2 ^ s.par.lenw := by rw [length_inputBytes]; exact h.2.1.1
  obtain ⟨w1, w2, w3, w4, w5, w6, w7, w8⟩ := h.2.2.2.2
  have hwb : WorkBound s.par.lenw s.inLen s.work := ⟨w1, w3, w4, w5, w6, w7, (w8 hb).1⟩
  unfold unitStep at hc
  split at hc
  · split at hc
    · split at hc
      · rename_i f hf
        cases hc
        have := preScan_error_range hf
        exact ⟨wf_raise h _ (by omega) this.2.1 this.2.2, rfl⟩
      · rename_i w d hpre
        have := preScan_bound hlen hpre
        rw [length_inputBytes] at this
        exact wf_emit [] (.inl rfl) h this hc
    · cases hc; exact ⟨wf_raise h _ hz (by simp) (by simp), rfl⟩
  · split at hc
    · rename_i f hf
      cases hc
      have := lastUnit_error_range hf
      exact ⟨wf_raise h _ (by omega) this.2.1 this.2.2, rfl⟩
    · rename_i d hd
      simp only [State.finishUnits] at hc
      split at hc
      · cases hc
      · rename_i ho
        cases hc
        have ho := Nat.le_of_not_lt ho
        refine ⟨wf_complete h _ _ _ _ hz ?_ (Memory.wf_write h.2.2.1.2.1 ho) (by simp) (by simp) (by simp) (by simp),
          rfl⟩
        simp at ho; omega
  · rename_i k _
    split at hc
    · rename_i f hf
      cases hc
      have := unitAt_error_range hlen (by rwa [length_inputBytes]) hf
      exact ⟨wf_raise h _ this.1 this.2.1 this.2.2, rfl⟩
    · rename_i w d hd
      have := unitAt_bound hlen (by rwa [length_inputBytes]) hd
      rw [length_inputBytes] at this
      have h2 : WorkBound s.par.lenw s.inLen { w with left := some k } := { this with }
      exact wf_emit s.outBuf.cells (.inr rfl) h h2 hc

/-- How a turn of the core changes `PHASE` (R25). -/
theorem coreTurn_phase {s t : State} (h : coreTurn s = .next t) : t = s ∧ s.phase ≠ .busy ∨ (t.phase = .done ∧
    s.phase = .busy) := by
  rcases coreTurn_cases s with ⟨hp, e⟩ | ⟨hp, i, _, e⟩ | ⟨hp, _, _, e⟩ <;> rw [e] at h
  · cases h; exact .inl ⟨rfl, hp⟩
  · refine .inr ⟨?_, hp⟩
    rcases exec_cases h with ⟨_, rfl⟩ | ⟨_, f, hf, rfl⟩ | ⟨hfit, d, hd, rfl⟩ <;> rfl
  · cases h; exact .inr ⟨rfl, hp⟩

/-- How a unit step changes `PHASE` (R25). -/
theorem unitTurn_phase {s t : State} (h : unitTurn s = .next t) : t = s ∧ s.phase ≠ .busy ∨ (t.phase = s.phase ∧
    s.phase = .busy) ∨ (t.phase = .done ∧ s.phase = .busy) := by
  unfold unitTurn at h
  split at h
  · cases h; exact .inl ⟨rfl, by simp [*]⟩
  · cases h; exact .inl ⟨rfl, by simp [*]⟩
  · rename_i hb
    split at h
    · rcases unitStep_cases h with ⟨f, rfl⟩ | ⟨c, w, d, _, _, rfl⟩ | ⟨d, _, rfl⟩
      · exact .inr (.inr ⟨rfl, hb⟩)
      · exact .inr (.inl ⟨rfl, hb⟩)
      · exact .inr (.inr ⟨rfl, hb⟩)
    · cases h; exact .inr (.inr ⟨rfl, hb⟩)

end Sys2Proof.Machine
end

