-- ==== Sys2Proof/Laws/PerInstr.lean ====
section
/-! SUPPORT. Statements for every command by itself, about the command as syntax. -/

namespace Sys2Proof.Laws

/-- R91, R93: the `CMD` value that R90's table gives a command is the word of its fields, and the command stands in the
table once. -/
def CommandWord.Statement (i : Instr) : Prop :=
  encode i = i.fields.zero ++ i.fields.codec ++ i.fields.dir ∧ fieldsOf (encode i) = i.fields ∧ Instr.all.count i = 1

theorem CommandWord.b64Enc : CommandWord.Statement .b64Enc := by unfold CommandWord.Statement; decide
theorem CommandWord.b64Dec : CommandWord.Statement .b64Dec := by unfold CommandWord.Statement; decide
theorem CommandWord.b64uEnc : CommandWord.Statement .b64uEnc := by unfold CommandWord.Statement; decide
theorem CommandWord.b64uDec : CommandWord.Statement .b64uDec := by unfold CommandWord.Statement; decide
theorem CommandWord.b32Enc : CommandWord.Statement .b32Enc := by unfold CommandWord.Statement; decide
theorem CommandWord.b32Dec : CommandWord.Statement .b32Dec := by unfold CommandWord.Statement; decide
theorem CommandWord.b16Enc : CommandWord.Statement .b16Enc := by unfold CommandWord.Statement; decide
theorem CommandWord.b16Dec : CommandWord.Statement .b16Dec := by unfold CommandWord.Statement; decide
theorem CommandWord.uulEnc : CommandWord.Statement .uulEnc := by unfold CommandWord.Statement; decide
theorem CommandWord.uulDec : CommandWord.Statement .uulDec := by unfold CommandWord.Statement; decide
theorem CommandWord.uucEnc : CommandWord.Statement .uucEnc := by unfold CommandWord.Statement; decide
theorem CommandWord.uucDec : CommandWord.Statement .uucDec := by unfold CommandWord.Statement; decide
theorem CommandWord.uufEnc : CommandWord.Statement .uufEnc := by unfold CommandWord.Statement; decide
theorem CommandWord.uufDec : CommandWord.Statement .uufDec := by unfold CommandWord.Statement; decide

end Sys2Proof.Laws
end

