-- ==== Sys2Proof/Laws/Script.lean ====
section
/-! SUPPORT. What the lines of a host script do (R99), said once for `RUN` and `MOVE`, and what a run of `unit` events does
(R235). -/

namespace Sys2Proof.Machine

/-- The state in which a `RUN` line's command begins: the word in `CMD`, the command started, nothing else pending. -/
def State.ready (s : State) (i : Instr) : State := { s with cmd := encode i, phase := .busy, work := Work.init, pending := [] }

theorem decode_encode (i : Instr) : decode (encode i) = .ok i := by cases i <;> rfl

theorem ofNat_encode (i : Instr) : BitVec.ofNat 8 (encode i).toNat = encode i := by cases i <;> rfl

/-- One event of a script. -/
theorem playEvents_cons {e : Event} {es : List Event} {s t : State} (h : step { s with pending := [e] } = .next t) :
    playEvents (e :: es) s = playEvents es t := by
  rw [playEvents, h]

/-- A unit step of a started command is a step whose oldest event is `unit` (R235). -/
theorem step_unit {s : State} {i : Instr} {rest : List Event} (hp : s.phase = .busy) (hd : decode s.cmd = .ok i)
    (hpe : s.pending = .unit :: rest) : step s = unitStep i { s with pending := rest } := by
  simp only [step, hpe, unitTurn, hp, hd]

/-- Unit steps change neither the command word nor what is pending. -/
theorem unitStep_keeps {i : Instr} {s t : State} (h : unitStep i s = .next t) : t.cmd = s.cmd ∧ t.pending = s.pending := by
  rcases unitStep_cases h with ⟨f, rfl⟩ | ⟨c, w, d, -, -, rfl⟩ | ⟨d, -, rfl⟩ <;> exact ⟨rfl, rfl⟩

/-- A run of `unit` events makes the unit steps of the started command; those after its end change nothing (R235, R275). -/
theorem playEvents_units {i : Instr} (n : Nat) {s : State} (hp : s.phase = .busy) (hd : decode s.cmd = .ok i)
    (hpe : s.pending = []) : playEvents (List.replicate n .unit) s = runUnits i n s := by
  have idle : ∀ (n : Nat) (t : State), t.phase ≠ .busy → t.pending = [] →
      playEvents (List.replicate n .unit) t = .next t := by
    intro n
    induction n with
    | zero => intro t _ _; rfl
    | succ n ih =>
      intro t ht htp
      have h1 : step { t with pending := [.unit] } = .next t := by
        simp only [step, unitTurn]
        split
        · rw [← htp]
        · rw [← htp]
        · exact absurd ‹_› ht
      rw [List.replicate_succ, playEvents_cons h1, ih t ht htp]
  induction n generalizing s with
  | zero => rfl
  | succ n ih =>
    have h1 : step { s with pending := [.unit] } = unitStep i s := by
      rw [step_unit (s := { s with pending := [.unit] }) hp hd rfl, ← hpe]
    rw [List.replicate_succ, playEvents, h1, runUnits]
    cases hu : unitStep i s with
    | fault f => rfl
    | refused r => rfl
    | next t =>
      obtain ⟨h2, h3⟩ := unitStep_keeps hu
      simp only
      split
      · exact ih (by assumption) (by rw [h2, hd]) (by rw [h3, hpe])
      · exact idle n t (by assumption) (by rw [h3, hpe])

/-- A `RUN` line: the command runs from `ready`, and the host then reads `PHASE` as `DONE`. -/
theorem playEvents_run {s t : State} {i : Instr} (hp : s.phase ≠ .busy) (ht : exec i (s.ready i) = .next t) :
    playEvents (Line.events s (.run i)) s = .next { t with lastRead := some 2, pending := [] } := by
  have hd : t.phase = .done := by
    rcases exec_cases ht with ⟨-, rfl⟩ | ⟨-, f, -, rfl⟩ | ⟨-, d, -, rfl⟩ <;> rfl
  have h1 : step { s with pending := [.host (.writeReg .cmd (encode i).toNat)] } =
      .next { s with cmd := encode i, pending := [] } := by
    simp only [step, hostAccess, hp, if_false, State.writeReg, ofNat_encode]
  have h2 : step { s with cmd := encode i, pending := [.host (.writeReg .ctrl 1)] } =
      .next { s with cmd := encode i, phase := .busy, work := Work.init, pending := [] } := by
    simp [step, hostAccess, hp, State.writeReg, State.start]
  have h3 : step { s.ready i with pending := [.core] } = .next t := by
    simp only [step, coreTurn, State.ready, decode_encode]
    exact ht
  have h4 : step { t with pending := [.host (.readReg .phase)] } = .next { t with lastRead := some 2, pending := [] } := by
    simp [step, hostAccess, State.hostReadReg, State.deliver, State.readReg, hd, Phase.code]
  exact (playEvents_cons h1).trans
    ((playEvents_cons h2).trans ((playEvents_cons (s := s.ready i) h3).trans (playEvents_cons h4)))

/-- The host's byte writes of a `MOVE` or `<-` line change the bytes of one buffer. -/
theorem playEvents_byteWrites (sp : Space) (a : Nat) (v : Bytes) (es : List Event) (s : State) (hp : s.phase ≠ .busy)
    (hc : a + v.length ≤ capOf s.par sp) (hpe : s.pending = []) :
    ∃ m : Memory, playEvents (byteWrites sp a v ++ es) s =
        playEvents es (s.setBuffer sp { s.buffer sp with cells := m }) ∧
      (∀ j, j < v.length → Memory.get? m (a + j) = v[j]?) ∧
      ∀ b, b < a ∨ a + v.length ≤ b → Memory.get? m b = Memory.get? (s.buffer sp).cells b := by
  induction v generalizing a s with
  | nil => exact ⟨(s.buffer sp).cells, by cases sp <;> rfl, fun j h => by simp at h, fun b _ => rfl⟩
  | cons x v ih =>
    simp only [List.length_cons] at hc
    have h1 : step { s with pending := [.host (.writeByte sp a x)] } = .next (s.setByte sp a x) := by
      have hn : ¬ capOf s.par sp ≤ a := by omega
      simp only [step, hostAccess, hp, hn, if_false]
      congr 1
      cases sp <;> simp [State.setByte, State.setBuffer, State.buffer, hpe]
    obtain ⟨m, hm, hin, hout⟩ := ih (a + 1) (s.setByte sp a x) (by cases sp <;> exact hp)
      (by cases sp <;> (simp only [capOf] at hc ⊢; simp only [State.setByte, State.setBuffer]; omega))
      (by cases sp <;> exact hpe)
    refine ⟨m, ?_, fun j hj => ?_, fun b hb => ?_⟩
    · rw [byteWrites, List.cons_append, playEvents_cons h1, hm]
      cases sp <;> rfl
    · cases j with
      | zero =>
        rw [Nat.add_zero, hout a (by omega)]
        cases sp <;> simp [State.setByte, State.setBuffer, State.buffer]
      | succ j =>
        rw [show a + (j + 1) = a + 1 + j by omega, hin j (by simpa using hj)]
        rfl
    · simp only [List.length_cons] at hb
      rw [hout b (by omega)]
      have hne : b ≠ a := by omega
      cases sp <;> simp [State.setByte, State.setBuffer, State.buffer, Memory.get?_set_other _ _ hne]

/-- A `MOVE` line: the result bytes become the input (R99). -/
theorem playEvents_move {s : State} (hp : s.phase ≠ .busy) (hpe : s.pending = []) (hc : s.outLen ≤ s.par.inCap)
    (hw : s.outLen < 2 ^ s.par.lenw) :
    ∃ m : Memory, playEvents (Line.events s .move) s =
        .next { s with inBuf := { s.inBuf with cells := m }, inLen := s.outLen } ∧
      State.inputBytes { s with inBuf := { s.inBuf with cells := m }, inLen := s.outLen } = s.outBuf.read .output 0 s.outLen := by
  obtain ⟨m, hm, hin, -⟩ := playEvents_byteWrites .input 0 (s.outBuf.read .output 0 s.outLen)
    [.host (.writeReg .inLen s.outLen)] s hp (by simpa [capOf] using hc) hpe
  refine ⟨m, ?_, ?_⟩
  · rw [Line.events, hm, playEvents_cons (t := { s with inBuf := { s.inBuf with cells := m }, inLen := s.outLen })]
    · rfl
    · simp only [State.setBuffer, State.buffer, step, hostAccess, hp, if_false, State.writeReg, Nat.mod_eq_of_lt hw, hpe]
  · refine List.ext_getElem (by simp) fun j h1 h2 => ?_
    have h3 : j < s.outLen := by simpa using h1
    have h4 := hin j (by simpa using h3)
    rw [Nat.zero_add, List.getElem?_eq_getElem h2] at h4
    simp only [State.inputBytes, Buffer.getElem_read, Buffer.byte, Nat.zero_add, h4]

end Sys2Proof.Machine
end

