-- ==== Sys2Proof/Laws/UnitSteps.lean ====
section
/-! SUPPORT. Codec by codec: the units of a command (R235) together give what its pure function gives (R227). -/

namespace Sys2Proof.Machine

theorem drop_min_length (t : Bytes) (a : Nat) : t.drop (min a t.length) = t.drop a := by
  by_cases h : a ≤ t.length
  · rw [Nat.min_eq_left h]
  · rw [Nat.min_eq_right (by omega), List.drop_length, List.drop_eq_nil_of_le (by omega)]

theorem sliceOf_append (pre g e : Bytes) : sliceOf (pre ++ (g ++ e)) pre.length g.length = g := by
  rw [sliceOf, List.drop_left, List.take_left]

/-! ### Encodes -/

theorem encSextets_split (sym : Nat → Byte) (fill : Byte) (b : Bytes) :
    encSextets sym fill b = encSextets sym fill (b.take 3) ++ encSextets sym fill (b.drop 3) := by
  match b with
  | [] => rfl
  | [_] => simp [encSextets]
  | [_, _] => simp [encSextets]
  | _ :: _ :: _ :: _ => simp [encSextets]

theorem encB32_split_five (b : Bytes) : encB32 b = encB32 (b.take 5) ++ encB32 (b.drop 5) := by
  match b with
  | [] => rfl
  | [_] => simp [encB32]
  | [_, _] => simp [encB32]
  | [_, _, _] => simp [encB32]
  | [_, _, _, _] => simp [encB32]
  | _ :: _ :: _ :: _ :: _ :: _ => simp [encB32]

theorem bodyLines_split (b : Bytes) : bodyLines b = bodyLines (b.take 60) ++ bodyLines (b.drop 60) := by
  by_cases h : b.length ≤ 60
  · rw [List.take_of_length_le h, List.drop_eq_nil_of_le h]
    simp [bodyLines, ceilDiv, chunkSize]
  · have hn : ceilDiv b.length chunkSize = ceilDiv (b.drop 60).length chunkSize + 1 := by
      simp only [ceilDiv, chunkSize, List.length_drop]
      omega
    have h1 : ceilDiv (b.take 60).length chunkSize = 1 := by
      simp only [ceilDiv, chunkSize, List.length_take]
      omega
    have hc : ∀ g, chunk b (g + 1) = chunk (b.drop 60) g := fun g => by
      simp only [chunk, chunkSize, List.drop_drop]
      rw [show 60 * (g + 1) = 60 + 60 * g by omega]
    have h0 : chunk (b.take 60) 0 = chunk b 0 := by simp [chunk, chunkSize]
    simp only [bodyLines, hn, h1, List.range_succ_eq_map, List.flatMap_cons, List.flatMap_map, hc, List.range_zero,
      List.map_nil, List.flatMap_nil, List.append_nil, h0, List.append_assoc]

/-- The units of an encode that takes `n` bytes a unit, with `last` behind them. -/
theorem unitsFrom_encode {i : Instr} {t last : Bytes} {n : Nat} {f : Bytes → Bytes} (hn : 0 < n) (h0 : f [] = [])
    (hs : ∀ b, f b = f (b.take n) ++ f (b.drop n)) (hl : ∀ w, lastUnit i w = .ok last)
    (hu : ∀ w : Work, w.ip < t.length → ∃ w' : Work, unitAt i t w = .ok (w', f (sliceOf t w.ip n)) ∧
      w'.ip = min (w.ip + n) t.length) (w : Work) :
    unitsFrom i t (ceilDiv (t.length - w.ip) n) w = .ok (f (t.drop w.ip) ++ last) := by
  obtain ⟨k, hk⟩ : ∃ k, k = ceilDiv (t.length - w.ip) n := ⟨_, rfl⟩
  rw [← hk]
  induction k generalizing w with
  | zero =>
    have : t.length ≤ w.ip := by
      by_contra hc
      have : 1 ≤ ceilDiv (t.length - w.ip) n := (Nat.one_le_div_iff hn).2 (by omega)
      omega
    rw [unitsFrom, hl, List.drop_eq_nil_of_le this, h0]
    rfl
  | succ k ih =>
    have hlt : w.ip < t.length := by
      by_contra hc
      have : ceilDiv (t.length - w.ip) n = 0 := by
        rw [ceilDiv, show t.length - w.ip = 0 by omega, Nat.zero_add]
        exact Nat.div_eq_of_lt (by omega)
      omega
    obtain ⟨w', h1, h2⟩ := hu w hlt
    have hk' : k = ceilDiv (t.length - w'.ip) n := by
      rw [h2]
      by_cases hc : w.ip + n ≤ t.length
      · rw [Nat.min_eq_left hc]
        have e : t.length - w.ip = t.length - (w.ip + n) + n := by omega
        simp only [ceilDiv] at hk ⊢
        rw [e, show t.length - (w.ip + n) + n + n - 1 = t.length - (w.ip + n) + n - 1 + n by omega,
          Nat.add_div_right _ hn] at hk
        omega
      · rw [Nat.min_eq_right (by omega), Nat.sub_self]
        simp only [ceilDiv] at hk ⊢
        rw [Nat.zero_add, Nat.div_eq_of_lt (show n - 1 < n by omega)]
        have : (t.length - w.ip + n - 1) / n ≤ 1 := by
          rw [show t.length - w.ip + n - 1 = t.length - w.ip - 1 + n by omega, Nat.add_div_right _ hn,
            Nat.div_eq_of_lt (by omega)]
        omega
    simp only [unitsFrom, h1, bind, Except.bind, ih w' hk', h2, drop_min_length]
    rw [hs (t.drop w.ip), List.drop_drop, sliceOf, List.append_assoc]

/-! ### Decodes -/

/-- The units of a Base64 text (R136). -/
theorem unitsFrom_b64 {i : Instr} {inv : Byte → Option Nat} {t : Bytes} (hl : ∀ w, lastUnit i w = .ok [])
    (hu : ∀ w : Work, unitAt i t w =
      (onFour (sliceOf t w.ip 4) (decQuantum64 inv (w.ip + 4 == w.lenS) w.ip)).bind fun d => .ok (w.advance (w.ip + 4) t, d))
    (rest pre e : Bytes) (w : Work) (ht : t = pre ++ (rest ++ e)) (h4 : rest.length % 4 = 0) (hip : w.ip = pre.length)
    (hs : w.lenS = pre.length + rest.length) :
    unitsFrom i t (rest.length / 4) w = decQuanta64 inv pre.length rest := by
  match rest with
  | [] => show unitsFrom i t 0 w = _; rw [unitsFrom, hl]; rfl
  | [_] => simp at h4
  | [_, _] => simp at h4
  | [_, _, _] => simp at h4
  | c0 :: c1 :: c2 :: c3 :: rest =>
    simp only [List.length_cons] at h4 hs
    have hsl : sliceOf t w.ip 4 = [c0, c1, c2, c3] := by
      rw [hip, ht]
      exact sliceOf_append pre [c0, c1, c2, c3] (rest ++ e)
    have hlast : (w.ip + 4 == w.lenS) = rest.isEmpty := by
      rw [hip, hs]
      cases rest with
      | nil => simp
      | cons => simp
    have ha : (w.advance (w.ip + 4) t).ip = (pre ++ [c0, c1, c2, c3]).length := by
      simp only [Work.advance, ht, List.length_append, List.length_cons, List.length_nil]
      omega
    have ih := unitsFrom_b64 hl hu rest (pre ++ [c0, c1, c2, c3]) e (w.advance (w.ip + 4) t) (by simp [ht]) (by omega) ha
      (by simp only [Work.advance, hs, List.length_append, List.length_cons, List.length_nil]; omega)
    rw [show (c0 :: c1 :: c2 :: c3 :: rest).length / 4 = rest.length / 4 + 1 by simp only [List.length_cons]; omega]
    simp only [unitsFrom, hu, hsl, onFour, hlast, decQuanta64, bind, Except.bind, unitsFrom] at ih ⊢
    rw [hip] at ih ⊢
    cases decQuantum64 inv rest.isEmpty pre.length c0 c1 c2 c3 with
    | error f => rfl
    | ok d =>
      simp only [ih]
      rw [show (pre ++ [c0, c1, c2, c3]).length = pre.length + 4 by simp]

/-- The units of a bare uuencode line (R184). -/
theorem unitsFrom_uul {t : Bytes} (rest pre : Bytes) (w : Work) (ht : t = pre ++ rest) (h4 : rest.length % 4 = 0)
    (hip : w.ip = pre.length) : unitsFrom .uulDec t (rest.length / 4) w = decGroupsUU pre.length rest := by
  match rest with
  | [] => rfl
  | [_] => simp at h4
  | [_, _] => simp at h4
  | [_, _, _] => simp at h4
  | c0 :: c1 :: c2 :: c3 :: rest =>
    simp only [List.length_cons] at h4
    have hsl : sliceOf t w.ip 4 = [c0, c1, c2, c3] := by
      rw [hip, ht]
      exact sliceOf_append pre [c0, c1, c2, c3] rest
    have ha : (w.advance (w.ip + 4) t).ip = (pre ++ [c0, c1, c2, c3]).length := by
      simp only [Work.advance, ht, List.length_append, List.length_cons, List.length_nil]
      omega
    have ih := unitsFrom_uul (t := t) rest (pre ++ [c0, c1, c2, c3]) (w.advance (w.ip + 4) t) (by simp [ht]) (by omega) ha
    rw [show (c0 :: c1 :: c2 :: c3 :: rest).length / 4 = rest.length / 4 + 1 by simp only [List.length_cons]; omega]
    simp only [unitsFrom, unitAt, hsl, onFour, decGroupsUU, bind, Except.bind, unitsFrom] at ih ⊢
    rw [hip] at ih ⊢
    cases decGroupUU pre.length c0 c1 c2 c3 with
    | error f => rfl
    | ok d =>
      simp only [ih]
      rw [show (pre ++ [c0, c1, c2, c3]).length = pre.length + 4 by simp]

/-- The units of a Base16 text (R174). -/
theorem unitsFrom_b16 {t : Bytes} (rest pre : Bytes) (w : Work) (ht : t = pre ++ rest) (h2 : rest.length % 2 = 0)
    (hip : w.ip = pre.length) : unitsFrom .b16Dec t (rest.length / 2) w = decPairs16 pre.length rest := by
  match rest with
  | [] => rfl
  | [_] => simp at h2
  | c0 :: c1 :: rest =>
    simp only [List.length_cons] at h2
    have hsl : sliceOf t w.ip 2 = [c0, c1] := by
      rw [hip, ht]
      exact sliceOf_append pre [c0, c1] rest
    have ha : (w.advance (w.ip + 2) t).ip = (pre ++ [c0, c1]).length := by
      simp only [Work.advance, ht, List.length_append, List.length_cons, List.length_nil]
      omega
    have ih := unitsFrom_b16 (t := t) rest (pre ++ [c0, c1]) (w.advance (w.ip + 2) t) (by simp [ht]) (by omega) ha
    rw [show (c0 :: c1 :: rest).length / 2 = rest.length / 2 + 1 by simp only [List.length_cons]; omega]
    simp only [unitsFrom, unitAt, hsl, onTwo, decPairs16, bind, Except.bind, unitsFrom] at ih ⊢
    rw [hip] at ih ⊢
    cases decPair16 pre.length c0 c1 with
    | error f => rfl
    | ok d =>
      simp only [ih]
      rw [show (pre ++ [c0, c1]).length = pre.length + 2 by simp]

/-- The accumulator keeps below its valid bits (R230: at most 12 bits). -/
theorem decSymbol32_bound {i acc n acc' n' : Nat} {c : Byte} {d : Bytes} (hn : n < 8) (ha : acc < 2 ^ n)
    (h : decSymbol32 i acc n c = .ok (acc', n', d)) : n' < 8 ∧ acc' < 2 ^ n' := by
  simp only [decSymbol32, bind_eq_ok, dataSymbol_eq_ok] at h
  obtain ⟨v, ⟨-, hv⟩, h⟩ := h
  have hv := inv32_lt _ _ hv
  rw [shift_or_eq acc v 5 hv] at h
  split at h
  · cases h
    refine ⟨by omega, ?_⟩
    rw [Nat.one_shiftLeft, Nat.and_two_pow_sub_one_eq_mod]
    exact Nat.mod_lt _ (by positivity)
  · cases h
    refine ⟨by omega, ?_⟩
    rw [Nat.pow_add]
    omega

/-- The symbols of a Base32 text, and the tail checks in the last step (R154). -/
theorem unitsFrom_b32 {t : Bytes} (rest pre e : Bytes) (w : Work) (ht : t = pre ++ (rest ++ e)) (hip : w.ip = pre.length)
    (hn : w.nbits.toNat < 8) (ha : w.acc.toNat < 2 ^ w.nbits.toNat) :
    unitsFrom .b32Dec t rest.length w =
      (do let d ← decSymbols32 pre.length w.acc.toNat w.nbits.toNat rest
          checkTail32 (w.lenS - w.padCnt) w.padCnt
          .ok d) := by
  induction rest generalizing pre w with
  | nil => rfl
  | cons c rest ih =>
    have hc : t.getD pre.length 0x00#8 = c := by simp [ht, List.getD_eq_getElem?_getD]
    rw [List.length_cons]
    simp only [unitsFrom, unitAt, hc, hip, decSymbols32, bind, Except.bind]
    cases hd : decSymbol32 pre.length w.acc.toNat w.nbits.toNat c with
    | error f => rfl
    | ok x =>
      obtain ⟨acc', n', d⟩ := x
      obtain ⟨b1, b2⟩ := decSymbol32_bound hn ha hd
      have b3 : acc' < 2 ^ 40 := lt_of_lt_of_le b2 (Nat.pow_le_pow_right (by omega) (by omega))
      have e1 : (BitVec.ofNat 40 acc').toNat = acc' := by rw [BitVec.toNat_ofNat, Nat.mod_eq_of_lt b3]
      have e2 : (BitVec.ofNat 6 n').toNat = n' := by rw [BitVec.toNat_ofNat, Nat.mod_eq_of_lt (by omega)]
      have ih := ih (pre ++ [c]) { w.advance (pre.length + 1) t with acc := BitVec.ofNat 40 acc', nbits := BitVec.ofNat 6 n' }
        (by simp [ht]) (by simp only [Work.advance, ht, List.length_append, List.length_cons, List.length_nil]; omega)
        (by simp only [e2]; exact b1) (by simp only [e1, e2]; exact b2)
      simp only [e1, e2, bind, Except.bind, Work.advance] at ih
      simp only [Work.advance, ih]
      rw [show (pre ++ [c]).length = pre.length + 1 by simp]
      cases decSymbols32 (pre.length + 1) acc' n' rest with
      | error f => rfl
      | ok r =>
        simp only
        cases checkTail32 (w.lenS - w.padCnt) w.padCnt <;> rfl

/-- The lines of an envelope's body (R207). -/
theorem unitsFrom_uuf {t : Bytes} (n : Nat) (body pre e : Bytes) (w : Work) (hlen : body.length ≤ n)
    (ht : t = pre ++ (body ++ lf :: e)) (hip : w.ip = pre.length) (hbe : w.bodyEnd = pre.length + body.length) :
    unitsFrom .uufDec t (splitLines body).length w = decLines pre.length (splitLines body) := by
  induction n generalizing body pre w with
  | zero =>
    obtain rfl : body = [] := List.length_eq_zero_iff.1 (by omega)
    have he : lineEndAt t pre.length w.bodyEnd = pre.length := by
      simp [lineEndAt, hbe, sliceOf, findSub]
    simp only [splitLines, List.length_cons, List.length_nil, unitsFrom, unitAt, he, hip, Nat.sub_self, sliceOf,
      List.take_zero, decLines, lastUnit, bind, Except.bind]
    cases decUUC [] pre.length <;> rfl
  | succ n ih =>
    have hsl : sliceOf t w.ip (w.bodyEnd - w.ip) = body := by
      rw [hip, hbe, show pre.length + body.length - pre.length = body.length by omega, ht]
      exact sliceOf_append pre body (lf :: e)
    by_cases hm : lf ∈ body
    · obtain ⟨l, r, hb, hl⟩ := List.eq_append_cons_of_mem hm
      have he : lineEndAt t w.ip w.bodyEnd = pre.length + l.length := by
        rw [lineEndAt, hsl, hb, findSub_lf hl, hip]
      have hs2 : sliceOf t w.ip (pre.length + l.length - w.ip) = l := by
        rw [hip, show pre.length + l.length - pre.length = l.length by omega, ht, hb]
        have := sliceOf_append pre l (lf :: r ++ lf :: e)
        rw [← List.append_assoc l] at this
        exact this
      have hlen' : r.length ≤ n := by rw [hb] at hlen; simp only [List.length_append, List.length_cons] at hlen; omega
      have ha : ((w.advance (pre.length + l.length + 1) t).ip) = (pre ++ (l ++ [lf])).length := by
        simp only [Work.advance, ht, hb, List.length_append, List.length_cons, List.length_nil]
        omega
      have ih := ih r (pre ++ (l ++ [lf])) { w.advance (pre.length + l.length + 1) t with
          lineStart := w.ip, lineEnd := pre.length + l.length } hlen' (by simp [ht, hb]) ha
        (by simp only [Work.advance, hbe, hb, List.length_append, List.length_cons, List.length_nil]; omega)
      rw [hb, splitLines_cons hl]
      simp only [List.length_cons, unitsFrom, unitAt, he, hs2, decLines, bind, Except.bind]
      rw [hip]
      cases decUUC l pre.length with
      | error f => rfl
      | ok d =>
        rw [hip] at ih
        simp only [ih]
        rw [show (pre ++ (l ++ [lf])).length = pre.length + l.length + 1 by simp; omega]
    · have he : lineEndAt t w.ip w.bodyEnd = pre.length + body.length := by
        have : findSub [lf] w.ip body = none := findSub_eq_none_of (by
          rintro ⟨a, b, hab⟩
          exact hm (hab ▸ by simp))
        rw [lineEndAt, hsl, this, hbe]
      have hs2 : sliceOf t w.ip (pre.length + body.length - w.ip) = body := by rw [← hbe]; exact hsl
      rw [splitLines_line hm]
      simp only [List.length_cons, List.length_nil, unitsFrom, unitAt, he, hs2, decLines, lastUnit, bind, Except.bind]
      rw [hip]
      cases decUUC body pre.length <;> rfl

/-- The stripped text stands at the front of the input, and it is whole quanta (R136). -/
theorem prepare64_split {t u : Bytes} (h : prepare64 t = .ok u) : ∃ e, t = u ++ e ∧ u.length % 4 = 0 := by
  simp only [prepare64] at h
  split at h
  · cases h; exact ⟨t, rfl, rfl⟩
  · split at h
    · cases h
    · split at h
      · cases h
      · cases h
        obtain ⟨e, he⟩ := List.rdropWhile_prefix (p := isLineEnd) (l := t)
        exact ⟨e, he.symm, by omega⟩

/-- Where the header's LF and the sentinel stand, the body lies between two LFs (R207). -/
theorem findBody_split {t : Bytes} {h s : Nat} (hb : findBody t = .ok (h, s)) :
    h + 1 ≤ t.length ∧ (h < s → ∃ pre body e : Bytes, t = pre ++ (body ++ lf :: e) ∧ pre.length = h + 1 ∧
      s = h + 1 + body.length ∧ (t.take s).drop (h + 1) = body) := by
  obtain ⟨-, h1, h2⟩ := findBody_eq_ok hb
  have a := findSub_eq_some h1
  have b := findSub_eq_some h2
  have hl1 : h < t.length := by
    have := a.2.2.1.length_le
    simp only [List.length_cons, List.length_nil, List.length_drop] at this
    omega
  refine ⟨hl1, fun hlt => ?_⟩
  have hp : sentinel <+: t.drop s := by
    have := b.2.2.1
    rwa [List.drop_drop, show h + (s - h) = s by omega] at this
  obtain ⟨r, hr⟩ := hp
  have hls : s < t.length := by
    have := congrArg List.length hr
    simp only [List.length_append, List.length_drop, sentinel, endText, List.length_cons] at this
    omega
  have hbl : ((t.take s).drop (h + 1)).length = s - (h + 1) := by
    rw [List.length_drop, List.length_take]
    omega
  refine ⟨t.take (h + 1), (t.take s).drop (h + 1), [backtick, lf] ++ endText ++ r, ?_, ?_, ?_, rfl⟩
  · have e1 : lf :: ([backtick, lf] ++ endText ++ r) = t.drop s := hr
    rw [e1]
    have e2 : t.take (h + 1) = (t.take s).take (h + 1) := by rw [List.take_take, Nat.min_eq_left (by omega)]
    rw [e2, ← List.append_assoc, List.take_append_drop, List.take_append_drop]
  · rw [List.length_take]
    omega
  · rw [hbl]
    omega

/-- The pre-scan and the units of a command are its pure function, cut in pieces. -/
theorem preScan_units (i : Instr) (t mode name : Bytes) :
    (∀ f, preScan i t mode name = .error f → ownResult i t mode name = .error f) ∧
    ∀ w d, preScan i t mode name = .ok (w, d) → w.op = 0 ∧ ∃ k, w.left = some k ∧
      ownResult i t mode name = (unitsFrom i t k w).map (d ++ ·) ∧
      (tailOf i = [] → d = [] ∧ w.ip ≤ t.length ∧ (i = .uucDec → w.ip = 0 ∧ k ≤ 1)) := by
  have enc : ∀ (i : Instr) (f : Bytes → Bytes) (n : Nat) (last : Bytes) (w : Work), w.ip = 0 → 0 < n → f [] = [] →
      (∀ b, f b = f (b.take n) ++ f (b.drop n)) → (∀ w, lastUnit i w = .ok last) →
      (∀ w : Work, w.ip < t.length → ∃ w' : Work, unitAt i t w = .ok (w', f (sliceOf t w.ip n)) ∧
        w'.ip = min (w.ip + n) t.length) → unitsFrom i t (ceilDiv t.length n) w = .ok (f t ++ last) :=
    fun i f n last w h0 h1 h2 h3 h4 h5 => by
      have := unitsFrom_encode h1 h2 h3 h4 h5 w
      rwa [h0, Nat.sub_zero, List.drop_zero] at this
  cases i
  case b64Enc =>
    refine ⟨fun f h => (by cases h), fun w d h => ?_⟩
    cases h
    refine ⟨rfl, _, rfl, ?_, fun h => by cases h⟩
    rw [enc .b64Enc (encB64 a64) 3 [] _ rfl (by omega) rfl (encSextets_split _ _) (fun _ => rfl) fun w _ => ⟨_, rfl, rfl⟩]
    simp [ownResult, Except.map]
  case b64uEnc =>
    refine ⟨fun f h => (by cases h), fun w d h => ?_⟩
    cases h
    refine ⟨rfl, _, rfl, ?_, fun h => by cases h⟩
    rw [enc .b64uEnc (encB64 a64u) 3 [] _ rfl (by omega) rfl (encSextets_split _ _) (fun _ => rfl) fun w _ => ⟨_, rfl, rfl⟩]
    simp [ownResult, Except.map]
  case uulEnc =>
    refine ⟨fun f h => (by cases h), fun w d h => ?_⟩
    cases h
    refine ⟨rfl, _, rfl, ?_, fun h => by cases h⟩
    rw [enc .uulEnc encUUL 3 [] _ rfl (by omega) rfl (encSextets_split _ _) (fun _ => rfl) fun w _ => ⟨_, rfl, rfl⟩]
    simp [ownResult, Except.map]
  case b32Enc =>
    refine ⟨fun f h => (by cases h), fun w d h => ?_⟩
    cases h
    refine ⟨rfl, _, rfl, ?_, fun h => by cases h⟩
    rw [enc .b32Enc encB32 5 [] _ rfl (by omega) rfl encB32_split_five (fun _ => rfl) fun w _ => ⟨_, rfl, rfl⟩]
    simp [ownResult, Except.map]
  case b16Enc =>
    refine ⟨fun f h => (by cases h), fun w d h => ?_⟩
    cases h
    refine ⟨rfl, _, rfl, ?_, fun h => by cases h⟩
    have := enc .b16Enc encB16 1 [] { Work.init with lenS := t.length, left := some t.length } rfl (by omega) rfl
      (fun b => by cases b <;> simp [encB16]) (fun _ => rfl) fun w _ => ⟨_, rfl, rfl⟩
    rw [show ceilDiv t.length 1 = t.length by simp [ceilDiv]] at this
    rw [this]
    simp [ownResult, Except.map]
  case uufEnc =>
    refine ⟨fun f h => (by cases h), fun w d h => ?_⟩
    cases h
    refine ⟨rfl, _, rfl, ?_, fun h => by cases h⟩
    rw [enc .uufEnc bodyLines chunkSize trailer _ rfl (by decide) rfl bodyLines_split (fun _ => rfl) fun w hw => ?_]
    · simp [ownResult, encUUF, Except.map]
    · refine ⟨{ w.advance (w.ip + chunkSize) t with lineStart := w.ip, lineEnd := min (w.ip + chunkSize) t.length }, ?_, rfl⟩
      have hl : (sliceOf t w.ip chunkSize).length = min 60 (t.length - w.ip) := by simp [sliceOf, chunkSize]
      have h1 : ceilDiv (sliceOf t w.ip chunkSize).length chunkSize = 1 := by
        rw [hl]
        simp only [ceilDiv, chunkSize]
        omega
      have h2 : chunk (sliceOf t w.ip chunkSize) 0 = sliceOf t w.ip chunkSize := by simp [chunk, sliceOf, chunkSize]
      simp [unitAt, bodyLines, h1, h2, List.range_succ]
  case uucEnc =>
    simp only [preScan, ownResult, encUUC]
    by_cases hc : maxCount < t.length
    · simp only [if_pos hc]
      exact ⟨fun f h => by cases h; rfl, fun w d h => by cases h⟩
    · simp only [if_neg hc]
      refine ⟨fun f h => (by cases h), fun w d h => ?_⟩
      cases h
      refine ⟨rfl, 1, rfl, ?_, fun h => by cases h⟩
      simp [unitsFrom, unitAt, lastUnit, bind, Except.bind, Except.map]
  case b64Dec =>
    simp only [preScan, ownResult, decB64, bind, Except.bind]
    cases hp : prepare64 t with
    | error f => exact ⟨fun f h => by cases h; rfl, fun w d h => by cases h⟩
    | ok u =>
      refine ⟨fun f h => (by cases h), fun w d h => ?_⟩
      cases h
      obtain ⟨e, he, h4⟩ := prepare64_split hp
      refine ⟨rfl, _, rfl, ?_, fun _ => ⟨rfl, Nat.zero_le _, fun h => by cases h⟩⟩
      rw [unitsFrom_b64 (inv := inv64) (fun _ => rfl) (fun _ => rfl) u [] e _ (by simpa using he) h4 rfl (by simp)]
      show decQuanta64 inv64 0 u = Except.map _ (decQuanta64 inv64 0 u)
      cases decQuanta64 inv64 0 u <;> rfl
  case b64uDec =>
    simp only [preScan, ownResult, decB64, bind, Except.bind]
    cases hp : prepare64 t with
    | error f => exact ⟨fun f h => by cases h; rfl, fun w d h => by cases h⟩
    | ok u =>
      refine ⟨fun f h => (by cases h), fun w d h => ?_⟩
      cases h
      obtain ⟨e, he, h4⟩ := prepare64_split hp
      refine ⟨rfl, _, rfl, ?_, fun _ => ⟨rfl, Nat.zero_le _, fun h => by cases h⟩⟩
      rw [unitsFrom_b64 (inv := inv64u) (fun _ => rfl) (fun _ => rfl) u [] e _ (by simpa using he) h4 rfl (by simp)]
      show decQuanta64 inv64u 0 u = Except.map _ (decQuanta64 inv64u 0 u)
      cases decQuanta64 inv64u 0 u <;> rfl
  case b32Dec =>
    refine ⟨fun f h => (by cases h), fun w d h => ?_⟩
    cases h
    refine ⟨rfl, _, rfl, ?_, fun _ => ⟨rfl, Nat.zero_le _, fun h => by cases h⟩⟩
    obtain ⟨e1, he1⟩ := List.rdropWhile_prefix (p := isLineEnd) (l := t)
    obtain ⟨e2, he2⟩ := List.rdropWhile_prefix (p := (· == pad)) (l := stripCRLF t)
    have ht : t = [] ++ (stripPads (stripCRLF t) ++ (e2 ++ e1)) := by
      rw [List.nil_append, ← List.append_assoc]
      exact he1.symm.trans (congrArg (· ++ e1) he2.symm)
    have hle := length_stripPads_le (stripCRLF t)
    have := unitsFrom_b32 (t := t) (stripPads (stripCRLF t)) [] (e2 ++ e1)
      { Work.init with lenS := (stripCRLF t).length, padCnt := (stripCRLF t).length - (stripPads (stripCRLF t)).length,
                       left := some (stripPads (stripCRLF t)).length } ht rfl (Nat.zero_lt_succ 7) Nat.one_pos
    rw [this]
    simp only [ownResult, decB32]
    rw [show (stripCRLF t).length - ((stripCRLF t).length - (stripPads (stripCRLF t)).length) =
      (stripPads (stripCRLF t)).length by omega]
    show _ = Except.map _ (do
      let d ← decSymbols32 0 0 0 (stripPads (stripCRLF t))
      checkTail32 (stripPads (stripCRLF t)).length ((stripCRLF t).length - (stripPads (stripCRLF t)).length)
      .ok d)
    cases (do
      let d ← decSymbols32 0 0 0 (stripPads (stripCRLF t))
      checkTail32 (stripPads (stripCRLF t)).length ((stripCRLF t).length - (stripPads (stripCRLF t)).length)
      .ok d : Except Failure Bytes) <;> rfl
  case b16Dec =>
    simp only [preScan, ownResult, decB16]
    by_cases hc : t.length % 2 ≠ 0
    · simp only [if_pos hc]
      exact ⟨fun f h => by cases h; rfl, fun w d h => by cases h⟩
    · simp only [if_neg hc]
      refine ⟨fun f h => (by cases h), fun w d h => ?_⟩
      cases h
      refine ⟨rfl, _, rfl, ?_, fun _ => ⟨rfl, Nat.zero_le _, fun h => by cases h⟩⟩
      rw [unitsFrom_b16 (t := t) t [] _ rfl (by omega) rfl]
      cases decPairs16 ([] : Bytes).length t <;> rfl
  case uulDec =>
    simp only [preScan, ownResult, decUUL]
    by_cases hc : t.length % 4 ≠ 0
    · simp only [if_pos hc]
      exact ⟨fun f h => by cases h; rfl, fun w d h => by cases h⟩
    · simp only [if_neg hc]
      refine ⟨fun f h => (by cases h), fun w d h => ?_⟩
      cases h
      refine ⟨rfl, _, rfl, ?_, fun _ => ⟨rfl, Nat.zero_le _, fun h => by cases h⟩⟩
      rw [unitsFrom_uul (t := t) t [] _ rfl (by omega) rfl]
      cases decGroupsUU ([] : Bytes).length t <;> rfl
  case uucDec =>
    refine ⟨fun f h => (by cases h), fun w d h => ?_⟩
    cases h
    refine ⟨rfl, 1, rfl, ?_, fun _ => ⟨rfl, Nat.zero_le _, fun _ => ⟨rfl, le_rfl⟩⟩⟩
    simp only [unitsFrom, unitAt, lastUnit, ownResult, bind, Except.bind]
    cases decUUC t 0 with
    | error f => rfl
    | ok d => simp [Except.map]
  case uufDec =>
    simp only [preScan, ownResult, decUUF, bind, Except.bind]
    cases hb : findBody t with
    | error f => exact ⟨fun f h => by cases h; rfl, fun w d h => by cases h⟩
    | ok x =>
      obtain ⟨h, s⟩ := x
      refine ⟨fun f h => (by cases h), fun w d hw => ?_⟩
      cases hw
      obtain ⟨h1, h2⟩ := findBody_split hb
      refine ⟨rfl, _, rfl, ?_, fun _ => ⟨rfl, h1, fun h => by cases h⟩⟩
      have key : unitsFrom .uufDec t (bodyOf t h s).length
          { Work.init with ip := h + 1, lenS := t.length, bodyEnd := s, left := some (bodyOf t h s).length } =
          decLines (h + 1) (bodyOf t h s) := by
        unfold bodyOf
        split
        · rename_i hlt
          obtain ⟨pre, body, e, ht, hp, hbd, hbody⟩ := h2 hlt
          rw [hbody]
          have := unitsFrom_uuf body.length body pre e
            { Work.init with ip := h + 1, lenS := t.length, bodyEnd := s, left := some (splitLines body).length }
            le_rfl ht hp.symm (by rw [hp]; exact hbd)
          rw [this, hp]
        · rfl
      rw [key]
      show decLines (h + 1) (bodyOf t h s) = Except.map _ (decLines (h + 1) (bodyOf t h s))
      cases decLines (h + 1) (bodyOf t h s) <;> rfl

end Sys2Proof.Machine
end

