-- ==== Sys2Proof/Tests/Slice0.lean ====
section
/-! SUPPORT. The author's own tests: the checks of WellFormed, decoding of words written from R91 and R93, one step for
each kind of access, one or two worked examples of `95_test_vectors.md` for each command, and for each statement that
has hypotheses a concrete state that meets them. -/

namespace Sys2Proof.Tests

open Sys2Proof.Machine Sys2Proof.Claims

/-! ### WellFormed: an ill-formed term for each check -/

theorem test_zero_field_refused : (C8.mk 1 0 0).wellFormed = false := by decide
theorem test_zero_field_top_bit_refused : (C8.mk 8 6 1).zeroOk = false := by decide
theorem test_reserved_codec_refused : (C8.mk 0 7 0).wellFormed = false ∧ (C8.mk 0 7 1).codecOk = false := by decide
theorem test_legal_fields_accepted : (C8.mk 0 6 1).wellFormed = true := by decide

/-! ### Decoding: `ZERO`, `CODEC`, `DIR` written out bit by bit from R91 and R93 -/

theorem test_decode_b64Enc : decode 0b00000000#8 = .ok .b64Enc := by decide
theorem test_decode_b64Dec : decode 0b00000001#8 = .ok .b64Dec := by decide
theorem test_decode_b64uEnc : decode 0b00000010#8 = .ok .b64uEnc := by decide
theorem test_decode_b64uDec : decode 0b00000011#8 = .ok .b64uDec := by decide
theorem test_decode_b32Enc : decode 0b00000100#8 = .ok .b32Enc := by decide
theorem test_decode_b32Dec : decode 0b00000101#8 = .ok .b32Dec := by decide
theorem test_decode_b16Enc : decode 0b00000110#8 = .ok .b16Enc := by decide
theorem test_decode_b16Dec : decode 0b00000111#8 = .ok .b16Dec := by decide
theorem test_decode_uulEnc : decode 0b00001000#8 = .ok .uulEnc := by decide
theorem test_decode_uulDec : decode 0b00001001#8 = .ok .uulDec := by decide
theorem test_decode_uucEnc : decode 0b00001010#8 = .ok .uucEnc := by decide
theorem test_decode_uucDec : decode 0b00001011#8 = .ok .uucDec := by decide
theorem test_decode_uufEnc : decode 0b00001100#8 = .ok .uufEnc := by decide
theorem test_decode_uufDec : decode 0b00001101#8 = .ok .uufDec := by decide
theorem test_decode_reserved_codec : decode 0b00001110#8 = .error .reservedCodec ∧
    decode 0b00001111#8 = .error .reservedCodec := by decide
theorem test_decode_zero_field : decode 0b00010000#8 = .error .zeroFieldNotZero ∧
    decode 0b10000001#8 = .error .zeroFieldNotZero := by decide
theorem test_table_word : decodeTableWord 8 0x0B = some .uucDec ∧ decodeTableWord 8 0x0E = none ∧
    decodeTableWord 8 0x10 = none := by decide

/-! ### Texts -/

/-- `00FF100A` -/
def txt_00FF100A : Bytes := [0x30#8, 0x30#8, 0x46#8, 0x46#8, 0x31#8, 0x30#8, 0x30#8, 0x41#8]
/-- `4G` -/
def txt_4G : Bytes := [0x34#8, 0x47#8]
/-- `644` -/
def txt_644 : Bytes := [0x36#8, 0x34#8, 0x34#8]
/-- `666` -/
def txt_666 : Bytes := [0x36#8, 0x36#8, 0x36#8]
/-- `666f` -/
def txt_666f : Bytes := [0x36#8, 0x36#8, 0x36#8, 0x66#8]
/-- `6f` -/
def txt_6f : Bytes := [0x36#8, 0x66#8]
/-- `9@  ` -/
def txt_9AtSp2 : Bytes := [0x39#8, 0x40#8, 0x20#8, 0x20#8]
/-- `9@''` -/
def txt_9AtTick2 : Bytes := [0x39#8, 0x40#8, 0x60#8, 0x60#8]
/-- `9F` -/
def txt_9F : Bytes := [0x39#8, 0x46#8]
/-- `9F]a` -/
def txt_9FBracketa : Bytes := [0x39#8, 0x46#8, 0x5D#8, 0x61#8]
/-- `!9@''` -/
def txt_Bang9AtTick2 : Bytes := [0x21#8, 0x39#8, 0x40#8, 0x60#8, 0x60#8]
/-- `Begin x\n'\nend` -/
def txt_BeginSpxLfTickLfend : Bytes :=
  [0x42#8, 0x65#8, 0x67#8, 0x69#8, 0x6E#8, 0x20#8, 0x78#8, 0x0A#8, 0x60#8, 0x0A#8, 0x65#8, 0x6E#8, 0x64#8]
/-- `Cat` -/
def txt_Cat : Bytes := [0x43#8, 0x61#8, 0x74#8]
/-- `Catf` -/
def txt_Catf : Bytes := [0x43#8, 0x61#8, 0x74#8, 0x66#8]
/-- `\r\n` -/
def txt_CrLf : Bytes := [0x0D#8, 0x0A#8]
/-- `-__-` -/
def txt_DashUnder2Dash : Bytes := [0x2D#8, 0x5F#8, 0x5F#8, 0x2D#8]
/-- `-_8=` -/
def txt_DashUnder8Pad : Bytes := [0x2D#8, 0x5F#8, 0x38#8, 0x3D#8]
/-- `-_-_` -/
def txt_DashUnderDashUnder : Bytes := [0x2D#8, 0x5F#8, 0x2D#8, 0x5F#8]
/-- `$9F]O` -/
def txt_Dollar9FBracketO : Bytes := [0x24#8, 0x39#8, 0x46#8, 0x5D#8, 0x4F#8]
/-- `#0V%T\n!9@''\n'\nend` -/
def txt_Hash0VPercentTLfBang9AtTick2LfTickLfend : Bytes :=
  [0x23#8, 0x30#8, 0x56#8, 0x25#8, 0x54#8, 0x0A#8, 0x21#8, 0x39#8, 0x40#8, 0x60#8, 0x60#8, 0x0A#8, 0x60#8, 0x0A#8,
    0x65#8, 0x6E#8, 0x64#8]
/-- `#0V%T\n#0V~T\n'\nend` -/
def txt_Hash0VPercentTLfHash0VTildeTLfTickLfend : Bytes :=
  [0x23#8, 0x30#8, 0x56#8, 0x25#8, 0x54#8, 0x0A#8, 0x23#8, 0x30#8, 0x56#8, 0x7E#8, 0x54#8, 0x0A#8, 0x60#8, 0x0A#8,
    0x65#8, 0x6E#8, 0x64#8]
/-- `#0V%T\n'\nend` -/
def txt_Hash0VPercentTLfTickLfend : Bytes := [0x23#8, 0x30#8, 0x56#8, 0x25#8, 0x54#8, 0x0A#8, 0x60#8, 0x0A#8, 0x65#8,
    0x6E#8, 0x64#8]
/-- `#9F]` -/
def txt_Hash9FBracket : Bytes := [0x23#8, 0x39#8, 0x46#8, 0x5D#8]
/-- `#9F]O` -/
def txt_Hash9FBracketO : Bytes := [0x23#8, 0x39#8, 0x46#8, 0x5D#8, 0x4F#8]
/-- `#9F]O\nend` -/
def txt_Hash9FBracketOLfend : Bytes := [0x23#8, 0x39#8, 0x46#8, 0x5D#8, 0x4F#8, 0x0A#8, 0x65#8, 0x6E#8, 0x64#8]
/-- `#9F]a` -/
def txt_Hash9FBracketa : Bytes := [0x23#8, 0x39#8, 0x46#8, 0x5D#8, 0x61#8]
/-- `M0` -/
def txt_M0 : Bytes := [0x4D#8, 0x30#8]
/-- `M=Y==` -/
def txt_MPadYPad2 : Bytes := [0x4D#8, 0x3D#8, 0x59#8, 0x3D#8, 0x3D#8]
/-- `M=Y=====` -/
def txt_MPadYPad5 : Bytes := [0x4D#8, 0x3D#8, 0x59#8, 0x3D#8, 0x3D#8, 0x3D#8, 0x3D#8, 0x3D#8]
/-- `MY=====` -/
def txt_MYPad5 : Bytes := [0x4D#8, 0x59#8, 0x3D#8, 0x3D#8, 0x3D#8, 0x3D#8, 0x3D#8]
/-- `MY======\n` -/
def txt_MYPad6Lf : Bytes := [0x4D#8, 0x59#8, 0x3D#8, 0x3D#8, 0x3D#8, 0x3D#8, 0x3D#8, 0x3D#8, 0x0A#8]
/-- `MY=======` -/
def txt_MYPad7 : Bytes := [0x4D#8, 0x59#8, 0x3D#8, 0x3D#8, 0x3D#8, 0x3D#8, 0x3D#8, 0x3D#8, 0x3D#8]
/-- `MZX=` -/
def txt_MZXPad : Bytes := [0x4D#8, 0x5A#8, 0x58#8, 0x3D#8]
/-- `MZXQ====` -/
def txt_MZXQPad4 : Bytes := [0x4D#8, 0x5A#8, 0x58#8, 0x51#8, 0x3D#8, 0x3D#8, 0x3D#8, 0x3D#8]
/-- `MZXW6Y` -/
def txt_MZXW6Y : Bytes := [0x4D#8, 0x5A#8, 0x58#8, 0x57#8, 0x36#8, 0x59#8]
/-- `MZXW6YTBOI======` -/
def txt_MZXW6YTBOIPad6 : Bytes :=
  [0x4D#8, 0x5A#8, 0x58#8, 0x57#8, 0x36#8, 0x59#8, 0x54#8, 0x42#8, 0x4F#8, 0x49#8, 0x3D#8, 0x3D#8, 0x3D#8, 0x3D#8,
    0x3D#8, 0x3D#8]
/-- `MZXW6YTB=` -/
def txt_MZXW6YTBPad : Bytes := [0x4D#8, 0x5A#8, 0x58#8, 0x57#8, 0x36#8, 0x59#8, 0x54#8, 0x42#8, 0x3D#8]
/-- `=g==` -/
def txt_PadgPad2 : Bytes := [0x3D#8, 0x67#8, 0x3D#8, 0x3D#8]
/-- `+//+` -/
def txt_PlusSlash2Plus : Bytes := [0x2B#8, 0x2F#8, 0x2F#8, 0x2B#8]
/-- `+/+/` -/
def txt_PlusSlashPlusSlash : Bytes := [0x2B#8, 0x2F#8, 0x2B#8, 0x2F#8]
/-- `"9F\'` -/
def txt_Quote9FBackTick : Bytes := [0x22#8, 0x39#8, 0x46#8, 0x5C#8, 0x60#8]
/-- `"9F]O` -/
def txt_Quote9FBracketO : Bytes := [0x22#8, 0x39#8, 0x46#8, 0x5D#8, 0x4F#8]
/-- `Z$==` -/
def txt_ZDollarPad2 : Bytes := [0x5A#8, 0x24#8, 0x3D#8, 0x3D#8]
/-- `Zg=` -/
def txt_ZgPad : Bytes := [0x5A#8, 0x67#8, 0x3D#8]
/-- `Zg==\r\n` -/
def txt_ZgPad2CrLf : Bytes := [0x5A#8, 0x67#8, 0x3D#8, 0x3D#8, 0x0D#8, 0x0A#8]
/-- `Zg=v` -/
def txt_ZgPadv : Bytes := [0x5A#8, 0x67#8, 0x3D#8, 0x76#8]
/-- `Zm8=` -/
def txt_Zm8Pad : Bytes := [0x5A#8, 0x6D#8, 0x38#8, 0x3D#8]
/-- `Zm8=Zm9v` -/
def txt_Zm8PadZm9v : Bytes := [0x5A#8, 0x6D#8, 0x38#8, 0x3D#8, 0x5A#8, 0x6D#8, 0x39#8, 0x76#8]
/-- `Zm9vYg==` -/
def txt_Zm9vYgPad2 : Bytes := [0x5A#8, 0x6D#8, 0x39#8, 0x76#8, 0x59#8, 0x67#8, 0x3D#8, 0x3D#8]
/-- `Zm9vYmFy` -/
def txt_Zm9vYmFy : Bytes := [0x5A#8, 0x6D#8, 0x39#8, 0x76#8, 0x59#8, 0x6D#8, 0x46#8, 0x79#8]
/-- `a9F]O` -/
def txt_a9FBracketO : Bytes := [0x61#8, 0x39#8, 0x46#8, 0x5D#8, 0x4F#8]
/-- `ab` -/
def txt_ab : Bytes := [0x61#8, 0x62#8]
/-- `begin 644 a\n` -/
def txt_beginSp644SpaLf : Bytes :=
  [0x62#8, 0x65#8, 0x67#8, 0x69#8, 0x6E#8, 0x20#8, 0x36#8, 0x34#8, 0x34#8, 0x20#8, 0x61#8, 0x0A#8]
/-- `begin 644 cat.txt\n` -/
def txt_beginSp644SpcatDottxtLf : Bytes :=
  [0x62#8, 0x65#8, 0x67#8, 0x69#8, 0x6E#8, 0x20#8, 0x36#8, 0x34#8, 0x34#8, 0x20#8, 0x63#8, 0x61#8, 0x74#8, 0x2E#8,
    0x74#8, 0x78#8, 0x74#8, 0x0A#8]
/-- `begin x` -/
def txt_beginSpx : Bytes := [0x62#8, 0x65#8, 0x67#8, 0x69#8, 0x6E#8, 0x20#8, 0x78#8]
/-- `begin x\n#9F]O\nend` -/
def txt_beginSpxLfHash9FBracketOLfend : Bytes :=
  [0x62#8, 0x65#8, 0x67#8, 0x69#8, 0x6E#8, 0x20#8, 0x78#8, 0x0A#8, 0x23#8, 0x39#8, 0x46#8, 0x5D#8, 0x4F#8, 0x0A#8,
    0x65#8, 0x6E#8, 0x64#8]
/-- `cat.txt` -/
def txt_catDottxt : Bytes := [0x63#8, 0x61#8, 0x74#8, 0x2E#8, 0x74#8, 0x78#8, 0x74#8]
/-- `fo` -/
def txt_fo : Bytes := [0x66#8, 0x6F#8]
/-- `foo` -/
def txt_foo : Bytes := [0x66#8, 0x6F#8, 0x6F#8]
/-- `foob` -/
def txt_foob : Bytes := [0x66#8, 0x6F#8, 0x6F#8, 0x62#8]
/-- `foobar` -/
def txt_foobar : Bytes := [0x66#8, 0x6F#8, 0x6F#8, 0x62#8, 0x61#8, 0x72#8]
/-- `x\n!9@''\n#9F]a\nzz\n` -/
def txt_xLfBang9AtTick2LfHash9FBracketaLfzzLf : Bytes :=
  [0x78#8, 0x0A#8, 0x21#8, 0x39#8, 0x40#8, 0x60#8, 0x60#8, 0x0A#8, 0x23#8, 0x39#8, 0x46#8, 0x5D#8, 0x61#8, 0x0A#8,
    0x7A#8, 0x7A#8, 0x0A#8]
/-- `x\n#9F]O\n!9@''\n` -/
def txt_xLfHash9FBracketOLfBang9AtTick2Lf : Bytes :=
  [0x78#8, 0x0A#8, 0x23#8, 0x39#8, 0x46#8, 0x5D#8, 0x4F#8, 0x0A#8, 0x21#8, 0x39#8, 0x40#8, 0x60#8, 0x60#8, 0x0A#8]
/-- `zz` -/
def txt_zz : Bytes := [0x7A#8, 0x7A#8]

/-! ### Helpers -/

/-- A buffer that holds the bytes `t` from index 0 on. -/
def holding (t : Bytes) : Buffer := { cells := t.zipIdx.map fun x => (x.2, x.1), epoch := 0 }

/-- The reset state with an input loaded. -/
def loaded (t : Bytes) : State := { State.reset with inBuf := holding t, inLen := t.length }

/-- The same with a command started. -/
def given (c : Byte) (t : Bytes) : State := { loaded t with cmd := c, phase := .busy }

/-- The same with the two header fields loaded. -/
def withFields (s : State) (mode name : Bytes) : State :=
  { s with modeBuf := holding mode, modeLen := mode.length, nameBuf := holding name, nameLen := name.length }

/-- The next step completes an encode with these symbols and the marker. -/
def encodes (s : State) (d : Bytes) : Bool :=
  match step s with
  | .next u => u.status == .ok && u.outLen == d.length && u.phase == .done &&
      u.outBuf.cells == (holding (d ++ [0x00#8])).cells
  | _ => false

/-- The next step completes a decode with these bytes. -/
def decodes (s : State) (d : Bytes) : Bool :=
  match step s with
  | .next u => u.status == .ok && u.outLen == d.length && u.phase == .done && u.outBuf.cells == (holding d).cells
  | _ => false

/-- The next step completes with this failure. -/
def fails (s : State) (k : FailKind) (pos : Nat) : Bool :=
  match step s with
  | .next u => u.status == .failed k && u.errPos == pos && u.outLen == 0 && u.phase == .done
  | _ => false

/-- One access of the host, then a look at the state after it. -/
def after (s : State) (e : Event) (look : State → Bool) : Bool :=
  match step { s with pending := [e] } with
  | .next u => look u
  | _ => false

/-- The reason a step stops with. -/
def stopsWith (s : State) (e : Event) (f : Fault) : Bool :=
  match step { s with pending := [e] } with
  | .fault g => g == f
  | _ => false

/-! ### Worked examples: expected bytes from `95_test_vectors.md`, the section named in each name's first line -/

/-- `95_test_vectors.md` 1.1. -/
theorem test_b64Enc_foob : encodes (given 0x00#8 txt_foob)
    txt_Zm9vYgPad2 = true := by decide
/-- `95_test_vectors.md` 2.1. -/
theorem test_b64Enc_last_symbols : encodes (given 0x00#8 [0xFB#8, 0xFF#8, 0xFE#8])
    txt_PlusSlash2Plus = true := by decide
/-- `95_test_vectors.md` 2.2. -/
theorem test_b64Dec_line_end : decodes (given 0x01#8 txt_ZgPad2CrLf)
    [0x66#8] = true := by decide
/-- `95_test_vectors.md` 2.2. -/
theorem test_b64Dec_pad_then_symbol : fails (given 0x01#8 txt_ZgPadv)
    .invalidPadding 2 = true := by decide
/-- `95_test_vectors.md` 2.1. -/
theorem test_b64uEnc_last_symbols : encodes (given 0x02#8 [0xFB#8, 0xFF#8, 0xFE#8])
    txt_DashUnder2Dash = true := by decide
/-- `95_test_vectors.md` 2.2. -/
theorem test_b64uDec : decodes (given 0x03#8 txt_DashUnder8Pad)
    [0xFB#8, 0xFF#8] = true := by decide
/-- `95_test_vectors.md` 2.2. -/
theorem test_b64uDec_other_alphabet : fails (given 0x03#8 txt_PlusSlashPlusSlash)
    .invalidAlphabetChar 0 = true := by decide
/-- `95_test_vectors.md` 2.3. -/
theorem test_b32Enc_fo : encodes (given 0x04#8 txt_fo)
    txt_MZXQPad4 = true := by decide
/-- `95_test_vectors.md` 2.3. -/
theorem test_b32Enc_foobar : encodes (given 0x04#8 txt_foobar)
    txt_MZXW6YTBOIPad6 = true := by decide
/-- `95_test_vectors.md` 2.4. -/
theorem test_b32Dec_over_padded : decodes (given 0x05#8 txt_MYPad7)
    [0x66#8] = true := by decide
/-- `95_test_vectors.md` 2.4. -/
theorem test_b32Dec_inner_pad : fails (given 0x05#8 txt_MPadYPad5)
    .invalidPadding 1 = true := by decide
/-- `95_test_vectors.md` 2.5. -/
theorem test_b16Enc : encodes (given 0x06#8 [0x00#8, 0xFF#8, 0x10#8, 0x0A#8])
    txt_00FF100A = true := by decide
/-- `95_test_vectors.md` 2.5. -/
theorem test_b16Dec_mixed_case : decodes (given 0x07#8 txt_666f)
    txt_fo = true := by decide
/-- `95_test_vectors.md` 2.5. -/
theorem test_b16Dec_second_digit : fails (given 0x07#8 txt_4G)
    .invalidAlphabetChar 1 = true := by decide
/-- `95_test_vectors.md` 2.6. -/
theorem test_uulEnc_filler : encodes (given 0x08#8 [0x66#8])
    txt_9AtTick2 = true := by decide
/-- `95_test_vectors.md` 2.6. -/
theorem test_uulDec_spaces : decodes (given 0x09#8 txt_9AtSp2)
    [0x66#8, 0x00#8, 0x00#8] = true := by decide
/-- `95_test_vectors.md` 2.6. -/
theorem test_uulDec_bad_symbol : fails (given 0x09#8 txt_9FBracketa)
    .invalidAlphabetChar 3 = true := by decide
/-- `95_test_vectors.md` 2.7. -/
theorem test_uucEnc_fo : encodes (given 0x0A#8 txt_fo)
    txt_Quote9FBackTick = true := by decide
/-- `95_test_vectors.md` 2.7. -/
theorem test_uucDec_count_below_groups : decodes (given 0x0B#8 txt_Quote9FBracketO)
    txt_fo = true := by decide
/-- `95_test_vectors.md` 2.7. -/
theorem test_uucDec_count_too_large : fails (given 0x0B#8 txt_Dollar9FBracketO)
    .invalidLength 0 = true := by decide
/-- `95_test_vectors.md` 2.8. -/
theorem test_uufEnc : encodes
    (withFields (given 0x0C#8 txt_Cat) txt_644
      txt_catDottxt)
    (txt_beginSp644SpcatDottxtLf ++
      txt_Hash0VPercentTLfTickLfend) = true := by decide
/-- `95_test_vectors.md` 2.8. -/
theorem test_uufDec : decodes (given 0x0D#8 (txt_beginSp644SpaLf ++
      txt_Hash0VPercentTLfBang9AtTick2LfTickLfend)) txt_Catf = true := by decide
/-- `95_test_vectors.md` 2.8. -/
theorem test_uufDec_second_line : fails (given 0x0D#8 (txt_beginSp644SpaLf ++
      txt_Hash0VPercentTLfHash0VTildeTLfTickLfend)) .invalidAlphabetChar 21 = true := by decide

/-! ### Starting, capacities and the host's accesses -/

/-- `95_test_vectors.md` 2.10: the reserved words. -/
theorem test_illegal_word : fails (given 0x0E#8 []) .illegalCommand 0 = true ∧
    fails (given 0x10#8 []) .illegalCommand 0 = true := by decide
/-- `95_test_vectors.md` 2.10: `OUT_CAP` 8 is too small for "foobar", 9 is enough. -/
theorem test_out_capacity :
    fails { given 0x00#8 txt_foobar with par := { Config.defaultParams with outCap := 8 } } .bufferTooSmall 0 = true ∧
    encodes { given 0x00#8 txt_foobar with par := { Config.defaultParams with outCap := 9 } } txt_Zm9vYmFy = true := by decide
/-- `95_test_vectors.md` 2.10: `IN_LEN` 17 with `IN_CAP` 16, `MODE_LEN` 256 with `AUX_CAP` 255. -/
theorem test_input_capacity :
    fails { given 0x01#8 [] with inLen := 17, par := { Config.defaultParams with inCap := 16 } } .bufferTooSmall 0 = true ∧
    fails { given 0x0C#8 [] with modeLen := 256 } .bufferTooSmall 0 = true := by decide
/-- `95_test_vectors.md` 2.10: the illegal-command check comes first. -/
theorem test_illegal_before_capacity :
    fails { given 0x0E#8 [] with par := { Config.defaultParams with outCap := 0 } } .illegalCommand 0 = true := by decide
/-- R24: bits 7:1 of `CTRL` are ignored, bit 0 starts. -/
theorem test_start_bit : after State.reset (.host (.writeReg .ctrl 0xFF)) (fun u => u.phase == .busy) = true ∧
    after State.reset (.host (.writeReg .ctrl 0xFE)) (fun u => u.phase == .idle) = true := by decide
/-- `95_test_vectors.md` 2.9: `REQ_LEN` for 6 bytes by `B32.ENC`, and after reset. -/
theorem test_req_len : State.readReg { loaded txt_foobar with cmd := 0x04#8 } .reqLen = 17 ∧
    State.reset.readReg .reqLen = 1 := by decide
/-- R23: `CMD` stores all 8 bits; R22: `STATUS` is read-only. -/
theorem test_register_writes :
    after State.reset (.host (.writeReg .cmd 0xFE)) (fun u => u.readReg .cmd == 0xFE) = true ∧
    after State.reset (.host (.writeReg .status 3)) (fun u => u.readReg .status == 0) = true := by decide
/-- R35: the four spaces are disjoint. -/
theorem test_byte_write :
    after (loaded [0x41#8]) (.host (.writeByte .mode 0 0x42#8)) (fun u => u.byte .mode 0 == 0x42#8 && u.byte .input 0 == 0x41#8)
      = true := by decide
/-- R61: index `IN_CAP` does not exist, index `IN_CAP - 1` does. -/
theorem test_index_bound : stopsWith State.reset (.host (.writeByte .input 256 0x00#8)) .noSuchIndex = true ∧
    after State.reset (.host (.writeByte .input 255 0x07#8)) (fun u => u.byte .input 255 == 0x07#8) = true := by decide
/-- R290: a write while BUSY. -/
theorem test_write_while_busy :
    stopsWith (given 0x00#8 []) (.host (.writeReg .inLen 1)) .hostWriteWhileBusy = true := by decide
/-- R280: reset while BUSY; `95_test_vectors.md` has no vector for it. -/
theorem test_reset_while_busy :
    after (given 0x05#8 txt_foobar) .reset (fun u => u.phase == .idle && u.cmd == 0x00#8 && u.inLen == 0) = true := by decide
/-- `95_test_vectors.md` P8, step 1: the checks; the registers before the first group. -/
theorem test_unit_step_one :
    after (given 0x00#8 txt_fo) .unit (fun u => u.phase == .busy && u.work.ip == 0 && u.work.op == 0) = true := by
  decide
/-- `95_test_vectors.md` P8, step 2: the group. -/
theorem test_unit_step_two :
    after { given 0x00#8 txt_fo with work := { Work.init with left := some 1 } } .unit
      (fun u => u.phase == .busy && u.work.ip == 2 && u.work.op == 4 && u.outBuf.cells == (holding txt_Zm8Pad).cells) = true := by
  decide
/-- The command word placed by `withFetchWord` is run by the very next step: `95_test_vectors.md` 2.3, empty input. -/
theorem test_placed_word_runs : encodes (State.reset.withFetchWord 8 0x04) [] = true := by decide

/-! ### Witnesses: for each statement with hypotheses a state and operands that meet all of them -/

/-- The reset state with an input loaded and buffers of the given capacities. -/
def sized (inCap outCap auxCap : Nat) (t : Bytes) : State :=
  { loaded t with par := { lenw := 32, inCap := inCap, outCap := outCap, auxCap := auxCap } }

/-- A completed command. -/
def finished (t : Bytes) : State := { loaded t with phase := .done, outBuf := holding t, outLen := t.length }

theorem witness_CommandWordsDecodeAsTabled : 0x0E ≤ (0x0E#8).toNat ∧ 0x0E ≤ (0xFF#8).toNat := by decide
theorem witness_DecodeInvertsEncode : decode 0x0D#8 = .ok .uufDec := by decide
theorem witness_UuencodeSymbolMapping : (0 < 1 ∧ 1 < 64) ∧ (0 < 63 ∧ 63 < 64) ∧
    (0x20 ≤ (0x20#8).toNat ∧ (0x20#8).toNat ≤ 0x5F) ∧ (0x20 ≤ (0x5F#8).toNat ∧ (0x5F#8).toNat ≤ 0x5F) ∧
    ((0x1F#8).toNat < 0x20 ∨ 0x60 < (0x1F#8).toNat) ∧ ((0x61#8).toNat < 0x20 ∨ 0x60 < (0x61#8).toNat) := by decide
theorem witness_StepRunsTheCommandWord : (given 0x0D#8 []).phase = .busy ∧ decode (given 0x0D#8 []).cmd = .ok .uufDec ∧
    (given 0x0D#8 []).pending = [] ∧
    State.pending { given 0x0D#8 [] with pending := [.core, .reset] } = .core :: [.reset] := by decide
theorem witness_IllegalWordCompletesAtOnce :
    ((given 0x0E#8 []).phase = .busy ∧ 0x0E ≤ (given 0x0E#8 []).cmd.toNat ∧ (given 0x0E#8 []).pending = []) ∧
    ((given 0xFF#8 []).phase = .busy ∧ 0x0E ≤ (given 0xFF#8 []).cmd.toNat ∧ (given 0xFF#8 []).pending = []) ∧
    State.pending { given 0x0E#8 [] with pending := [.core] } = .core :: [] ∧
    State.pending { given 0x0E#8 [] with pending := [.unit, .core] } = .unit :: [.core] := by decide
theorem witness_TooSmallBufferFails :
    (sized 5 99 0 txt_foobar).par.inCap < (sized 5 99 0 txt_foobar).inLen ∧
    (Instr.uufEnc = .uufEnc ∧
      (sized 6 99 2 txt_foobar).par.auxCap < (withFields (sized 6 99 2 txt_foobar) txt_644 []).modeLen) ∧
    (Instr.uufEnc = .uufEnc ∧
      (sized 6 99 2 txt_foobar).par.auxCap < (withFields (sized 6 99 2 txt_foobar) [] txt_644).nameLen) ∧
    (sized 6 8 0 txt_foobar).par.outCap < sizeTable .b64Enc (sized 6 8 0 txt_foobar).inLen 0 0 := by decide
theorem witness_RequiredLengthIsTheSizeTable : (given 0x0D#8 []).cmd = encode .uufDec ∧
    0x0E ≤ (given 0x0E#8 []).cmd.toNat ∧ 0x0E ≤ (given 0xFF#8 []).cmd.toNat := by decide
theorem witness_StartSetsBusy : State.reset.phase ≠ .busy ∧ (finished []).phase ≠ .busy ∧
    State.pending { State.reset with pending := [.host (.writeReg .ctrl 1)] } = .host (.writeReg .ctrl 1) :: [] ∧
    State.pending { State.reset with pending := [.host (.writeReg .ctrl 0)] } = .host (.writeReg .ctrl 0) :: [] ∧
    0xFF % 2 = 1 ∧ 0xFE % 2 = 0 := by decide
theorem witness_StartedCommandReachesDone : (given 0x00#8 []).phase = .busy ∧ (given 0x00#8 []).pending = [] ∧
    State.pending { given 0x00#8 [] with pending := [.core, .reset] } = .core :: [.reset] := by decide
theorem witness_CommandFrame : (∃ t, exec .b64Enc (loaded [0x66#8]) = .next t ∧ t.status = .ok ∧ t.outLen + 1 ≤ 5) ∧
    ∃ t, exec .b64Dec (loaded [0x66#8]) = .next t ∧ t.status ≠ .ok := ⟨⟨_, rfl, by decide⟩, ⟨_, rfl, by decide⟩⟩
theorem witness_WritesStayBelowRequiredLength :
    ∃ t, exec .b64Enc (loaded [0x66#8]) = .next t ∧ Memory.get? t.outBuf.cells 4 ≠ none := ⟨_, rfl, by decide⟩
/-- An odd length, a format failure, a bad digit in the last place, and a capacity that is too small. -/
theorem witness_FailureKindsOfEachCommand :
    (∃ t, exec .b16Dec (loaded [0x66#8]) = .next t ∧ t.status = .failed .invalidLength ∧ Instr.b16Dec ≠ .uufDec) ∧
    (∃ t, exec .uufDec (loaded [0x66#8]) = .next t ∧ t.status = .failed .invalidFormat) ∧
    (∃ t, exec .b16Dec (loaded txt_4G) = .next t ∧ t.status = .failed .invalidAlphabetChar ∧ t.errPos + 1 = 2) ∧
    ∃ t, exec .b64Enc (sized 1 4 0 [0x66#8]) = .next t ∧ t.status = .failed .bufferTooSmall :=
  ⟨⟨_, rfl, by decide⟩, ⟨_, rfl, by decide⟩, ⟨_, rfl, by decide⟩, ⟨_, rfl, by decide⟩⟩
/-- Two states that differ in the command register, in old bytes of `OUT` and behind the input. -/
theorem witness_ResultDependsOnTheInputOnly :
    SameInput .uufEnc (withFields (loaded [0x66#8]) txt_644 [0x61#8])
      { withFields (given 0x05#8 txt_fo) txt_644 txt_ab with inLen := 1, nameLen := 1, outBuf := holding txt_foo } ∧
    (∃ t, exec .uufEnc (withFields (loaded [0x66#8]) txt_644 [0x61#8]) = .next t) ∧
    ∃ t, exec .uufEnc { withFields (given 0x05#8 txt_fo) txt_644 txt_ab with inLen := 1, nameLen := 1, outBuf := holding txt_foo } =
      .next t := by
  refine ⟨?_, ⟨_, rfl⟩, ⟨_, rfl⟩⟩
  unfold SameInput
  decide
theorem witness_RerunGivesTheSameResult : ∃ t, exec .b16Dec (loaded txt_4G) = .next t := ⟨_, rfl⟩
theorem witness_EncodeLengthIsRequiredLength :
    (isEncode .uucEnc = true ∧ (sized 63 86 0 (List.replicate 63 0x00#8)).inLen ≤ 63 ∧
      Room (sized 63 86 0 (List.replicate 63 0x00#8)) (sizeTable .uucEnc 63 0 0)) ∧
    (isEncode .uufEnc = true ∧ FieldRoom (withFields (sized 1 24 3 [0x66#8]) txt_644 [0x61#8]) ∧
      Room (withFields (sized 1 24 3 [0x66#8]) txt_644 [0x61#8]) (sizeTable .uufEnc 1 3 1)) := by
  unfold FieldRoom Room
  decide

theorem witness_Base64EncodeSymbols : Room (sized 0 1 0 []) (4 * (((sized 0 1 0 []).inLen + 2) / 3) + 1) ∧
    Room (sized 1 5 0 [0x66#8]) (4 * (((sized 1 5 0 [0x66#8]).inLen + 2) / 3) + 1) := by
  unfold Room
  decide
theorem witness_Base64DecodeBytes :
    (EndsIn (sized 6 6 0 txt_ZgPad2CrLf) (2 + 2) 2 ∧ SymbolsTo inv64 (sized 6 6 0 txt_ZgPad2CrLf) 2 ∧
      PadsAt (sized 6 6 0 txt_ZgPad2CrLf) 2 2 ∧ (2 + 2) % 4 = 0 ∧ 2 ≤ 2 ∧ (2 + 2 = 0 → 2 = 0) ∧
        Room (sized 6 6 0 txt_ZgPad2CrLf) 6) ∧
    (EndsIn (sized 4 4 0 txt_DashUnderDashUnder) (4 + 0) 0 ∧ SymbolsTo inv64u (sized 4 4 0 txt_DashUnderDashUnder) 4 ∧
      PadsAt (sized 4 4 0 txt_DashUnderDashUnder) 4 0 ∧
      (4 + 0) % 4 = 0 ∧ 0 ≤ 2 ∧ (4 + 0 = 0 → 0 = 0) ∧ Room (sized 4 4 0 txt_DashUnderDashUnder) 4) ∧
    (EndsIn (sized 0 0 0 []) (0 + 0) 0 ∧ SymbolsTo inv64 (sized 0 0 0 []) 0 ∧ PadsAt (sized 0 0 0 []) 0 0 ∧
      (0 + 0) % 4 = 0 ∧ 0 ≤ 2 ∧ (0 + 0 = 0 → 0 = 0) ∧ Room (sized 0 0 0 []) 0) := by
  unfold EndsIn SymbolsTo PadsAt Room LineEnd
  decide
theorem witness_Base64DecodeLengthFailures :
    (EndsInAll (loaded txt_CrLf) 0 2 ∧ (0 = 0 ∧ 0 < 2) ∧ Room (loaded txt_CrLf) 2) ∧
    (EndsInAll (loaded txt_ZgPad) 3 0 ∧ 3 % 4 ≠ 0 ∧ Room (loaded txt_ZgPad) 3) := by
  unfold EndsInAll EndsIn Room LineEnd
  decide
/-- `p` at a byte that is no pad; a pad in the first place, before the last quantum, and in front of a symbol. -/
theorem witness_Base64DecodeSymbolFailures :
    (EndsInAll (loaded txt_ZDollarPad2) 4 0 ∧ SymbolsTo inv64 (loaded txt_ZDollarPad2) 1 ∧
      inv64 ((loaded txt_ZDollarPad2).byte .input 1) = none ∧
      (loaded txt_ZDollarPad2).byte .input 1 ≠ 0x3D#8 ∧ Room (loaded txt_ZDollarPad2) 4) ∧
    (EndsInAll (loaded txt_PadgPad2) 4 0 ∧ SymbolsTo inv64u (loaded txt_PadgPad2) 0 ∧
      inv64u ((loaded txt_PadgPad2).byte .input 0) = none ∧
      (loaded txt_PadgPad2).byte .input 0 = 0x3D#8 ∧ 0 % 4 < 2) ∧
    (EndsInAll (loaded txt_Zm8PadZm9v) 8 0 ∧ SymbolsTo inv64 (loaded txt_Zm8PadZm9v) 3 ∧
      inv64 ((loaded txt_Zm8PadZm9v).byte .input 3) = none ∧ (loaded txt_Zm8PadZm9v).byte .input 3 = 0x3D#8 ∧
        3 / 4 + 1 < 8 / 4) ∧
    (EndsInAll (loaded txt_ZgPadv) 4 0 ∧ SymbolsTo inv64 (loaded txt_ZgPadv) 2 ∧
      inv64 ((loaded txt_ZgPadv).byte .input 2) = none ∧
      (loaded txt_ZgPadv).byte .input 2 = 0x3D#8 ∧ 2 % 4 = 2 ∧ (loaded txt_ZgPadv).byte .input 3 ≠ 0x3D#8) := by
  unfold EndsInAll EndsIn SymbolsTo Room LineEnd
  decide
theorem witness_Base64RoundTrip : (∀ c ∈ txt_CrLf, LineEnd c) ∧ ([0x66#8] = [] → txt_CrLf = []) := by
  unfold LineEnd
  decide

theorem witness_Base32EncodeSymbols : Room (sized 0 1 0 []) (8 * (((sized 0 1 0 []).inLen + 4) / 5) + 1) ∧
    Room (sized 1 9 0 [0x66#8]) (8 * (((sized 1 9 0 [0x66#8]).inLen + 4) / 5) + 1) := by
  unfold Room
  decide
theorem witness_Base32DecodeBytes :
    (EndsIn (sized 9 9 0 txt_MYPad6Lf) (2 + 6) 1 ∧ SymbolsTo inv32 (sized 9 9 0 txt_MYPad6Lf) 2 ∧
      PadsAt (sized 9 9 0 txt_MYPad6Lf) 2 6 ∧ 2 % 8 ≠ 1 ∧ 2 % 8 ≠ 3 ∧ 2 % 8 ≠ 6 ∧ canonicalPads 2 ≤ 6 ∧
      Room (sized 9 9 0 txt_MYPad6Lf) 9) ∧
    (EndsIn (loaded txt_MZXW6YTBPad) (8 + 1) 0 ∧ SymbolsTo inv32 (loaded txt_MZXW6YTBPad) 8 ∧
      PadsAt (loaded txt_MZXW6YTBPad) 8 1 ∧
      8 % 8 ≠ 1 ∧ 8 % 8 ≠ 3 ∧ 8 % 8 ≠ 6 ∧ canonicalPads 8 ≤ 1 ∧ Room (loaded txt_MZXW6YTBPad) 9) := by
  unfold EndsIn SymbolsTo PadsAt Room LineEnd
  decide
/-- One, three and six symbols in the last quantum, and one pad too few. -/
theorem witness_Base32DecodeTailFailures :
    (EndsIn (loaded [0x4D#8]) (1 + 0) 0 ∧ SymbolsTo inv32 (loaded [0x4D#8]) 1 ∧ PadsAt (loaded [0x4D#8]) 1 0 ∧
      1 % 8 = 1) ∧
    (EndsIn (loaded txt_MZXPad) (3 + 1) 0 ∧ SymbolsTo inv32 (loaded txt_MZXPad) 3 ∧ PadsAt (loaded txt_MZXPad) 3 1 ∧
      3 % 8 = 3) ∧
    (EndsIn (loaded txt_MZXW6Y) (6 + 0) 0 ∧ SymbolsTo inv32 (loaded txt_MZXW6Y) 6 ∧ PadsAt (loaded txt_MZXW6Y) 6 0 ∧
      6 % 8 = 6) ∧
    (EndsIn (loaded txt_MYPad5) (2 + 5) 0 ∧ SymbolsTo inv32 (loaded txt_MYPad5) 2 ∧ PadsAt (loaded txt_MYPad5) 2 5 ∧
      5 < canonicalPads 2) ∧ Room (loaded txt_MYPad5) 7 := by
  unfold EndsIn SymbolsTo PadsAt Room LineEnd
  decide
theorem witness_Base32DecodeSymbolFailures :
    (EndsInAll (loaded txt_MPadYPad2) (3 + 2) 0 ∧ PadsAt (loaded txt_MPadYPad2) 3 2 ∧
      (loaded txt_MPadYPad2).byte .input (3 - 1) ≠ 0x3D#8 ∧
      1 < 3 ∧ SymbolsTo inv32 (loaded txt_MPadYPad2) 1 ∧ inv32 ((loaded txt_MPadYPad2).byte .input 1) = none ∧
      (loaded txt_MPadYPad2).byte .input 1 = 0x3D#8 ∧ Room (loaded txt_MPadYPad2) 5) ∧
    (EndsInAll (loaded txt_M0) (2 + 0) 0 ∧ PadsAt (loaded txt_M0) 2 0 ∧ (loaded txt_M0).byte .input (2 - 1) ≠ 0x3D#8 ∧
      1 < 2 ∧ SymbolsTo inv32 (loaded txt_M0) 1 ∧ inv32 ((loaded txt_M0).byte .input 1) = none ∧
      (loaded txt_M0).byte .input 1 ≠ 0x3D#8 ∧ Room (loaded txt_M0) 2) := by
  unfold EndsInAll EndsIn SymbolsTo PadsAt Room LineEnd
  decide
theorem witness_Base32RoundTrip : ∀ c ∈ txt_CrLf, LineEnd c := by
  unfold LineEnd
  decide

theorem witness_Base16EncodeSymbols : Room (sized 1 3 0 [0x66#8]) (2 * (sized 1 3 0 [0x66#8]).inLen + 1) := by
  unfold Room
  decide
theorem witness_Base16DecodeResult :
    (Room (loaded txt_666) (loaded txt_666).inLen ∧ (loaded txt_666).inLen % 2 ≠ 0) ∧
    (Room (sized 2 2 0 txt_6f) 2 ∧ (sized 2 2 0 txt_6f).inLen % 2 = 0 ∧ SymbolsTo hexValue (sized 2 2 0 txt_6f) 2) ∧
    (Room (loaded txt_4G) 2 ∧ (loaded txt_4G).inLen % 2 = 0 ∧ 1 < (loaded txt_4G).inLen ∧
      SymbolsTo hexValue (loaded txt_4G) 1 ∧
      hexValue ((loaded txt_4G).byte .input 1) = none) := by
  unfold SymbolsTo Room
  decide

theorem witness_Base16RoundTrip : txt_666.length % 2 = 1 := by decide

theorem witness_UuLineEncodeSymbols : Room (sized 1 5 0 [0x66#8]) (4 * (((sized 1 5 0 [0x66#8]).inLen + 2) / 3) + 1) := by
  unfold Room
  decide
theorem witness_UuLineDecodeResult :
    (Room (loaded txt_9F) (loaded txt_9F).inLen ∧ (loaded txt_9F).inLen % 4 ≠ 0) ∧
    (Room (sized 4 4 0 txt_9AtSp2) 4 ∧ (sized 4 4 0 txt_9AtSp2).inLen % 4 = 0 ∧
      SymbolsTo uuVal (sized 4 4 0 txt_9AtSp2) 4) ∧
    (Room (loaded txt_9FBracketa) 4 ∧ (loaded txt_9FBracketa).inLen % 4 = 0 ∧ 3 < (loaded txt_9FBracketa).inLen ∧
      SymbolsTo uuVal (loaded txt_9FBracketa) 3 ∧ uuVal ((loaded txt_9FBracketa).byte .input 3) = none) := by
  unfold SymbolsTo Room
  decide
theorem witness_CountedLineEncodeResult :
    (Room (sized 63 86 0 (List.replicate 63 0x41#8)) (4 * ((63 + 2) / 3) + 2) ∧
      (sized 63 86 0 (List.replicate 63 0x41#8)).inLen ≤ 63) ∧
    (Room (sized 64 90 0 (List.replicate 64 0x41#8)) (4 * ((64 + 2) / 3) + 2) ∧
      63 < (sized 64 90 0 (List.replicate 64 0x41#8)).inLen) := by
  unfold Room
  decide
/-- Empty; no whole groups; a bad count character; a count too large; a good line; a bad symbol in the last place. -/
theorem witness_CountedLineDecodeResult :
    (Room (sized 0 0 0 []) 0 ∧ (sized 0 0 0 []).inLen = 0) ∧
    (Room (loaded txt_Hash9FBracket) 4 ∧ ((loaded txt_Hash9FBracket).inLen - 1) % 4 ≠ 0) ∧
    (Room (loaded txt_a9FBracketO) 5 ∧ (loaded txt_a9FBracketO).inLen = 1 + 4 * 1 ∧
      uuVal ((loaded txt_a9FBracketO).byte .input 0) = none) ∧
    ((loaded txt_Dollar9FBracketO).inLen = 1 + 4 * 1 ∧ uuVal ((loaded txt_Dollar9FBracketO).byte .input 0) = some 4 ∧
      3 * 1 < 4) ∧
    ((loaded txt_Hash9FBracketO).inLen = 1 + 4 * 1 ∧ uuVal ((loaded txt_Hash9FBracketO).byte .input 0) = some 3 ∧
      3 ≤ 3 * 1 ∧
      SymbolsTo uuVal (loaded txt_Hash9FBracketO) 5) ∧
    ((loaded txt_Hash9FBracketa).inLen = 1 + 4 * 1 ∧ uuVal ((loaded txt_Hash9FBracketa).byte .input 0) = some 3 ∧
      3 ≤ 3 * 1 ∧
      SymbolsTo uuVal (loaded txt_Hash9FBracketa) 4 ∧ uuVal ((loaded txt_Hash9FBracketa).byte .input 4) = none) := by
  unfold SymbolsTo Room
  decide
theorem witness_CountedLineRoundTrip : (List.replicate 63 0x00#8).length ≤ 63 := by decide

theorem witness_EnvelopeEncodeLayout :
    FieldRoom (withFields (sized 1 24 3 [0x66#8]) txt_644 [0x61#8]) ∧
      Room (withFields (sized 1 24 3 [0x66#8]) txt_644 [0x61#8]) (envelopeSize 1 3 1 + 1) := by
  unfold FieldRoom Room
  decide
theorem witness_EnvelopeDecodeBytes :
    (loaded (beginBytes ++ txt_xLfHash9FBracketOLfBang9AtTick2Lf ++ endBytes ++ [0x0A#8])).inputBytes =
      beginBytes ++ [0x78#8] ++ [0x0A#8] ++ asBody ([(txt_Hash9FBracketO, 3), (txt_Bang9AtTick2,
        1)].map Prod.fst) ++ endBytes ++ [0x0A#8] ∧
    0x0A#8 ∉ [0x78#8] ∧ GoodLine txt_Hash9FBracketO 3 ∧ GoodLine txt_Bang9AtTick2 1 ∧
    Room (loaded (beginBytes ++ txt_xLfHash9FBracketOLfBang9AtTick2Lf ++ endBytes ++ [0x0A#8])) 26 := by
  refine ⟨by decide, by decide, ⟨_, _, rfl, by decide⟩, ⟨_, _, rfl, by decide⟩, ?_⟩
  unfold Room
  decide
/-- No `begin `; no LF; an `end` with no terminator line in front of it. -/
theorem witness_EnvelopeDecodeFormatFailures :
    (¬ beginBytes <+: (loaded txt_BeginSpxLfTickLfend).inputBytes) ∧ (0x0A#8 ∉ (loaded txt_beginSpx).inputBytes) ∧
    ((loaded txt_beginSpxLfHash9FBracketOLfend).inputBytes = txt_beginSpx ++ [0x0A#8] ++ txt_Hash9FBracketOLfend ∧
      0x0A#8 ∉ txt_beginSpx ∧
      ¬ ([0x0A#8] ++ endBytes) <:+: ([0x0A#8] ++ txt_Hash9FBracketOLfend)) ∧
        Room (loaded txt_beginSpxLfHash9FBracketOLfend) 17 := by
  unfold Room
  decide
/-- A good line, then a line with a bad symbol, then a line that is not looked at. -/
theorem witness_EnvelopeDecodeLineFailures :
    (loaded (beginBytes ++ txt_xLfBang9AtTick2LfHash9FBracketaLfzzLf ++ endBytes)).inputBytes =
      beginBytes ++ [0x78#8] ++ [0x0A#8] ++ asBody ([(txt_Bang9AtTick2,
        1)].map Prod.fst ++ txt_Hash9FBracketa :: [txt_zz]) ++ endBytes ++ [] ∧
    0x0A#8 ∉ [0x78#8] ∧ GoodLine txt_Bang9AtTick2 1 ∧ 0x0A#8 ∉ txt_Hash9FBracketa ∧
      BadLine txt_Hash9FBracketa .invalidAlphabetChar 4 ∧
    (∀ l ∈ [txt_zz], 0x0A#8 ∉ l) ∧
    (¬ ([0x0A#8] ++ endBytes) <:+: ([0x0A#8] ++ asBody ([(txt_Bang9AtTick2,
      1)].map Prod.fst ++ txt_Hash9FBracketa :: [txt_zz]))) ∧
    Room (loaded (beginBytes ++ txt_xLfBang9AtTick2LfHash9FBracketaLfzzLf ++ endBytes)) 28 := by
  refine ⟨by decide, by decide, ⟨_, _, rfl, by decide⟩, by decide, ?_, by decide, by decide, ?_⟩
  · refine .inr ⟨_, _, rfl, .inr (.inr ⟨by decide, 3, by decide, .inr ⟨by decide, rfl, by decide, ⟨_, rfl, by decide⟩,
      ?_⟩⟩)⟩
    intro j x h0 h1 hx
    interval_cases j <;> cases hx <;> decide
  · unfold Room
    decide
/-- The other four ways a line is refused. -/
theorem witness_BadLine : BadLine [] .invalidLength 0 ∧ BadLine txt_Hash9FBracket .invalidLength 0 ∧
    BadLine txt_a9FBracketO .invalidAlphabetChar 0 ∧ BadLine txt_Dollar9FBracketO .invalidLength 0 :=
  ⟨.inl (by decide), .inr ⟨_, _, rfl, .inl (by decide)⟩, .inr ⟨_, _, rfl, .inr (.inl (by decide))⟩,
    .inr ⟨_, _, rfl, .inr (.inr ⟨by decide, 4, by decide, .inl (by decide)⟩)⟩⟩
theorem witness_EnvelopeRoundTrip : 0x0A#8 ∉ txt_644 ∧ 0x0A#8 ∉ txt_catDottxt := by decide

theorem witness_RunMoveRunRestoresTheInput :
    RoomToRestore .b64Enc (sized 8 9 0 txt_foobar) ∧ RoomToRestore .b64uEnc (sized 8 9 0 txt_foobar) ∧
    RoomToRestore .b32Enc (sized 16 17 0 txt_foobar) ∧ RoomToRestore .b16Enc (sized 12 13 0 txt_foobar) ∧
    (RoomToRestore .uucEnc (sized 9 10 0 txt_foobar) ∧ (sized 9 10 0 txt_foobar).inLen ≤ 63) ∧
    (RoomToRestore .uufEnc (withFields (sized 27 28 3 txt_foobar) txt_644 [0x61#8]) ∧
      FieldRoom (withFields (sized 27 28 3 txt_foobar) txt_644 [0x61#8]) ∧
      (∀ j, j < (withFields (sized 27 28 3 txt_foobar) txt_644 [0x61#8]).modeLen →
        (withFields (sized 27 28 3 txt_foobar) txt_644 [0x61#8]).byte .mode j ≠ 0x0A#8) ∧
      ∀ j, j < (withFields (sized 27 28 3 txt_foobar) txt_644 [0x61#8]).nameLen →
        (withFields (sized 27 28 3 txt_foobar) txt_644 [0x61#8]).byte .name j ≠ 0x0A#8) := by
  unfold RoomToRestore FieldRoom
  decide
theorem witness_EveryStepKeepsWellFormed : State.wf { sized 8 30 3 txt_foobar with cmd := 0x00#8, phase := .busy } ∧
    ∃ t, step { sized 8 30 3 txt_foobar with cmd := 0x00#8, phase := .busy } = .next t := ⟨by decide, _, rfl⟩
theorem witness_ObedientHostNeverFaults :
    (State.hostObeys { given 0x00#8 [] with pending := [.host (.readReg .phase)] } = true ∧
      State.hostObeys { given 0x00#8 [] with pending := [.host (.readByte .mode 254)] } = true ∧
      State.hostObeys { State.reset with pending := [.host (.writeByte .input 255 0x00#8)] } = true) ∧
    (State.pending { given 0x00#8 [] with pending := [.host (.readReg .phase)] }).head? ≠ some .unit := by decide
theorem witness_PhaseChangesOnlyAsStated :
    after State.reset (.host (.writeReg .ctrl 1)) (fun u => u.phase != State.reset.phase) = true ∧
    after (finished []) .reset (fun u => u.phase != (finished []).phase) = true ∧
    after (given 0x00#8 []) .core (fun u => u.phase != (given 0x00#8 []).phase) = true := by decide
theorem witness_ResultStaysUntilNextStart : (finished [0x66#8]).phase = .done ∧
    after (finished [0x66#8]) (.host (.writeByte .output 1 0x00#8)) (fun u => u.phase == .done) = true ∧
    after (finished [0x66#8]) (.host (.writeReg .cmd 1)) (fun u => u.phase == .done) = true := by decide
theorem witness_IdleCoreKeepsAllState : State.reset.phase ≠ .busy ∧ State.reset.pending = [] ∧
    (finished [0x66#8]).phase ≠ .busy ∧ (finished [0x66#8]).pending = [] ∧
    State.pending { finished [0x66#8] with pending := [.core] } = .core :: [] ∧
    State.pending { State.reset with pending := [.unit, .core] } = .unit :: [.core] := by decide
theorem witness_ResetInputGivesResetValues :
    State.pending { given 0x05#8 [0x66#8] with pending := [.reset, .core] } = .reset :: [.core] ∧
      1 < 2 ^ (given 0x05#8 [0x66#8]).par.lenw := by decide
theorem witness_HostRegisterWrite : (finished []).phase ≠ .busy ∧
    State.pending { finished [] with pending := [.host (.writeReg .inLen 4294967296)] } =
      .host (.writeReg .inLen 4294967296) :: [] ∧ Reg.inLen ≠ .ctrl := by decide
theorem witness_HostReadDelivers : State.reset.phase ≠ .busy ∧ (finished [0x66#8]).phase ≠ .busy ∧
    (∀ r, State.pending { finished [0x66#8] with pending := [.host (.readReg r)] } = .host (.readReg r) :: []) ∧
    State.cmd { finished [0x66#8] with cmd := 0x0D#8 } = encode .uufDec ∧
    0x0E ≤ (State.cmd { finished [0x66#8] with cmd := 0x0E#8 }).toNat ∧
    State.pending { State.reset with pending := [.host (.readByte .name 254)] } = .host (.readByte .name 254) :: [] ∧
    254 < State.reset.par.auxCap ∧ 255 < State.reset.par.inCap ∧ 255 < State.reset.par.outCap :=
  ⟨by decide, by decide, fun _ => rfl, by decide⟩
theorem witness_HostByteWrite : State.reset.phase ≠ .busy ∧
    State.pending { State.reset with pending := [.host (.writeByte .input 255 0x41#8)] } =
      .host (.writeByte .input 255 0x41#8) :: [] ∧ 255 < State.reset.par.inCap := by decide
theorem witness_HostWriteWhileBusyFaults : (given 0x00#8 []).phase = .busy ∧
    State.pending { given 0x00#8 [] with pending := [.host (.writeReg .ctrl 1)] } = .host (.writeReg .ctrl 1) :: [] ∧
    State.pending { given 0x00#8 [] with pending := [.host (.writeByte .output 0 0x00#8)] } =
      .host (.writeByte .output 0 0x00#8) :: [] := by decide
theorem witness_HostReadWhileBusy : (given 0x00#8 []).phase = .busy ∧
    State.pending { given 0x00#8 [] with pending := [.host (.readReg .phase)] } = .host (.readReg .phase) :: [] ∧
    State.pending { given 0x00#8 [] with pending := [.host (.readReg .errPos)] } = .host (.readReg .errPos) :: [] ∧
    State.pending { given 0x00#8 [] with pending := [.host (.readByte .output 255)] } =
      .host (.readByte .output 255) :: [] ∧ 255 < (given 0x00#8 []).par.outCap := by decide
theorem witness_UnitStepsAgreeForEncodes : isEncode .uufEnc = true ∧ (given 0x0C#8 [0x66#8]).phase = .busy ∧
    (given 0x0C#8 [0x66#8]).work = Work.init ∧ decode (given 0x0C#8 [0x66#8]).cmd = .ok .uufEnc ∧
    State.pending { given 0x0C#8 [0x66#8] with pending := [.unit, .unit] } = .unit :: [.unit] := by decide
theorem witness_UnitStepsAgreeForDecodes : isEncode .uufDec = false ∧ (given 0x0D#8 [0x66#8]).phase = .busy ∧
    (given 0x0D#8 [0x66#8]).work = Work.init ∧ decode (given 0x0D#8 [0x66#8]).cmd = .ok .uufDec ∧
    State.pending { given 0x0D#8 [0x66#8] with pending := [.unit, .unit] } = .unit :: [.unit] := by decide

end Sys2Proof.Tests
end

section
/-! PROOFS. The invariant of `Safety.lean` over every step: the rules for the single events, put together. -/

namespace Sys2Proof.Machine

/-- What the core's turn for one unit step can do. -/
theorem unitTurn_cases (s : State) :
    (s.phase ≠ .busy ∧ unitTurn s = .next s) ∨
    (s.phase = .busy ∧ ∃ i, decode s.cmd = .ok i ∧ unitTurn s = unitStep i s) ∨
    (s.phase = .busy ∧ ∃ e, decode s.cmd = .error e ∧ unitTurn s = .next s.takeIllegal) := by
  unfold unitTurn
  cases s.phase with
  | idle => exact .inl ⟨by simp, rfl⟩
  | done => exact .inl ⟨by simp, rfl⟩
  | busy =>
    cases decode s.cmd with
    | ok i => exact .inr (.inl ⟨rfl, i, rfl, rfl⟩)
    | error e => exact .inr (.inr ⟨rfl, e, rfl, rfl⟩)

/-- A turn of the core for one unit step keeps the invariant and the parameters. -/
theorem wf_unitTurn {s t : State} (h : s.wf) (hu : unitTurn s = .next t) : t.wf ∧ t.par = s.par := by
  rcases unitTurn_cases s with ⟨_, e⟩ | ⟨hb, i, _, e⟩ | ⟨_, _, _, e⟩ <;> rw [e] at hu
  · cases hu; exact ⟨h, rfl⟩
  · exact wf_unitStep h hb hu
  · cases hu; exact ⟨wf_takeIllegal h, rfl⟩

/-- Settles O46, by cases on the oldest pending event: each kind of event keeps the invariant by its own lemma, applied to
the state without that event, which meets the invariant by `hwf` because the invariant does not speak of `pending`. -/
theorem everyStepKeepsWellFormed : Obligations.EveryStepKeepsWellFormed := by
  intro s t hwf hstep
  cases hp : s.pending with
  | nil =>
    rw [step, hp] at hstep
    exact wf_coreTurn hwf hstep
  | cons event rest =>
    rw [step, hp] at hstep
    cases event with
    | host a => exact wf_hostAccess (s := { s with pending := rest }) hwf hstep
    | core => exact wf_coreTurn (s := { s with pending := rest }) hwf hstep
    | unit => exact wf_unitTurn (s := { s with pending := rest }) hwf hstep
    | reset =>
      cases hstep
      exact ⟨wf_reset (s := { s with pending := rest }) hwf, rfl⟩

end Sys2Proof.Machine
end

section
/-! PROOFS. Commands: what a command leaves unchanged, what it leaves in the result registers and in `OUT`, and what its
result depends on. -/

namespace Sys2Proof.Machine

open Sys2Proof.Claims

/-- A command changes none of its inputs, whichever way it completes (R36, R244). -/
theorem unchanged_exec {s t : State} {i : Instr} (h : exec i s = .next t) : Unchanged s t := by
  rcases exec_cases h with ⟨-, rfl⟩ | ⟨-, f, -, rfl⟩ | ⟨-, d, -, rfl⟩
  · exact unchanged_raise s _
  · exact unchanged_raise s f
  · exact unchanged_succeed s d _

/-- A command leaves a success with position 0, or a failure with result length 0 (R244, R245). -/
theorem result_exec {s t : State} {i : Instr} (h : exec i s = .next t) :
    t.status = .ok ∧ t.errPos = 0 ∨ (∃ k, t.status = .failed k) ∧ t.outLen = 0 := by
  rcases exec_cases h with ⟨-, rfl⟩ | ⟨-, f, -, rfl⟩ | ⟨-, d, -, rfl⟩
  · exact .inr ⟨⟨_, rfl⟩, rfl⟩
  · exact .inr ⟨⟨_, rfl⟩, rfl⟩
  · exact .inl ⟨rfl, rfl⟩

/-- After a failure no byte of `OUT` has a defined value (R244). -/
theorem get?_outBuf_of_failed {s t : State} {i : Instr} (h : exec i s = .next t) (hs : t.status ≠ .ok) (a : Nat) :
    Memory.get? t.outBuf.cells a = none := by
  rcases exec_cases h with ⟨-, rfl⟩ | ⟨-, f, -, rfl⟩ | ⟨-, d, -, rfl⟩
  · rfl
  · rfl
  · exact absurd rfl hs

/-- Behind the result bytes and an encode's marker no byte of `OUT` has a defined value (R36, R66, R67). -/
theorem get?_outBuf_behind_result {s t : State} {i : Instr} {a : Nat} (h : exec i s = .next t)
    (ha : t.outLen + (if isEncode i then 1 else 0) ≤ a) : Memory.get? t.outBuf.cells a = none := by
  rcases exec_cases h with ⟨-, rfl⟩ | ⟨-, f, -, rfl⟩ | ⟨-, d, -, rfl⟩
  · rfl
  · rfl
  · rw [← length_tailOf, State.succeed_outLen, ← List.length_append] at ha
    rw [State.succeed_outBuf, Memory.get?_write_nil, List.getElem?_eq_none ha]

/-- Settles O14: each clause by the three ways a command completes. -/
theorem commandFrame : Obligations.CommandFrame := fun _ _ _ h =>
  ⟨unchanged_exec h, phase_exec h, result_exec h, fun a hs => get?_outBuf_of_failed h hs a,
    fun _ ha => get?_outBuf_behind_result h ha⟩

/-- The size of a command's result depends on the header fields for `UUF.ENC` only (R221, R223). -/
theorem commandReqLen_congr {i : Instr} {n m m' f f' : Nat} (h : i = .uufEnc → m' = m ∧ f' = f) :
    commandReqLen i n m' f' = commandReqLen i n m f := by
  cases i
  case uufEnc => obtain ⟨rfl, rfl⟩ := h rfl; rfl
  all_goals rfl

/-- A command's function reads the header fields for `UUF.ENC` only (R92). -/
theorem ownResult_congr {i : Instr} {t m m' f f' : Bytes} (h : i = .uufEnc → m' = m ∧ f' = f) :
    ownResult i t m' f' = ownResult i t m f := by
  cases i
  case uufEnc => obtain ⟨rfl, rfl⟩ := h rfl; rfl
  all_goals rfl

/-- The capacity check gives the same answer on the same inputs (R41, R226). -/
theorem fits_of_sameInput {i : Instr} {s s' : State} (h : SameInput i s s') : s'.fits i = s.fits i := by
  obtain ⟨hpar, hlen, -, hfields⟩ := h
  have hsize : commandReqLen i s.inLen s'.modeLen s'.nameLen = commandReqLen i s.inLen s.modeLen s.nameLen :=
    commandReqLen_congr fun hi => ⟨(hfields hi).1, (hfields hi).2.1⟩
  rw [Bool.eq_iff_iff, fits_iff, fits_iff, hpar, hlen, hsize]
  refine and_congr_right fun _ => and_congr_left fun _ => forall_congr' fun hi => ?_
  rw [(hfields hi).1, (hfields hi).2.1]

/-- A command's function gives the same answer on the same inputs (R41). -/
theorem ownResult_of_sameInput {i : Instr} {s s' : State} (h : SameInput i s s') :
    ownResult i s'.inputBytes s'.modeBytes s'.nameBytes = ownResult i s.inputBytes s.modeBytes s.nameBytes := by
  obtain ⟨-, hlen, hin, hfields⟩ := h
  have hinput : s'.inputBytes = s.inputBytes := by
    rw [State.inputBytes, hlen]
    exact Buffer_read_congr _ _ _ _ hin
  rw [hinput]
  refine ownResult_congr fun hi => ?_
  obtain ⟨hmLen, hnLen, hmode, hname⟩ := hfields hi
  constructor
  · rw [State.modeBytes, hmLen]
    exact Buffer_read_congr _ _ _ _ hmode
  · rw [State.nameBytes, hnLen]
    exact Buffer_read_congr _ _ _ _ hname

/-- The same failure shows the same result in any state (R244). -/
theorem sameResult_raise (s s' : State) (f : Failure) : SameResult (s.raise f) (s'.raise f) :=
  ⟨rfl, rfl, rfl, rfl, fun _ hj => absurd hj (Nat.not_lt_zero _)⟩

/-- The same result bytes show the same result in any state (R245). -/
theorem sameResult_succeed (s s' : State) (d tail : Bytes) : SameResult (s.succeed d tail) (s'.succeed d tail) :=
  ⟨rfl, rfl, rfl, rfl, fun _ hj => (byte_succeed s' d tail hj).trans (byte_succeed s d tail hj).symm⟩

/-- Two states with the same inputs complete a command with the same result: the same one of the three ways, with the same
failure or the same bytes (R41). -/
theorem sameResult_exec {s s' t t' : State} {i : Instr} (h : SameInput i s s') (ht : exec i s = .next t)
    (ht' : exec i s' = .next t') : SameResult t t' := by
  rw [exec_eq_runCommand] at ht ht'
  rw [ownResult_of_sameInput h] at ht'
  cases ht
  cases ht'
  unfold State.runCommand
  rw [fits_of_sameInput h]
  cases s.fits i with
  | false => exact sameResult_raise s s' _
  | true =>
    cases ownResult i s.inputBytes s.modeBytes s.nameBytes with
    | error f => exact sameResult_raise s s' f
    | ok d => exact sameResult_succeed s s' d _

/-- Settles O17: the capacity check and the command's function see the compared inputs only, and the completion writes what
they give. -/
theorem resultDependsOnTheInputOnly : Obligations.ResultDependsOnTheInputOnly := fun _ _ _ _ _ h ht ht' =>
  ⟨sameResult_exec h ht ht', unchanged_exec ht⟩

end Sys2Proof.Machine
end

section
/-! PROOFS. The host port: what a register write does to each field, what a read delivers, what a byte write leaves alone. -/

namespace Sys2Proof.Machine

open Sys2Proof.Claims

/-- A host's access as the oldest event is the whole step (R20, R73). -/
theorem step_host {s : State} {a : Access} {rest : List Event} (h : s.pending = .host a :: rest) :
    step s = hostAccess a { s with pending := rest } := by
  rw [step, h]

/-- A host write of a register while not BUSY (R232). -/
theorem hostAccess_writeReg {s : State} (h : s.phase ≠ .busy) (r : Reg) (v : Nat) :
    hostAccess (.writeReg r v) s = .next (s.writeReg r v) := if_neg h

/-- A host write of a byte that exists, while not BUSY (R232). -/
theorem hostAccess_writeByte {s : State} {sp : Space} {a : Nat} (h : s.phase ≠ .busy) (ha : a < capOf s.par sp) (v : Byte) :
    hostAccess (.writeByte sp a v) s = .next (s.setByte sp a v) := by
  rw [hostAccess, if_neg h, if_neg (Nat.not_le_of_lt ha)]

/-- A host read of a register while not BUSY (R232). -/
theorem hostAccess_readReg {s : State} (h : s.phase ≠ .busy) (r : Reg) :
    hostAccess (.readReg r) s = .next (s.deliver (s.readReg r)) := by
  rw [hostAccess, State.hostReadReg, if_neg fun hb => h hb.1]

/-- A host read of a byte that exists, while not BUSY (R69, R232). -/
theorem hostAccess_readByte {s : State} {sp : Space} {a : Nat} (h : s.phase ≠ .busy) (ha : a < capOf s.par sp) :
    hostAccess (.readByte sp a) s = .next (s.deliver (s.byte sp a).toNat) := by
  rw [hostAccess, if_neg (Nat.not_le_of_lt ha), State.hostReadByte, if_neg h]

/-- What a host write of a register does to each field: the four writable registers take the value cut to their width,
`CTRL` with bit 0 set starts the command, and every other field stays (R22 to R24, R225). -/
theorem State.writeReg_eq (s : State) (r : Reg) (v : Nat) : s.writeReg r v =
    { s with
      cmd := if r = .cmd then BitVec.ofNat 8 v else s.cmd
      inLen := if r = .inLen then v % 2 ^ s.par.lenw else s.inLen
      modeLen := if r = .modeLen then v % 2 ^ s.par.lenw else s.modeLen
      nameLen := if r = .nameLen then v % 2 ^ s.par.lenw else s.nameLen
      phase := if r = .ctrl ∧ v % 2 = 1 then .busy else s.phase
      work := if r = .ctrl ∧ v % 2 = 1 then Work.init else s.work } := by
  cases r
  case ctrl => by_cases hv : v % 2 = 1 <;> simp [State.writeReg, State.start, hv]
  all_goals simp [State.writeReg]

@[simp] theorem State.writeReg_par (s : State) (r : Reg) (v : Nat) : (s.writeReg r v).par = s.par := by rw [State.writeReg_eq]
@[simp] theorem State.writeReg_status (s : State) (r : Reg) (v : Nat) : (s.writeReg r v).status = s.status := by rw [State.writeReg_eq]
@[simp] theorem State.writeReg_outLen (s : State) (r : Reg) (v : Nat) : (s.writeReg r v).outLen = s.outLen := by rw [State.writeReg_eq]
@[simp] theorem State.writeReg_errPos (s : State) (r : Reg) (v : Nat) : (s.writeReg r v).errPos = s.errPos := by rw [State.writeReg_eq]
@[simp] theorem State.writeReg_pending (s : State) (r : Reg) (v : Nat) : (s.writeReg r v).pending = s.pending := by
  rw [State.writeReg_eq]
@[simp] theorem State.writeReg_lastRead (s : State) (r : Reg) (v : Nat) : (s.writeReg r v).lastRead = s.lastRead := by
  rw [State.writeReg_eq]

/-- A host write of a register changes no buffer (R35). -/
@[simp] theorem State.writeReg_byte (s : State) (r : Reg) (v : Nat) (sp : Space) (a : Nat) :
    (s.writeReg r v).byte sp a = s.byte sp a := by
  rw [State.writeReg_eq]
  cases sp <;> rfl

/-- A host write of a register changes `PHASE` by `START` only (R24, R231). -/
theorem State.writeReg_phase (s : State) (r : Reg) (v : Nat) :
    (s.writeReg r v).phase = if r = .ctrl ∧ v % 2 = 1 then .busy else s.phase := by rw [State.writeReg_eq]

/-- A write of `CTRL` with bit 0 set is `START` (R24). -/
theorem State.writeReg_ctrl_start {v : Nat} (s : State) (hv : v % 2 = 1) : s.writeReg .ctrl v = s.start := if_pos hv

/-- A write of `CTRL` with bit 0 clear has no effect (R24). -/
theorem State.writeReg_ctrl_clear {v : Nat} (s : State) (hv : v % 2 = 0) : s.writeReg .ctrl v = s :=
  if_neg (by omega)

/-- `START` changes no input (R225). -/
theorem unchanged_start (s : State) : Unchanged s s.start :=
  ⟨rfl, rfl, rfl, rfl, rfl, rfl, rfl, fun sp _ _ => by cases sp <;> rfl⟩

/-- Settles O12: bit 0 decides between `START` and no effect. -/
theorem startSetsBusy : Obligations.StartSetsBusy := by
  intro s v rest hp hpe
  rw [step_host hpe, hostAccess_writeReg (s := { s with pending := rest }) hp]
  constructor
  · intro hv
    rw [State.writeReg_ctrl_start _ hv]
    exact ⟨_, rfl, rfl, rfl, rfl, rfl, rfl, rfl, unchanged_start _⟩
  · intro hv
    rw [State.writeReg_ctrl_clear _ hv]

/-- Settles O52, by the effect of a register write on each field. -/
theorem hostRegisterWrite : Obligations.HostRegisterWrite := by
  intro s r v rest hp hpe hr
  refine ⟨State.writeReg { s with pending := rest } r v, ?_, by simp, ?_, ?_, ?_, ?_, ?_, by simp, by simp, by simp, by simp,
    by simp, fun sp a => ?_⟩
  · rw [step_host hpe, hostAccess_writeReg (s := { s with pending := rest }) hp]
  · rw [State.writeReg_eq]
    by_cases h : r = .cmd <;> simp [State.readReg, h]
  · rw [State.writeReg_eq]; rfl
  · rw [State.writeReg_eq]; rfl
  · rw [State.writeReg_eq]; rfl
  · rw [State.writeReg_phase, if_neg fun h => hr h.1]
  · rw [State.writeReg_byte]
    cases sp <;> rfl

/-- What a phase reads as (R22, R25). -/
theorem phase_code_eq (p : Phase) : p.code = phaseNumber p := by cases p <;> rfl

/-- What a status reads as (R26, R98). -/
theorem status_code_eq (st : Status) : st.code = statusNumber st := by
  cases st with
  | ok => rfl
  | failed k => cases k <;> rfl

/-- `REQ_LEN` of a command is its size (R221, R223). -/
theorem reqLen_encode (i : Instr) (n m f : Nat) : reqLen (encode i) n m f = sizeTable i n m f := by
  rw [reqLen, decode_encode, sizeTable_eq]

/-- Every word from 0x0E on is illegal (R94). -/
theorem decode_eq_error_of_le : ∀ w : Byte, 0x0E ≤ w.toNat →
    decode w = .error .zeroFieldNotZero ∨ decode w = .error .reservedCodec := by decide

/-- `REQ_LEN` of an illegal word is 0 (R224). -/
theorem reqLen_of_illegal {w : Byte} (h : 0x0E ≤ w.toNat) (n m f : Nat) : reqLen w n m f = 0 := by
  rcases decode_eq_error_of_le w h with e | e <;> rw [reqLen, e]

/-- What is pending shows in no register. -/
@[simp] theorem State.readReg_pending (s : State) (rest : List Event) (r : Reg) :
    State.readReg { s with pending := rest } r = s.readReg r := by cases r <;> rfl

/-- What is pending shows in no buffer byte. -/
@[simp] theorem State.byte_pending (s : State) (rest : List Event) (sp : Space) (a : Nat) :
    State.byte { s with pending := rest } sp a = s.byte sp a := by cases sp <;> rfl

/-- A write of a buffer byte shows in no register (R35). -/
@[simp] theorem State.readReg_setByte (s : State) (sp : Space) (a : Nat) (v : Byte) (r : Reg) :
    (s.setByte sp a v).readReg r = s.readReg r := by cases r <;> simp [State.readReg]

/-- Settles O53: the read delivers `readReg`, whose value each register gives by its own rule, or the byte. -/
theorem hostReadDelivers : Obligations.HostReadDelivers := by
  constructor
  · intro s r rest hp hpe
    refine ⟨s.readReg r, ?_, rfl, ?_, ?_, ?_, ?_, ?_, ?_, ?_, ?_, ?_, ?_, ?_⟩
    · rw [step_host hpe, hostAccess_readReg (s := { s with pending := rest }) hp, State.readReg_pending]
      rfl
    · rintro rfl; rfl
    · rintro rfl; rfl
    · rintro rfl; rfl
    · rintro rfl; rfl
    · rintro rfl; rfl
    · rintro rfl; exact phase_code_eq s.phase
    · rintro rfl; exact status_code_eq s.status
    · rintro rfl; rfl
    · rintro rfl; rfl
    · rintro i rfl hi
      rw [State.readReg, hi, reqLen_encode]
    · rintro rfl hw
      rw [State.readReg, reqLen_of_illegal hw, Nat.zero_mod]
  · intro s sp a rest hp hpe ha
    rw [step_host hpe, hostAccess_readByte (s := { s with pending := rest }) hp ha, State.byte_pending]
    rfl

/-- Settles O54, by the laws of a read after a write. -/
theorem hostByteWrite : Obligations.HostByteWrite := by
  intro s sp a v rest hp hpe ha
  refine ⟨State.setByte { s with pending := rest } sp a v, ?_, by simp, State.byte_setByte_same _ _ _ _, ?_, ?_, by simp,
    by simp⟩
  · rw [step_host hpe, hostAccess_writeByte (s := { s with pending := rest }) hp ha]
  · intro sp' b h
    rw [State.byte_setByte_other _ _ _ _ _ _ h, State.byte_pending]
  · intro r
    rw [State.readReg_setByte, State.readReg_pending]

end Sys2Proof.Machine
end

section
/-! PROOFS. Every step: that it answers a next state, how it changes `PHASE`, and what it leaves of a result. -/

namespace Sys2Proof.Machine

/-- A host read of a register delivers a value or a free value (R232, R292). -/
theorem hostReadReg_delivers (s : State) (r : Reg) :
    (∃ v, s.hostReadReg r = s.deliver v) ∨ ∃ width, s.hostReadReg r = s.deliverFree width := by
  unfold State.hostReadReg
  split
  · exact .inr ⟨_, rfl⟩
  · exact .inl ⟨_, rfl⟩

/-- A host read of a byte delivers a value or a free value (R69, R292). -/
theorem hostReadByte_delivers (s : State) (sp : Space) (a : Nat) :
    (∃ v, s.hostReadByte sp a = s.deliver v) ∨ ∃ width, s.hostReadByte sp a = s.deliverFree width := by
  unfold State.hostReadByte
  split
  · exact .inr ⟨_, rfl⟩
  · exact .inl ⟨_, rfl⟩

/-- What a host access that completes makes of the state: a read delivers and does nothing else (R232). -/
theorem hostAccess_effect {a : Access} {s t : State} (h : hostAccess a s = .next t) :
    (∃ v, t = s.deliver v) ∨ (∃ width, t = s.deliverFree width) ∨ (∃ r v, a = .writeReg r v ∧ t = s.writeReg r v) ∨
      ∃ sp b v, a = .writeByte sp b v ∧ t = s.setByte sp b v := by
  rcases hostAccess_cases h with ⟨r, -, rfl⟩ | ⟨r, v, rfl, -, rfl⟩ | ⟨sp, b, -, -, rfl⟩ | ⟨sp, b, v, rfl, -, -, rfl⟩
  · rcases hostReadReg_delivers s r with hv | hw
    · exact .inl hv
    · exact .inr (.inl hw)
  · exact .inr (.inr (.inl ⟨r, v, rfl, rfl⟩))
  · rcases hostReadByte_delivers s sp b with hv | hw
    · exact .inl hv
    · exact .inr (.inl hw)
  · exact .inr (.inr (.inr ⟨sp, b, v, rfl, rfl⟩))

/-- A host access changes `PHASE` by `START` only (R231). -/
theorem hostAccess_phase {a : Access} {s t : State} (h : hostAccess a s = .next t) :
    t.phase = s.phase ∨ t.phase = .busy ∧ ∃ v, v % 2 = 1 ∧ a = .writeReg .ctrl v := by
  rcases hostAccess_effect h with ⟨v, rfl⟩ | ⟨w, rfl⟩ | ⟨r, v, rfl, rfl⟩ | ⟨sp, b, v, rfl, rfl⟩
  · exact .inl rfl
  · exact .inl rfl
  · rw [State.writeReg_phase]
    split_ifs with hstart
    · obtain ⟨rfl, hv⟩ := hstart
      exact .inr ⟨rfl, v, hv, rfl⟩
    · exact .inl rfl
  · exact .inl (State.setByte_phase ..)

/-- A host access changes no result register, and of `OUT` only the byte it writes (R22, R23, R232). -/
theorem hostAccess_keeps_result {a : Access} {s t : State} (h : hostAccess a s = .next t) :
    t.status = s.status ∧ t.outLen = s.outLen ∧ t.errPos = s.errPos ∧
      ∀ b, (∀ v, a ≠ .writeByte .output b v) → t.byte .output b = s.byte .output b := by
  rcases hostAccess_effect h with ⟨v, rfl⟩ | ⟨w, rfl⟩ | ⟨r, v, rfl, rfl⟩ | ⟨sp, c, v, rfl, rfl⟩
  · exact ⟨rfl, rfl, rfl, fun _ _ => rfl⟩
  · exact ⟨rfl, rfl, rfl, fun _ _ => rfl⟩
  · exact ⟨by simp, by simp, by simp, fun _ _ => by simp⟩
  · refine ⟨by simp, by simp, by simp, fun b hb => State.byte_setByte_other _ _ _ _ _ _ ?_⟩
    refine not_and_or.1 ?_
    rintro ⟨rfl, rfl⟩
    exact hb v rfl

/-- A turn of the core always answers a next state (R227, R240). -/
theorem coreTurn_answers (s : State) : ∃ t, coreTurn s = .next t := by
  rcases coreTurn_cases s with ⟨-, e⟩ | ⟨-, i, -, e⟩ | ⟨-, _, -, e⟩
  · exact ⟨_, e⟩
  · exact ⟨_, e.trans (exec_eq_runCommand i s)⟩
  · exact ⟨_, e⟩

/-- What the host may do while BUSY it may do in any phase. -/
theorem safeWhileOwned_of_safeWhileBusy {p : Params} {e : Event} (h : e.safeWhileBusy p = true) :
    e.safeWhileOwned p = true := by
  cases e with
  | host a =>
    cases a with
    | readReg r => rfl
    | writeReg r v => cases h
    | readByte sp b => exact h
    | writeByte sp b v => cases h
  | core => rfl
  | unit => rfl
  | reset => rfl

/-- A host access inside the host's obligations answers a next state (R21, R232, R290). -/
theorem hostAccess_answers {s : State} {a : Access} (hbusy : s.phase = .busy → (Event.host a).safeWhileBusy s.par = true)
    (howned : (Event.host a).safeWhileOwned s.par = true) : ∃ t, hostAccess a s = .next t := by
  cases a with
  | readReg r => exact ⟨_, rfl⟩
  | writeReg r v => exact ⟨_, hostAccess_writeReg (fun hp => Bool.noConfusion (hbusy hp)) r v⟩
  | readByte sp b =>
    have hb : b < capOf s.par sp := of_decide_eq_true howned
    exact ⟨_, if_neg (Nat.not_le_of_lt hb)⟩
  | writeByte sp b v =>
    have hb : b < capOf s.par sp := of_decide_eq_true howned
    exact ⟨_, hostAccess_writeByte (fun hp => Bool.noConfusion (hbusy hp)) hb v⟩

/-- What an obedient host's next event may be, by the phase. -/
theorem safe_of_hostObeys {s : State} {e : Event} {rest : List Event} (h : s.hostObeys = true) (hpe : s.pending = e :: rest) :
    (s.phase = .busy → e.safeWhileBusy s.par = true) ∧ e.safeWhileOwned s.par = true := by
  rw [State.hostObeys, hpe] at h
  by_cases hp : s.phase = .busy
  · simp only [hp, if_true] at h
    exact ⟨fun _ => h, safeWhileOwned_of_safeWhileBusy h⟩
  · simp only [hp, if_false] at h
    exact ⟨fun hb => absurd hb hp, h⟩

/-- Settles O47, by cases on the next event: a turn of the core and the reset input always answer, an access of the host
does inside its obligations. -/
theorem obedientHostNeverFaults : Obligations.ObedientHostNeverFaults := by
  intro s hobeys hunit
  unfold State.safeStep
  cases hpe : s.pending with
  | nil =>
    rw [step, hpe]
    exact coreTurn_answers s
  | cons e rest =>
    cases e with
    | core =>
      rw [step, hpe]
      exact coreTurn_answers _
    | unit => rw [hpe] at hunit; exact absurd rfl hunit
    | reset =>
      rw [step, hpe]
      exact ⟨_, rfl⟩
    | host a =>
      obtain ⟨hbusy, howned⟩ := safe_of_hostObeys hobeys hpe
      rw [step_host hpe]
      exact hostAccess_answers (s := { s with pending := rest }) hbusy howned

/-- What a step that answers a next state can be: a turn of the core, in one step or for one unit, the reset input, or an
access of the host, each on the state without that event (R20, R73). -/
theorem step_cases {s t : State} (h : step s = .next t) :
    (∃ q, coreTurn { s with pending := q } = .next t ∨ unitTurn { s with pending := q } = .next t) ∨
    (∃ rest, s.pending = .reset :: rest ∧ t = State.applyReset { s with pending := rest }) ∨
    ∃ a rest, s.pending = .host a :: rest ∧ hostAccess a { s with pending := rest } = .next t := by
  cases hpe : s.pending with
  | nil =>
    rw [step, hpe] at h
    refine .inl ⟨[], .inl ?_⟩
    rwa [← hpe]
  | cons e rest =>
    rw [step, hpe] at h
    cases e with
    | core => exact .inl ⟨rest, .inl h⟩
    | unit => exact .inl ⟨rest, .inr h⟩
    | reset => cases h; exact .inr (.inl ⟨rest, rfl, rfl⟩)
    | host a => exact .inr (.inr ⟨a, rest, rfl, h⟩)

/-- Settles O48, by cases on the event. -/
theorem phaseChangesOnlyAsStated : Obligations.PhaseChangesOnlyAsStated := by
  intro s t hstep hne
  rcases step_cases hstep with ⟨q, hcore | hunit⟩ | ⟨rest, hpe, rfl⟩ | ⟨a, rest, hpe, ha⟩
  · rcases coreTurn_phase hcore with ⟨rfl, -⟩ | hdone
    · exact absurd rfl hne
    · exact .inr (.inr hdone)
  · rcases unitTurn_phase hunit with ⟨rfl, -⟩ | ⟨hsame, -⟩ | hdone
    · exact absurd rfl hne
    · exact absurd hsame hne
    · exact .inr (.inr hdone)
  · exact .inr (.inl ⟨rfl, rest, hpe⟩)
  · rcases hostAccess_phase ha with hsame | ⟨hbusy, v, hv, rfl⟩
    · exact absurd hsame hne
    · exact .inl ⟨hbusy, v, rest, hv, hpe⟩

/-- A turn of the core, in one step or for one unit, does nothing in `DONE` (R275). -/
theorem eq_of_turn_done {s t : State} (hp : s.phase = .done) (h : coreTurn s = .next t ∨ unitTurn s = .next t) : t = s := by
  have hnb : s.phase ≠ .busy := by simp [hp]
  rcases h with hcore | hunit
  · rcases coreTurn_phase hcore with ⟨e, -⟩ | ⟨-, hb⟩
    · exact e
    · exact absurd hb hnb
  · rcases unitTurn_phase hunit with ⟨e, -⟩ | ⟨-, hb⟩ | ⟨-, hb⟩
    · exact e
    · exact absurd hb hnb
    · exact absurd hb hnb

/-- Settles O49, by cases on the event: the core does nothing in `DONE`, the reset input leaves `DONE`, and an access of the
host keeps the result. -/
theorem resultStaysUntilNextStart : Obligations.ResultStaysUntilNextStart := by
  intro s t hp hstep hdone
  rcases step_cases hstep with ⟨q, hturn⟩ | ⟨rest, -, rfl⟩ | ⟨a, rest, hpe, ha⟩
  · rw [eq_of_turn_done (s := { s with pending := q }) hp hturn]
    exact ⟨rfl, rfl, rfl, fun _ _ => rfl⟩
  · cases hdone
  · obtain ⟨hstatus, hlen, hpos, hbytes⟩ := hostAccess_keeps_result ha
    refine ⟨hstatus, hlen, hpos, fun b hb => hbytes b ?_⟩
    rintro v rfl
    exact hb v rest hpe

end Sys2Proof.Machine
end

section
/-! PROOFS. The tables and codes, and the state after reset. -/

namespace Sys2Proof.Machine

/-- An inverse table is the inverse of its alphabet when each symbol's entry is its value, and each entry is the value of a
symbol that is that byte (R38). -/
theorem inverse_iff_getElem? {a : Bytes} {inv : Byte → Option Nat} (hsym : ∀ v < a.length, inv (symbol a v) = some v)
    (hinv : ∀ c, ∀ v ∈ inv c, v < a.length ∧ symbol a v = c) (c : Byte) (v : Nat) : inv c = some v ↔ a[v]? = some c := by
  have hget : ∀ (hv : v < a.length), symbol a v = a[v] := fun hv => by simp [symbol, hv]
  constructor
  · intro h
    obtain ⟨hv, rfl⟩ := hinv c v h
    rw [hget hv, List.getElem?_eq_getElem hv]
  · intro h
    obtain ⟨hv, rfl⟩ := List.getElem?_eq_some_iff.1 h
    rw [← hget hv, hsym v hv]

/-- The entry of a byte is the value of the symbol that is that byte (R38, R104). -/
theorem symbol_inv64 : ∀ c, ∀ v ∈ inv64 c, symbol a64 v = c := by decide
theorem symbol_inv64u : ∀ c, ∀ v ∈ inv64u c, symbol a64u v = c := by decide
theorem symbol_inv32 : ∀ c, ∀ v ∈ inv32 c, symbol a32 v = c := by decide
theorem symbol_inv16 : ∀ c, ∀ v ∈ inv16 c, symbol a16 v = c := by decide

/-- An upper-case digit's entry is its value, without `Upper` before the table (R38, R103). -/
theorem inv16_symbol_self : ∀ v < 16, inv16 (symbol a16 v) = some v := by decide

/-- The pad is no hexadecimal digit (R38). -/
theorem inv16_pad : inv16 pad = none := by decide

/-- Settles O4: each table is an inverse in both directions, and the pad has no entry. -/
theorem inverseTablesInvertTheAlphabets : Obligations.InverseTablesInvertTheAlphabets :=
  ⟨inverse_iff_getElem? inv64_symbol fun c v h => ⟨inv64_lt c v h, symbol_inv64 c v h⟩,
    inverse_iff_getElem? inv64u_symbol fun c v h => ⟨inv64u_lt c v h, symbol_inv64u c v h⟩,
    inverse_iff_getElem? inv32_symbol fun c v h => ⟨inv32_lt c v h, symbol_inv32 c v h⟩,
    inverse_iff_getElem? inv16_symbol_self fun c v h => ⟨inv16_lt c v h, symbol_inv16 c v h⟩,
    inv64_pad, inv64u_pad, inv32_pad, inv16_pad⟩

/-- Settles O6: each code and number by its definition. -/
theorem statusAndRegisterNumbers : Obligations.StatusAndRegisterNumbers :=
  ⟨rfl, rfl, rfl, rfl, rfl, rfl, rfl, rfl, rfl, rfl, rfl, rfl, rfl, fun _ => ⟨rfl, rfl⟩⟩

/-- The parameters after reset meet R7's constraints. -/
theorem paramsWf_defaultParams : paramsWf Config.defaultParams := by decide

/-- Settles O45, part by part of the invariant. -/
theorem resetStateIsWellFormed : Obligations.ResetStateIsWellFormed := by
  have hregs : State.reset.regsWf := by decide
  have hmem : State.reset.memWf := ⟨Memory.wf_nil _, Memory.wf_nil _, Memory.wf_nil _, Memory.wf_nil _⟩
  have hresult : State.reset.resultWf := by decide
  have hwork : State.reset.workWf := by decide
  exact ⟨paramsWf_defaultParams, hregs, hmem, hresult, hwork⟩

end Sys2Proof.Machine
end

section
/-! PROOFS. Memory: which indices of `OUT` a command gives values to. -/

namespace Sys2Proof.Machine

open Sys2Proof.Claims

/-- A command that gives a byte of `OUT` a value has passed the capacity check and succeeded, and the byte is one of its
result bytes or its marker (R70, R226, R244). -/
theorem written_of_exec {s t : State} {i : Instr} {a : Nat} (h : exec i s = .next t)
    (ha : Memory.get? t.outBuf.cells a ≠ none) :
    s.fits i = true ∧ ∃ d, ownResult i s.inputBytes s.modeBytes s.nameBytes = .ok d ∧ a < (d ++ tailOf i).length := by
  rcases exec_cases h with ⟨-, rfl⟩ | ⟨-, f, -, rfl⟩ | ⟨hfits, d, hd, rfl⟩
  · exact absurd rfl ha
  · exact absurd rfl ha
  · rw [State.succeed_outBuf, Memory.get?_write_nil, Ne, List.getElem?_eq_none_iff, Nat.not_le] at ha
    exact ⟨hfits, d, hd, ha⟩

/-- Settles O15: a written index lies inside the result with its marker, which is at most `ReqLen` long, and the capacity
check has compared `ReqLen` with `OUT_CAP`. -/
theorem writesStayBelowRequiredLength : Obligations.WritesStayBelowRequiredLength := by
  intro s t i a h ha
  obtain ⟨hfits, d, hd, hlt⟩ := written_of_exec h ha
  have hlen : (d ++ tailOf i).length ≤ commandReqLen i s.inLen s.modeLen s.nameLen := by
    simpa only [length_inputBytes, length_modeBytes, length_nameBytes] using ownResult_length hd
  have hcap : commandReqLen i s.inLen s.modeLen s.nameLen ≤ s.par.outCap := ((fits_iff s i).1 hfits).2.2
  rw [sizeTable_eq]
  exact ⟨hlt.trans_le hlen, (hlt.trans_le hlen).trans_le hcap⟩

end Sys2Proof.Machine
end

section
/-! PROOFS. The encoding of the commands, the alphabets and the uuencode symbols, and the completion of an illegal word. -/

namespace Sys2Proof.Machine

open Sys2Proof.Claims

/-- A word that decodes to a command is that command's word (R91: the whole word is matched). -/
theorem eq_encode_of_decode : ∀ w : Byte, ∀ i ∈ (decode w).toOption, w = encode i := by decide

/-- The fields of every command pass the checks of R91 and R94. -/
theorem wellFormed_command (i : Instr) : i.wellFormed = true := by cases i <;> rfl

/-- Settles O1: the 14 words of R90 are the words of the 14 commands, and from 0x0E on every word is an error. -/
theorem commandWordsDecodeAsTabled : Obligations.CommandWordsDecodeAsTabled := by
  refine ⟨decode_encode .b64Enc, decode_encode .b64Dec, decode_encode .b64uEnc, decode_encode .b64uDec,
    decode_encode .b32Enc, decode_encode .b32Dec, decode_encode .b16Enc, decode_encode .b16Dec, decode_encode .uulEnc,
    decode_encode .uulDec, decode_encode .uucEnc, decode_encode .uucDec, decode_encode .uufEnc, decode_encode .uufDec,
    fun w hw => ?_⟩
  rcases decode_eq_error_of_le w hw with h | h
  · exact ⟨_, h⟩
  · exact ⟨_, h⟩

/-- Settles O2, by the check of the fields, the decoder on the encoder's words, and that each command has one word only. -/
theorem decodeInvertsEncode : Obligations.DecodeInvertsEncode := fun i =>
  ⟨wellFormed_command i, decode_encode i, fun w h => eq_encode_of_decode w i (by rw [h]; rfl)⟩

/-- A symbol inside the run at the front of an alphabet. -/
theorem symbol_run_append {c k v : Nat} (hv : v < k) (a : Bytes) :
    symbol (symbolRun c k ++ a) v = BitVec.ofNat 8 (c + v) := by
  simp [symbol, symbolRun, List.getElem?_append_left, hv]

/-- A symbol behind the run at the front of an alphabet. -/
theorem symbol_run_append_right (c k v : Nat) (a : Bytes) : symbol (symbolRun c k ++ a) (k + v) = symbol a v := by
  simp [symbol, symbolRun, List.getElem?_append_right]

/-- A symbol inside a run. -/
theorem symbol_run {c k v : Nat} (hv : v < k) : symbol (symbolRun c k) v = BitVec.ofNat 8 (c + v) := by
  simpa using symbol_run_append hv []

/-- The Base64 alphabet, its runs one behind the other (R100). -/
theorem a64_eq_runs : a64 = symbolRun 0x41 26 ++ (symbolRun 0x61 26 ++ (symbolRun 0x30 10 ++ [0x2B#8, 0x2F#8])) := rfl

/-- The two Base64 alphabets differ in their last two symbols only (R101). -/
theorem symbol_a64u_eq {v : Nat} (hv : v < 62) : symbol a64u v = symbol a64 v := by
  have hlen : v < (symbolRun 0x41 26 ++ symbolRun 0x61 26 ++ symbolRun 0x30 10).length := hv
  rw [symbol, symbol, a64u, a64, List.getD_append _ _ _ _ hlen, List.getD_append _ _ _ _ hlen]

/-- Settles O3: each alphabet is its runs of consecutive symbols and the single symbols behind them. -/
theorem alphabetsAreTheListedSymbols : Obligations.AlphabetsAreTheListedSymbols := by
  refine ⟨fun v hv => ?_, fun v hv => ?_, fun v hv => ?_, rfl, rfl, rfl, fun v hv => symbol_a64u_eq hv, rfl, rfl, rfl,
    fun v hv => symbol_run_append hv _, fun v hv => ?_, rfl, fun v hv => symbol_run_append hv _, fun v hv => ?_, rfl⟩
  · rw [a64_eq_runs, symbol_run_append hv]
  · rw [a64_eq_runs, symbol_run_append_right, symbol_run_append hv]
  · rw [a64_eq_runs, show 52 + v = 26 + (26 + v) by omega, symbol_run_append_right, symbol_run_append_right,
      symbol_run_append hv]
  · rw [a32, symbol_run_append_right, symbol_run hv]
  · rw [a16, symbol_run_append_right, symbol_run hv]

/-- The symbol of a sextet other than 0 (R106). -/
theorem toNat_uuChar {v : Nat} (h0 : 0 < v) (hv : v < 64) : (uuChar v).toNat = v + 0x20 := by
  rw [uuChar, if_neg (by omega), BitVec.toNat_ofNat, Nat.mod_eq_of_lt (by omega)]

/-- The space is no symbol (R106): 0 is the backtick, and the others lie above the space. -/
theorem uuChar_ne_space {v : Nat} (hv : v < 64) : uuChar v ≠ 0x20#8 := by
  intro h
  rcases Nat.eq_zero_or_pos v with rfl | h0
  · exact absurd h (by decide)
  · have hn := toNat_uuChar h0 hv
    rw [h, show (0x20#8).toNat = 0x20 from rfl] at hn
    omega

/-- `UUval` of a byte other than the backtick, by its number (R107). -/
theorem uuVal_of_toNat_ne {c : Byte} (hc : c.toNat ≠ 0x60) :
    uuVal c = if 0x20 ≤ c.toNat ∧ c.toNat ≤ 0x5F then some (c.toNat - 0x20) else none := by
  have hb : c ≠ backtick := by
    rintro rfl
    exact hc rfl
  simp [uuVal, hb, between]

/-- Settles O5, by the two sides of `UUchar` and of `UUval`. -/
theorem uuencodeSymbolMapping : Obligations.UuencodeSymbolMapping := by
  refine ⟨rfl, fun v h0 hv => toNat_uuChar h0 hv, fun v hv => uuChar_ne_space hv, rfl, fun c hlo hhi => ?_, fun c hc => ?_⟩
  · rw [uuVal_of_toNat_ne (by omega), if_pos ⟨hlo, hhi⟩]
  · rw [uuVal_of_toNat_ne (by omega), if_neg (by omega)]

/-- A turn of the core with an illegal word completes at once (R97). -/
theorem coreTurn_of_illegal {s : State} (hp : s.phase = .busy) (hw : 0x0E ≤ s.cmd.toNat) :
    coreTurn s = .next s.takeIllegal := by
  rcases decode_eq_error_of_le s.cmd hw with h | h <;> simp only [coreTurn, hp, h]

/-- So does a unit step with an illegal word (R97). -/
theorem unitTurn_of_illegal {s : State} (hp : s.phase = .busy) (hw : 0x0E ≤ s.cmd.toNat) :
    unitTurn s = .next s.takeIllegal := by
  rcases decode_eq_error_of_le s.cmd hw with h | h <;> simp only [unitTurn, hp, h]

/-- Settles O9: whichever turn the core has, it takes the failure `IllegalCommand` at 0, which changes no input. -/
theorem illegalWordCompletesAtOnce : Obligations.IllegalWordCompletesAtOnce := by
  intro s hp hw
  refine ⟨fun hpe => ⟨s.takeIllegal, ?_, fails_raise _ _ _, unchanged_raise _ _⟩, fun rest hpe =>
    ⟨State.takeIllegal { s with pending := rest }, ?_, fails_raise _ _ _, unchanged_raise _ _⟩⟩
  · rw [step, hpe]
    exact coreTurn_of_illegal hp hw
  · rcases hpe with hpe | hpe <;> rw [step, hpe]
    · exact coreTurn_of_illegal (s := { s with pending := rest }) hp hw
    · exact unitTurn_of_illegal (s := { s with pending := rest }) hp hw

end Sys2Proof.Machine
end

section
/-! PROOFS. A host script through the machine: `RUN` an encode, `MOVE`, `RUN` its decode (R99). -/

namespace Sys2Proof.Machine

open Sys2Proof.Claims

/-! ### Decode undoes encode -/

/-- No symbol of a Base64 encode is a line end: each is a symbol of the alphabet or the pad (R132). -/
theorem isLineEnd_of_mem_encB64 {a b : Bytes} (ha : ∀ v < 64, isLineEnd (symbol a v) = false) {c : Byte}
    (hc : c ∈ encB64 a b) : isLineEnd c = false := by
  rcases mem_encSextets hc with rfl | ⟨v, hv, rfl⟩
  · rfl
  · exact ha v hv

/-- Base64 decode undoes encode, also behind line ends, which must be none for empty data (R139). -/
theorem decB64_encB64_append {a : Bytes} {inv : Byte → Option Nat} (hp : inv pad = none)
    (hs : ∀ v < 64, inv (symbol a v) = some v) (ha : ∀ v < 64, isLineEnd (symbol a v) = false) {b e : Bytes}
    (he : ∀ c ∈ e, isLineEnd c = true) (hb : b = [] → e = []) : decB64 inv (encB64 a b ++ e) = .ok b := by
  have hlen := length_encB64 a b
  have hprep : prepare64 (encB64 a b ++ e) = .ok (encB64 a b) := by
    rw [prepare64_append he fun c hc => isLineEnd_of_mem_encB64 ha (List.mem_of_getLast? hc), if_neg]
    rintro (⟨h0, hne⟩ | h4)
    · refine hne (hb ?_)
      rw [h0, List.length_nil, ceilDiv_eq] at hlen
      exact List.eq_nil_of_length_eq_zero (by omega)
    · omega
  rw [decB64, hprep]
  exact decQuanta64_encSextets hp hs 0 b

/-- Neither alphabet of Base64 holds a line end (R100, R101). -/
theorem isLineEnd_symbol_a64 : ∀ v < 64, isLineEnd (symbol a64 v) = false := by decide
theorem isLineEnd_symbol_a64u : ∀ v < 64, isLineEnd (symbol a64u v) = false := by decide

/-- Base32 decode undoes encode, also behind further pads and line ends (R158). -/
theorem decB32_encB32_append (b : Bytes) (p : Nat) {e : Bytes} (he : ∀ c ∈ e, isLineEnd c = true) :
    decB32 (encB32 b ++ List.replicate p pad ++ e) = .ok b := by
  obtain ⟨syms, henc, hsym, hdec, h1, h3, h6⟩ := encB32_split b
  have hlast : ∀ c, syms.getLast? = some c → c ≠ pad ∧ isLineEnd c = false := fun c hc =>
    inv32_symbol_ne c (hsym c (List.mem_of_getLast? hc))
  have htail : checkTail32 syms.length (canon32 (syms.length % 8) + p) = .ok () := by
    rw [checkTail32, if_neg (by omega), if_neg (by omega)]
  rw [henc, List.append_assoc syms, List.replicate_append_replicate,
    decB32_append he (fun c hc => (hlast c hc).1) (fun _ c hc => (hlast c hc).2), hdec, htail]
  rfl

/-- Base16 decode undoes encode (R175). -/
theorem decB16_encB16 (b : Bytes) : decB16 (encB16 b) = .ok b := by
  rw [decB16, if_neg (by rw [length_encB16]; omega), decPairs16_encB16]

/-! ### The lines of the script -/

/-- The state a `RUN` line leaves when the command succeeds with the bytes `d`: the host has read `PHASE` as `DONE`. -/
def State.afterRun (s : State) (i : Instr) (d : Bytes) : State :=
  { (s.ready i).succeed d (tailOf i) with lastRead := some 2, pending := [] }

/-- A `RUN` line whose command fits and gives bytes. -/
theorem playEvents_run_of_ok {s : State} {i : Instr} {d : Bytes} (hp : s.phase ≠ .busy) (hf : s.fits i = true)
    (h : ownResult i s.inputBytes s.modeBytes s.nameBytes = .ok d) :
    playEvents (Line.events s (.run i)) s = .next (s.afterRun i d) :=
  playEvents_run hp (exec_of_ok (s := s.ready i) hf h)

/-- The result bytes after a `RUN` line. -/
theorem byte_afterRun (s : State) (i : Instr) (d : Bytes) {j : Nat} (hj : j < d.length) :
    (s.afterRun i d).byte .output j = d[j] := byte_succeed (s.ready i) d (tailOf i) hj

/-- The result after a `RUN` line, as the host's `MOVE` reads it. -/
theorem read_afterRun (s : State) (i : Instr) (d : Bytes) : (s.afterRun i d).outBuf.read .output 0 d.length = d := by
  refine List.ext_getElem (by simp) fun j _ hj => ?_
  rw [Buffer.getElem_read, Nat.zero_add]
  exact byte_afterRun s i d hj

/-- A `MOVE` line behind a `RUN` line: the result becomes the input, the parameters stay, and no command is started. -/
theorem playEvents_move_afterRun {s : State} {i : Instr} {d : Bytes} (hin : d.length ≤ s.par.inCap)
    (hwidth : d.length < 2 ^ s.par.lenw) :
    ∃ t, playEvents (Line.events (s.afterRun i d) .move) (s.afterRun i d) = .next t ∧ t.inputBytes = d ∧
      t.inLen = d.length ∧ t.par = s.par ∧ t.phase ≠ .busy := by
  obtain ⟨m, hmoved, hinput⟩ := playEvents_move (s := s.afterRun i d) (by simp [State.afterRun]) rfl hin hwidth
  exact ⟨_, hmoved, hinput.trans (read_afterRun s i d), rfl, rfl, by simp [State.afterRun]⟩

/-- A line without an expectation that does not hold, whose events all happen. -/
theorem playScript_cons {l : Line} {ls : List Line} {s t : State} (hl : l.holds s = true)
    (h : playEvents (l.events s) s = .next t) : playScript (l :: ls) s = playScript ls t := by
  rw [playScript, if_pos hl, h]

/-- A decode needs no more room than its input (R223). -/
theorem commandReqLen_decode {i : Instr} (h : isEncode i = false) (n m f : Nat) : commandReqLen i n m f = n := by
  cases i
  case b64Dec | b64uDec | b32Dec | b16Dec | uulDec | uucDec | uufDec => rfl
  all_goals cases h

/-- The script gives the input back when the decode's function undoes the encode's on the input: the encode's result with
its marker fits `OUT`, so the result alone fits `IN`, and the decode's result is no longer than its input. -/
theorem restores_of_inverse {enc dec : Instr} {s : State} {d : Bytes} (henc : isEncode enc = true)
    (hdec : isEncode dec = false) (hroom : RoomToRestore enc s) (hfields : enc = .uufEnc → FieldRoom s)
    (hd : ownResult enc s.inputBytes s.modeBytes s.nameBytes = .ok d)
    (hb : ∀ mode name, ownResult dec d mode name = .ok s.inputBytes) : Restores enc dec s := by
  obtain ⟨hp, hwidth, hin, hout, hmove⟩ := hroom
  rw [sizeTable_eq] at hout hmove
  have hsize : d.length + 1 ≤ commandReqLen enc s.inLen s.modeLen s.nameLen := by
    simpa [length_tailOf, henc] using ownResult_length hd
  have hrun := playEvents_run_of_ok hp ((fits_iff s enc).2 ⟨hin, hfields, hout⟩) hd
  obtain ⟨t, hmoved, hinput, hlen, hpar, hpt⟩ :=
    playEvents_move_afterRun (s := s) (i := enc) (d := d) (by omega) (by omega)
  have hfits : t.fits dec = true := by
    rw [fits_iff, commandReqLen_decode hdec, hlen, hpar]
    exact ⟨by omega, fun h => by simp [h, isEncode] at hdec, by omega⟩
  have hrun' := playEvents_run_of_ok hpt hfits (hinput ▸ hb _ _)
  refine ⟨t.afterRun dec s.inputBytes, ?_, ⟨rfl, rfl, length_inputBytes s, rfl⟩, fun j hj => ?_⟩
  · rw [playScript_cons rfl hrun, playScript_cons rfl hmoved, playScript_cons rfl hrun', playScript]
  · rw [byte_afterRun _ _ _ (by simpa using hj), getElem_inputBytes]

/-- Bytes of a header field that are no LF, as a list. -/
theorem lf_not_mem_read {sp : Space} {b : Buffer} {n : Nat} (h : ∀ j, j < n → b.byte sp j ≠ 0x0A#8) :
    lf ∉ b.read sp 0 n := by
  intro hm
  obtain ⟨j, hj, he⟩ := List.mem_iff_getElem.1 hm
  rw [Buffer.getElem_read, Nat.zero_add] at he
  exact h j (by simpa using hj) he

/-- Settles O44: for each codec the decode undoes the encode, so the script gives the input back. -/
theorem runMoveRunRestoresTheInput : Obligations.RunMoveRunRestoresTheInput := by
  intro s
  refine ⟨fun hroom => ?_, fun hroom => ?_, fun hroom => ?_, fun hroom => ?_, fun hroom hlen => ?_,
    fun hroom hfields hmode hname => ?_⟩
  · refine restores_of_inverse rfl rfl hroom (by simp) rfl fun _ _ => ?_
    simpa [ownResult] using decB64_encB64_append inv64_pad inv64_symbol isLineEnd_symbol_a64 (e := []) (by simp)
      fun _ => rfl
  · refine restores_of_inverse rfl rfl hroom (by simp) rfl fun _ _ => ?_
    simpa [ownResult] using decB64_encB64_append inv64u_pad inv64u_symbol isLineEnd_symbol_a64u (e := []) (by simp)
      fun _ => rfl
  · refine restores_of_inverse rfl rfl hroom (by simp) rfl fun _ _ => ?_
    simpa [ownResult] using decB32_encB32_append s.inputBytes 0 (e := []) (by simp)
  · exact restores_of_inverse rfl rfl hroom (by simp) rfl fun _ _ => decB16_encB16 _
  · refine restores_of_inverse rfl rfl hroom (by simp) (if_neg ?_) fun _ _ => decUUC_countedLine _ 0 ?_
    · simpa [maxCount] using hlen
    · simpa using hlen
  · exact restores_of_inverse rfl rfl hroom (fun _ => hfields) rfl fun _ _ =>
      decUUF_encUUF (lf_not_mem_read hmode) (lf_not_mem_read hname)

end Sys2Proof.Machine
end

section
/-! PROOFS. Base64: the symbols of the encodes, the bytes of the decodes, and the three ways a decode is refused (R130 to
R139). -/

namespace Sys2Proof.Machine

open Sys2Proof.Claims

/-! ### A command that fits, in the words of the claims -/

/-- A decode needs no room but its input's (R223, R226). -/
theorem fits_decode_of_room {s : State} {i : Instr} (hi : isEncode i = false) (h : Room s s.inLen) : s.fits i = true :=
  fits_of_room (by rintro rfl; cases hi) (by rwa [commandReqLen_decode hi])

/-- A command that fits and whose function fails completes with that failure and changes no input (R244). -/
theorem exec_fails {s : State} {i : Instr} {k : FailKind} {pos : Nat} (hf : s.fits i = true)
    (h : ownResult i s.inputBytes s.modeBytes s.nameBytes = .error ⟨k, pos⟩) :
    ∃ t, exec i s = .next t ∧ Fails t k pos ∧ Unchanged s t :=
  ⟨_, exec_of_error hf h, fails_raise s k pos, unchanged_raise s _⟩

/-- The bytes after an encode's result are the marker (R66). -/
theorem tailOf_encode {i : Instr} (h : isEncode i = true) : tailOf i = encodeTail := by
  cases i
  case b64Enc | b64uEnc | b32Enc | b16Enc | uulEnc | uucEnc | uufEnc => rfl
  all_goals cases h

/-! ### The encodes -/

/-- The result bytes of 6-bit windowing are the symbols of the windows and the fillers (R132, R182). -/
theorem sextetText_succeed (s : State) (sym : Nat → Byte) (fill : Byte) (tail : Bytes) :
    SextetText s (s.succeed (encSextets sym fill s.inputBytes) tail) sym fill 0 s.inLen 0 := by
  intro q k hq hk
  rw [Nat.zero_add, Nat.zero_add, sextet_eq]
  apply byte_of_getElem
  rw [getElem?_encSextets sym fill s.inputBytes q k (by simpa using hq) hk, length_inputBytes]

/-- An encode by 6-bit windowing: the symbols, the marker behind them, and the frame. -/
theorem exec_encSextets {s : State} {i : Instr} {sym : Nat → Byte} {fill : Byte} (hi : isEncode i = true)
    (hf : s.fits i = true)
    (h : ownResult i s.inputBytes s.modeBytes s.nameBytes = .ok (encSextets sym fill s.inputBytes)) :
    ∃ t, exec i s = .next t ∧ Succeeds t (4 * ((s.inLen + 2) / 3)) ∧ SextetText s t sym fill 0 s.inLen 0 ∧
      t.byte .output t.outLen = 0x00#8 ∧ Unchanged s t := by
  refine ⟨_, exec_of_ok hf h, succeeds_succeed _ _ _ _ ?_, sextetText_succeed s sym fill _, ?_,
    unchanged_succeed s _ _⟩
  · rw [length_encSextets, length_inputBytes, ceilDiv_eq]
    rfl
  · rw [tailOf_encode hi]
    exact byte_succeed_marker s _

/-- Settles O20: each symbol by its window, with the alphabet of the command. -/
theorem base64EncodeSymbols : Obligations.Base64EncodeSymbols := fun _ hroom =>
  ⟨exec_encSextets rfl (fits_of_room (by decide) hroom) rfl, exec_encSextets rfl (fits_of_room (by decide) hroom) rfl⟩

/-! ### The decodes -/

/-- What the proofs use of a Base64 decode command and its inverse table (R134, R135, R104). -/
structure DecodesBase64 (i : Instr) (inv : Byte → Option Nat) : Prop where
  isDecode : isEncode i = false
  own : ∀ t mode name, ownResult i t mode name = decB64 inv t
  padNone : inv pad = none
  value_lt : ∀ c v, inv c = some v → v < 64
  notLineEnd : ∀ c, inv c ≠ none → isLineEnd c = false

theorem decodesBase64_b64Dec : DecodesBase64 .b64Dec inv64 := ⟨rfl, fun _ _ _ => rfl, inv64_pad, inv64_lt, by decide⟩

theorem decodesBase64_b64uDec : DecodesBase64 .b64uDec inv64u :=
  ⟨rfl, fun _ _ _ => rfl, inv64u_pad, inv64u_lt, by decide⟩

/-- The two Base64 decodes, each with its table. -/
theorem decodesBase64_of_or {i : Instr} {inv : Byte → Option Nat}
    (h : (i = .b64Dec ∧ inv = inv64) ∨ (i = .b64uDec ∧ inv = inv64u)) : DecodesBase64 i inv := by
  rcases h with ⟨rfl, rfl⟩ | ⟨rfl, rfl⟩
  · exact decodesBase64_b64Dec
  · exact decodesBase64_b64uDec

/-- A decode of a text that does not end in a line end, and line ends: the length checks, then the quanta (R136, R137). -/
theorem decB64_inputBytes {s : State} {l e : Nat} (inv : Byte → Option Nat) (h : EndsIn s l e)
    (hlast : ∀ c, (s.inputBytes.take l).getLast? = some c → isLineEnd c = false) :
    decB64 inv s.inputBytes = if (l = 0 ∧ 0 < e) ∨ l % 4 ≠ 0 then .error ⟨.invalidLength, 0⟩
      else decQuanta64 inv 0 (s.inputBytes.take l) := by
  obtain ⟨tail, hsplit, htail, hend⟩ := inputBytes_split h
  have hlen : (s.inputBytes.take l).length = l := by simp [h.1]
  have hempty : s.inputBytes.take l = [] ∧ tail ≠ [] ↔ l = 0 ∧ 0 < e := by
    rw [← List.length_eq_zero_iff, hlen, ← List.length_pos_iff, htail]
  have hprep := prepare64_append hend hlast
  rw [← hsplit, hlen] at hprep
  simp only [decB64, hprep, hempty]
  split <;> rfl

/-- The quanta of the claims are those of the symbols with pads behind them, which count as 0 (R136). -/
theorem quantum_eq {inv : Byte → Option Nat} (hpad : inv pad = none) {s : State} {k : Nat} (hk : k ≤ s.inLen)
    (p a : Nat) : quantum inv s k a = quantumAt inv (s.inputBytes.take k ++ List.replicate p pad) a := by
  have hlen : (s.inputBytes.take k).length = k := by simp [hk]
  have hval := valueAt_eq (inv := inv) hk (s.inputBytes.take k ++ List.replicate p pad)
    (fun j hj => by rw [List.getElem?_append_left (by omega), List.getElem?_take_of_lt hj])
    (fun j hj => symAt_pads hpad _ p j (by omega))
  simp only [quantum, quantumAt, hval]

/-- The result bytes of a success that are the bytes of its quanta, in the words of the claims. -/
theorem quantumBytes_succeed {inv : Byte → Option Nat} (hpad : inv pad = none) {s : State} {k p : Nat} (hk : k ≤ s.inLen)
    {d : Bytes} (h : AreQuantumBytes inv (s.inputBytes.take k ++ List.replicate p pad) d) (tail : Bytes) :
    QuantumBytes inv s (s.succeed d tail) 0 k d.length := fun j hj => by
  rw [Nat.zero_add, quantum_eq hpad hk p]
  exact toNat_byte_of_getElem (h j hj)

/-- Symbols and pads end in no line end (R133). -/
theorem DecodesBase64.getLast_not_lineEnd {i : Instr} {inv : Byte → Option Nat} (hi : DecodesBase64 i inv) {syms : Bytes}
    (hv : ∀ c ∈ syms, inv c ≠ none) {p : Nat} {c : Byte} (hc : (syms ++ List.replicate p pad).getLast? = some c) :
    isLineEnd c = false := by
  rcases List.mem_append.1 (List.mem_of_getLast? hc) with hsym | hpad
  · exact hi.notLineEnd c (hv c hsym)
  · rw [List.eq_of_mem_replicate hpad]
    rfl

/-- Settles O21: behind the length checks stand symbols and at most two pads, whole quanta. -/
theorem base64DecodeBytes : Obligations.Base64DecodeBytes := by
  intro s i inv k p e hcmd hends hsyms hpads h4 hp2 hnil hroom
  have hi := decodesBase64_of_or hcmd
  have hlen := hends.1
  have hk : k ≤ s.inLen := by omega
  have hv := symbols_take hk hsyms
  have htext := take_pads (by omega) hpads
  obtain ⟨d, hd, hdlen, hbytes⟩ := decQuanta64_valid hi.padNone hi.value_lt 0 (s.inputBytes.take k) p hv
    (by simpa [hk] using h4) hp2
  have hown : ownResult i s.inputBytes s.modeBytes s.nameBytes = .ok d := by
    rw [hi.own, decB64_inputBytes inv hends fun c hc => hi.getLast_not_lineEnd hv (htext ▸ hc), if_neg (by omega), htext,
      hd]
  refine ⟨_, exec_of_ok (fits_decode_of_room hi.isDecode hroom) hown, succeeds_succeed _ _ _ _ ?_,
    quantumBytes_succeed hi.padNone hk hbytes _, unchanged_succeed s _ _⟩
  simpa [hk] using hdlen

/-- Settles O22: both length checks come before the quanta, with either table. -/
theorem base64DecodeLengthFailures : Obligations.Base64DecodeLengthFailures := by
  intro s i l e hcmd hends hbad hroom
  obtain ⟨inv, hi⟩ : ∃ inv, DecodesBase64 i inv := by
    rcases hcmd with rfl | rfl
    · exact ⟨_, decodesBase64_b64Dec⟩
    · exact ⟨_, decodesBase64_b64uDec⟩
  refine exec_fails (fits_decode_of_room hi.isDecode hroom) ?_
  rw [hi.own, decB64_inputBytes inv hends.1 (getLast_text hends), if_pos hbad]

/-- Settles O23: behind the length checks the first byte that is no symbol decides. -/
theorem base64DecodeSymbolFailures : Obligations.Base64DecodeSymbolFailures := by
  intro s i inv l e p hcmd hends h4 hpl hsyms hnone hroom
  have hi := decodesBase64_of_or hcmd
  have hlen := hends.1.1
  have hfits := fits_decode_of_room hi.isDecode hroom
  have hget : ∀ j, j < l → (s.inputBytes.take l)[j]? = some (s.byte .input j) := fun j hj => by
    rw [List.getElem?_take_of_lt hj, getElem?_inputBytes s (by omega)]
  have hown : ownResult i s.inputBytes s.modeBytes s.nameBytes = decQuanta64 inv 0 (s.inputBytes.take l) := by
    rw [hi.own, decB64_inputBytes inv hends.1 (getLast_text hends), if_neg (by omega)]
  have htake : (s.inputBytes.take l).length = l := by simp [hlen]
  obtain ⟨hchar, hpad⟩ := decQuanta64_bad hi.padNone 0 (s.inputBytes.take l) p (s.byte .input p) (by rwa [htake])
    (hget p hpl) hnone fun j x hj hx => by
      rw [hget j (by omega), Option.some.injEq] at hx
      exact hx ▸ hsyms j hj
  rw [Nat.zero_add, ← hown] at hchar hpad
  refine ⟨fun hne => exec_fails hfits (hchar hne), fun heq hplace => exec_fails hfits (hpad heq ?_)⟩
  rw [htake]
  refine hplace.imp_right (Or.imp_right fun ⟨hthird, hnext⟩ => ⟨hthird, ?_⟩)
  rw [hget (p + 1) (by omega)]
  exact fun h => hnext (Option.some.inj h)

/-- Settles O24, by `decB64_encB64_append` for each alphabet. -/
theorem base64RoundTrip : Obligations.Base64RoundTrip := by
  intro b e he hb
  have hend : ∀ c ∈ e, isLineEnd c = true := fun c hc => (lineEnd_iff c).1 (he c hc)
  have hsize : ∀ a, (encB64 a b).length + 1 = (b.length + 2) / 3 * 4 + 1 := fun a => by
    rw [length_encB64, ceilDiv_eq, Nat.mul_comm]
    rfl
  exact ⟨decB64_encB64_append inv64_pad inv64_symbol isLineEnd_symbol_a64 hend hb,
    decB64_encB64_append inv64u_pad inv64u_symbol isLineEnd_symbol_a64u hend hb, hsize a64, hsize a64u⟩

end Sys2Proof.Machine
end

section
/-! PROOFS. Base32: the symbols of the encode, the bytes of the decode, the ways a decode is refused, and that a decode
undoes an encode (R150 to R158). -/

namespace Sys2Proof.Machine

open Sys2Proof.Claims

/-! ### The encode -/

/-- Settles O25: each symbol by its window of the 40-bit group, pads where a window carries no data. -/
theorem base32EncodeSymbols : Obligations.Base32EncodeSymbols := by
  intro s hroom
  refine ⟨_, exec_of_ok (fits_of_room (by decide) hroom) rfl, succeeds_succeed _ _ _ _ ?_, fun q k hq hk => ?_,
    byte_succeed_marker s _, unchanged_succeed s _ _⟩
  · rw [length_encB32, length_inputBytes, ceilDiv_eq]
    rfl
  · apply byte_of_getElem
    rw [getElem?_encB32 s.inputBytes q k (by simpa using hq) hk, length_inputBytes, quintet_eq]
    rfl

/-! ### The decode -/

/-- The quanta of the claims are those of the list of symbols, which count as 0 behind its end (R154). -/
theorem quantum32_eq {s : State} {k : Nat} (hk : k ≤ s.inLen) (a : Nat) :
    quantum32 s k a = quantum32At (s.inputBytes.take k) a := by
  have hval := valueAt_eq (inv := inv32) hk (s.inputBytes.take k) (fun j hj => List.getElem?_take_of_lt hj) fun j hj => by
    rw [symAt, List.getElem?_take_eq_none hj]
    rfl
  simp only [quantum32, quantum32At, hval]

/-- `B32.DEC` on symbols, pads and line ends: the symbols' bytes, if the tail checks pass (R154, R155). -/
theorem ownResult_b32Dec_of_symbols {s : State} {k p e : Nat} (hends : EndsIn s (k + p) e) (hsyms : SymbolsTo inv32 s k)
    (hpads : PadsAt s k p) :
    ∃ d, d.length = 5 * k / 8 ∧ AreQuantum32Bytes (s.inputBytes.take k) d ∧
      ∀ mode name, ownResult .b32Dec s.inputBytes mode name = (checkTail32 k p).map fun _ => d := by
  have hk : k ≤ s.inLen := by have := hends.1; omega
  have hlast : k = 0 ∨ s.byte .input (k - 1) ≠ 0x3D#8 ∧ isLineEnd (s.byte .input (k - 1)) = false :=
    (Nat.eq_zero_or_pos k).imp_right fun h0 => inv32_symbol_ne _ (hsyms (k - 1) (by omega))
  obtain ⟨d, hd, hlen, hbytes⟩ := decSymbols32_valid 0 (s.inputBytes.take k) (symbols_take hk hsyms)
  refine ⟨d, by simpa [hk] using hlen, hbytes, fun mode name => ?_⟩
  rw [ownResult_b32Dec hends hpads (hlast.imp_right And.left) fun _ => hlast.imp_right And.right, hd]
  cases checkTail32 k p <;> rfl

/-- The tail checks in the words of the claims (R155). -/
theorem checkTail32_eq (k p : Nat) :
    checkTail32 k p = if k % 8 = 1 ∨ k % 8 = 3 ∨ k % 8 = 6 ∨ p < canonicalPads k then .error ⟨.invalidPadding, 0⟩
      else .ok () := by
  by_cases hr : k % 8 = 1 ∨ k % 8 = 3 ∨ k % 8 = 6
  · rw [checkTail32, if_pos hr, if_pos (by omega)]
  · rw [checkTail32, if_neg hr, canonicalPads_eq]
    exact if_congr (by omega) rfl rfl

/-- Settles O26: the tail checks pass, and the bytes are those of the quanta. -/
theorem base32DecodeBytes : Obligations.Base32DecodeBytes := by
  intro s k p e hends hsyms hpads h1 h3 h6 hcanon hroom
  obtain ⟨d, hlen, hbytes, hown⟩ := ownResult_b32Dec_of_symbols hends hsyms hpads
  have hd : ownResult .b32Dec s.inputBytes s.modeBytes s.nameBytes = .ok d := by
    rw [hown, checkTail32_eq, if_neg (by omega)]
    rfl
  refine ⟨_, exec_of_ok (fits_decode_of_room rfl hroom) hd, succeeds_succeed _ _ _ _ hlen, fun j hj => ?_,
    unchanged_succeed s _ _⟩
  rw [quantum32_eq (by have := hends.1; omega)]
  exact toNat_byte_of_getElem (hbytes j hj)

/-- Settles O27: the symbols are good, so the tail checks decide. -/
theorem base32DecodeTailFailures : Obligations.Base32DecodeTailFailures := by
  intro s k p e hends hsyms hpads hbad hroom
  obtain ⟨d, -, -, hown⟩ := ownResult_b32Dec_of_symbols hends hsyms hpads
  refine exec_fails (fits_decode_of_room rfl hroom) ?_
  rw [hown, checkTail32_eq, if_pos hbad]
  rfl

/-- A byte of the text in front of index `l`. -/
theorem getElem?_take_inputBytes {s : State} {l j : Nat} (hl : l ≤ s.inLen) (hj : j < l) :
    (s.inputBytes.take l)[j]? = some (s.byte .input j) := by
  rw [List.getElem?_take_of_lt hj, getElem?_inputBytes s (by omega)]

/-- Settles O28: the symbols end in front of the trailing pads, and the first of them that is none decides before the
tail checks. -/
theorem base32DecodeSymbolFailures : Obligations.Base32DecodeSymbolFailures := by
  intro s k p e x hends hpads hlast hx hsyms hnone hroom
  have hk : k ≤ s.inLen := by have := hends.1.1; omega
  have hnoEnd : p = 0 → k = 0 ∨ isLineEnd (s.byte .input (k - 1)) = false := by
    rintro rfl
    refine .inr ?_
    simpa [lineEnd_iff] using hends.2 (by omega)
  have hbad := decSymbols32_bad 0 0 0 (s.inputBytes.take k) x (s.byte .input x) (getElem?_take_inputBytes hk hx)
    hnone fun j y hj hy => by
      rw [getElem?_take_inputBytes hk (by omega), Option.some.injEq] at hy
      exact hy ▸ hsyms j hj
  refine exec_fails (fits_decode_of_room rfl hroom) ?_
  rw [ownResult_b32Dec hends.1 hpads (.inr hlast) hnoEnd, hbad, Nat.zero_add]
  rfl

/-! ### Decode undoes encode -/

/-- Settles O29, by `decB32_encB32_append`. -/
theorem base32RoundTrip : Obligations.Base32RoundTrip := by
  intro b e p he
  refine ⟨decB32_encB32_append b p fun c hc => (lineEnd_iff c).1 (he c hc), ?_⟩
  rw [length_encB32, ceilDiv_eq, Nat.mul_comm]
  rfl

end Sys2Proof.Machine
end

section
/-! PROOFS. Base16: the digits of the encode, the bytes of the decode, the two ways a decode is refused, and that a
decode undoes an encode (R170 to R175). -/

namespace Sys2Proof.Machine

open Sys2Proof.Claims

/-! ### The encode -/

/-- Settles O30: byte `2j` holds the digit of the high nibble, byte `2j + 1` that of the low one. -/
theorem base16EncodeSymbols : Obligations.Base16EncodeSymbols := by
  intro s hroom
  refine ⟨_, exec_of_ok (fits_of_room (by decide) hroom) rfl, succeeds_succeed _ _ _ _ ?_, fun j hj => ⟨?_, ?_⟩,
    byte_succeed_marker s _, unchanged_succeed s _ _⟩
  · rw [length_encB16, length_inputBytes]
  · rw [inAt_eq]
    exact byte_of_getElem (getElem?_encB16 s.inputBytes j 0 (by simpa using hj) (by decide))
  · rw [inAt_eq]
    exact byte_of_getElem (getElem?_encB16 s.inputBytes j 1 (by simpa using hj) (by decide))

/-! ### The decode -/

/-- A text of odd length is refused whatever its bytes are (R174). -/
theorem decB16_of_odd {t : Bytes} (h : t.length % 2 ≠ 0) : decB16 t = .error ⟨.invalidLength, 0⟩ := by
  rw [decB16, if_pos h]

/-- A text of even length decodes pair by pair, with nothing stripped (R174). -/
theorem decB16_of_even {t : Bytes} (h : t.length % 2 = 0) : decB16 t = decPairs16 0 t := by
  rw [decB16, if_neg (by omega)]

/-- The digits of the claims are the model's: `Upper`, then the table (R173). -/
theorem hexValue_eq_digit : hexValue = digit := funext hexValue_eq

/-- Settles O31: the length decides first; then the digits, if all are, or the first byte that is none. -/
theorem base16DecodeResult : Obligations.Base16DecodeResult := by
  intro s hroom
  have hfits : s.fits .b16Dec = true := fits_decode_of_room rfl hroom
  have hlen := length_inputBytes s
  rw [hexValue_eq_digit]
  refine ⟨fun hodd => ?_, fun heven hdigits => ?_, fun p heven hp hdigits hnone => ?_⟩
  · exact exec_fails hfits (decB16_of_odd (by rwa [hlen]))
  · obtain ⟨d, hd, hdlen, hbytes⟩ := decPairs16_valid 0 s.inputBytes (by rwa [hlen]) (symbols_all hdigits)
    refine ⟨_, exec_of_ok hfits ((decB16_of_even (by rwa [hlen])).trans hd), succeeds_succeed _ _ _ _ ?_,
      fun j hj => ?_, unchanged_succeed s _ _⟩
    · rw [hdlen, hlen]
    · rw [valueAt_all, valueAt_all]
      exact toNat_byte_of_getElem (hbytes j hj)
  · have hbad := decPairs16_bad 0 s.inputBytes p (s.byte .input p) (by rwa [hlen]) (getElem?_inputBytes s hp) hnone
      fun j x hj hx => by
        rw [getElem?_inputBytes s (by omega), Option.some.injEq] at hx
        exact hx ▸ hdigits j hj
    rw [Nat.zero_add] at hbad
    exact exec_fails hfits ((decB16_of_even (by rwa [hlen])).trans hbad)

/-! ### Decode undoes encode -/

/-- Settles O32, by `decB16_encB16`, the encoded length, and the length check of the decode. -/
theorem base16RoundTrip : Obligations.Base16RoundTrip :=
  ⟨fun b => ⟨decB16_encB16 b, congrArg (· + 1) (length_encB16 b)⟩, fun _ hodd => decB16_of_odd (by omega)⟩

end Sys2Proof.Machine
end

section
/-! PROOFS. uuencode lines, bare and counted: the symbols of the encodes, the bytes of the decodes and the ways they are
refused, and what a decode makes of an encoded line (R181 to R190). -/

namespace Sys2Proof.Machine

open Sys2Proof.Claims

/-! ### The encodes -/

/-- A uuencode symbol lies in 0x21..0x60 (R106): the backtick, or one of the 63 bytes above the space. -/
theorem uuChar_range {v : Nat} (hv : v < 64) : 0x21 ≤ (uuChar v).toNat ∧ (uuChar v).toNat ≤ 0x60 := by
  rcases Nat.eq_zero_or_pos v with rfl | h0
  · decide
  · rw [toNat_uuChar h0 hv]
    omega

/-- The symbols of a uuencode text lie in 0x21..0x60 (R182), the fillers included. -/
theorem sextetText_uuChar_range {s t : State} {a n base : Nat} (h : SextetText s t uuChar 0x60#8 a n base) {j : Nat}
    (hj : j < 4 * ((n + 2) / 3)) :
    0x21 ≤ (t.byte .output (base + j)).toNat ∧ (t.byte .output (base + j)).toNat ≤ 0x60 := by
  have hbyte := h (j / 4) (j % 4) (by omega) (Nat.mod_lt _ (by decide))
  rw [Nat.add_assoc, Nat.div_add_mod] at hbyte
  rw [hbyte]
  split
  · exact uuChar_range (Nat.mod_lt _ (by decide))
  · decide

/-- Settles O33: 6-bit windowing with the uuencode symbols, all of which lie in the range. -/
theorem uuLineEncodeSymbols : Obligations.UuLineEncodeSymbols := by
  intro s hroom
  obtain ⟨t, hexec, hok, htext, hmark, hframe⟩ :=
    exec_encSextets (i := .uulEnc) (s := s) rfl (fits_of_room (by decide) hroom) rfl
  refine ⟨t, hexec, hok, htext, hmark, fun j hj => ?_, hframe⟩
  obtain ⟨-, -, hlen, -⟩ := hok
  simpa using sextetText_uuChar_range htext (hlen ▸ hj)

/-- The result bytes behind one byte in front are the symbols of the windows and the fillers (R187). -/
theorem sextetText_succeed_cons (s : State) (sym : Nat → Byte) (fill c : Byte) (tail : Bytes) :
    SextetText s (s.succeed (c :: encSextets sym fill s.inputBytes) tail) sym fill 0 s.inLen 1 := by
  intro q k hq hk
  rw [Nat.zero_add, sextet_eq, show 1 + 4 * q + k = 4 * q + k + 1 by omega]
  apply byte_of_getElem
  rw [List.getElem?_cons_succ, getElem?_encSextets sym fill s.inputBytes q k (by simpa using hq) hk, length_inputBytes]

/-- At most 63 bytes make a counted line (R187). -/
theorem encUUC_of_le {b : Bytes} (h : b.length ≤ 63) : encUUC b = .ok (countedLine b) :=
  if_neg (Nat.not_lt.2 h)

/-- More than 63 bytes do not fit the count character (R187). -/
theorem encUUC_of_lt {b : Bytes} (h : 63 < b.length) : encUUC b = .error ⟨.invalidLength, 0⟩ :=
  if_pos h

/-- Settles O36: the bound on the length decides. -/
theorem countedLineEncodeResult : Obligations.CountedLineEncodeResult := by
  intro s hroom
  have hfits : s.fits .uucEnc = true := fits_of_room (by decide) hroom
  have hlen := length_inputBytes s
  refine ⟨fun hle => ?_, fun hlt => exec_fails hfits (encUUC_of_lt (by rwa [hlen]))⟩
  refine ⟨_, exec_of_ok hfits (encUUC_of_le (by rwa [hlen])), succeeds_succeed _ _ _ _ ?_, ?_,
    sextetText_succeed_cons s _ _ _ _, byte_succeed_marker s _, unchanged_succeed s _ _⟩
  · rw [length_countedLine, hlen, ceilDiv_eq]
    rfl
  · apply byte_of_getElem
    rw [countedLine, hlen]
    rfl

/-! ### The text of a decode as a list -/

/-- Four symbols of the text behind index `n`. -/
theorem quantumAt_drop (inv : Byte → Option Nat) (t : Bytes) (n a : Nat) :
    quantumAt inv (t.drop n) a = quantumAt inv t (n + a) := by
  simp only [quantumAt, symAt, List.getElem?_drop, Nat.add_assoc]

/-- The groups of the claims are those of the list, where symbols stand to the end of the text (R184). -/
theorem quantum_all (inv : Byte → Option Nat) (s : State) (a : Nat) :
    quantum inv s s.inLen a = quantumAt inv s.inputBytes a := by
  simp only [quantum, quantumAt, valueAt_all]

/-- The result bytes of a success that are the bytes of the groups from index `a` on, in the words of the claims. -/
theorem quantumBytes_succeed_drop {inv : Byte → Option Nat} {s : State} {a : Nat} {d : Bytes}
    (h : AreQuantumBytes inv (s.inputBytes.drop a) d) (tail : Bytes) :
    QuantumBytes inv s (s.succeed d tail) a s.inLen d.length := fun j hj => by
  rw [quantum_all, ← quantumAt_drop]
  exact toNat_byte_of_getElem (h j hj)

/-- Symbols in front of index `p`, as list elements. -/
theorem symbol_of_getElem?_inputBytes {inv : Byte → Option Nat} {s : State} {p : Nat} (h : SymbolsTo inv s p)
    (hp : p ≤ s.inLen) {j : Nat} {x : Byte} (hj : j < p) (hx : s.inputBytes[j]? = some x) : inv x ≠ none := by
  rw [getElem?_inputBytes s (by omega), Option.some.injEq] at hx
  exact hx ▸ h j hj

/-! ### The decode of a bare line -/

/-- A bare line that is not whole groups is refused whatever its bytes are (R184). -/
theorem decUUL_not_whole {t : Bytes} (h : t.length % 4 ≠ 0) : decUUL t = .error ⟨.invalidLength, 0⟩ :=
  if_pos h

/-- A bare line of whole groups decodes group by group (R184). -/
theorem decUUL_whole {t : Bytes} (h : t.length % 4 = 0) : decUUL t = decGroupsUU 0 t :=
  if_neg (not_not.2 h)

/-- Settles O34: the length decides first; then the groups, if all symbols are valid, or the first that is not. -/
theorem uuLineDecodeResult : Obligations.UuLineDecodeResult := by
  intro s hroom
  have hfits : s.fits .uulDec = true := fits_decode_of_room rfl hroom
  have hlen := length_inputBytes s
  refine ⟨fun hpart => ?_, fun h4 hsyms => ?_, fun p h4 hp hsyms hnone => ?_⟩
  · exact exec_fails hfits (decUUL_not_whole (by rwa [hlen]))
  · obtain ⟨d, hd, hdlen, hbytes⟩ := decGroupsUU_valid 0 s.inputBytes (by rwa [hlen]) (symbols_all hsyms)
    refine ⟨_, exec_of_ok hfits ((decUUL_whole (by rwa [hlen])).trans hd), succeeds_succeed _ _ _ _ ?_,
      quantumBytes_succeed_drop (a := 0) hbytes _, unchanged_succeed s _ _⟩
    rw [hdlen, hlen]
    omega
  · have hbad := decGroupsUU_bad 0 s.inputBytes p (by rwa [hlen]) (by rwa [hlen])
      (fun _ _ hj hx => symbol_of_getElem?_inputBytes hsyms hp.le hj hx) fun x hx => by
        rw [getElem?_inputBytes s hp, Option.some.injEq] at hx
        exact hx ▸ hnone
    rw [Nat.zero_add] at hbad
    exact exec_fails hfits ((decUUL_whole (by rwa [hlen])).trans hbad)

/-! ### The decode of a counted line -/

/-- The count character and the line behind it, as a list (R188). -/
theorem inputBytes_eq_cons {s : State} (h : 0 < s.inLen) :
    s.inputBytes = s.byte .input 0 :: s.inputBytes.drop 1 := by
  have hpos : 0 < s.inputBytes.length := by rwa [length_inputBytes]
  rw [← getElem_inputBytes s hpos, ← List.drop_eq_getElem_cons hpos, List.drop_zero]

/-- A counted line that is refused, at its place in the text (R189). -/
theorem exec_uucDec_fails {s : State} (hroom : Room s s.inLen) {k : FailKind} {pos : Nat}
    (h : BadLine s.inputBytes k pos) : ∃ t, exec .uucDec s = .next t ∧ Fails t k pos ∧ Unchanged s t := by
  have hbad := decUUC_bad h 0
  rw [Nat.zero_add] at hbad
  exact exec_fails (fits_decode_of_room rfl hroom) hbad

/-- A counted line without a count character, or not of whole groups (R189). -/
theorem badLine_of_length {s : State} (h : s.inLen = 0 ∨ (s.inLen - 1) % 4 ≠ 0) :
    BadLine s.inputBytes .invalidLength 0 := by
  rcases Nat.eq_zero_or_pos s.inLen with h0 | hpos
  · exact .inl ⟨List.eq_nil_of_length_eq_zero ((length_inputBytes s).trans h0), rfl, rfl⟩
  · refine .inr ⟨_, _, inputBytes_eq_cons hpos, .inl ⟨?_, rfl, rfl⟩⟩
    rw [List.length_drop, length_inputBytes]
    omega

/-- Settles O37: each refusal is a way to be a bad line, and a good line gives the first bytes of its groups. -/
theorem countedLineDecodeResult : Obligations.CountedLineDecodeResult := by
  intro s hroom
  refine ⟨fun h => exec_uucDec_fails hroom (badLine_of_length h), fun m hm => ?_⟩
  have hcons := inputBytes_eq_cons (s := s) (by omega)
  have hline : (s.inputBytes.drop 1).length = 4 * m := by
    rw [List.length_drop, length_inputBytes]
    omega
  have h4 : (s.inputBytes.drop 1).length % 4 = 0 := by omega
  refine ⟨fun hcount => ?_, fun n hcount => ⟨fun hlt => ?_, fun hle hsyms => ?_, fun p hle hp hsyms hnone => ?_⟩⟩
  · exact exec_uucDec_fails hroom (.inr ⟨_, _, hcons, .inr (.inl ⟨h4, hcount, rfl, rfl⟩)⟩)
  · exact exec_uucDec_fails hroom (.inr ⟨_, _, hcons, .inr (.inr ⟨h4, n, hcount, .inl ⟨by omega, rfl, rfl⟩⟩)⟩)
  · obtain ⟨d, hd, hdlen, hbytes⟩ := decUUC_valid 0 h4 hcount (by omega)
      fun x hx => symbols_all hsyms x (List.mem_of_mem_drop hx)
    rw [← hcons] at hd
    exact ⟨_, exec_of_ok (fits_decode_of_room rfl hroom) hd, succeeds_succeed _ _ _ _ hdlen,
      hdlen ▸ quantumBytes_succeed_drop hbytes _, unchanged_succeed s _ _⟩
  · have hp0 : 0 < p := Nat.pos_of_ne_zero fun h0 => by
      rw [h0, hcount] at hnone
      cases hnone
    exact exec_uucDec_fails hroom (.inr ⟨_, _, hcons, .inr (.inr ⟨h4, n, hcount, .inr ⟨by omega, rfl, hp0,
      ⟨_, getElem?_inputBytes s hp, hnone⟩,
      fun _ _ _ hj hx => symbol_of_getElem?_inputBytes hsyms hp.le hj hx⟩⟩)⟩)

/-! ### What a decode makes of an encoded line -/

/-- A bare line decodes to the data, zero-extended to whole groups (R185). -/
theorem decUUL_encUUL (b : Bytes) :
    decUUL (encUUL b) = .ok (b ++ List.replicate ((3 - b.length % 3) % 3) 0x00#8) := by
  rw [decUUL_whole (by rw [length_encUUL]; omega), decGroupsUU_encUUL]

/-- The zero extension adds nothing exactly to whole groups (R64). -/
theorem zeroExtended_eq_self_iff (b : Bytes) :
    b ++ List.replicate ((3 - b.length % 3) % 3) 0x00#8 = b ↔ b.length % 3 = 0 := by
  rw [List.append_right_eq_self, List.replicate_eq_nil_iff]
  omega

/-- The low windows of the group of one byte are 0, as are the values of the fillers that stand for them (R182). -/
theorem bits_group24_single (x : Byte) : bits (group24 x 0 0) 11 6 = 0 ∧ bits (group24 x 0 0) 5 0 = 0 := by
  have hx : group24 x 0 0 = x.toNat * 2 ^ 16 := by simp [group24_eq]
  simp only [hx, bits_eq]
  omega

/-- The filler is the symbol of 0, so that zero bytes behind one byte do not show in the line (R185). -/
theorem encUUL_single (x : Byte) : encUUL [x] = encUUL [x, 0x00#8] ∧ encUUL [x] = encUUL [x, 0x00#8, 0x00#8] := by
  obtain ⟨hlow, hlowest⟩ := bits_group24_single x
  constructor <;> simp only [encUUL, encSextets]
  · rw [show (0x00#8 : Byte) = 0 from rfl, hlow]
    rfl
  · rw [show (0x00#8 : Byte) = 0 from rfl, hlow, hlowest]
    rfl

/-- Settles O35, by `decUUL_encUUL` and the windows that hold no bit of a single byte. -/
theorem uuLineDecodeOfEncode : Obligations.UuLineDecodeOfEncode := by
  refine ⟨decUUL_encUUL, fun b => ?_, rfl, encUUL_single⟩
  rw [decUUL_encUUL, Except.ok.injEq, zeroExtended_eq_self_iff]

/-- Settles O38, by `decUUC_countedLine` and the encoded lengths. -/
theorem countedLineRoundTrip : Obligations.CountedLineRoundTrip := fun b hb =>
  ⟨_, encUUC_of_le hb, decUUC_countedLine b 0 hb, length_countedLine b, length_encUUL b⟩

end Sys2Proof.Machine
end

section
/-! PROOFS. The uuencode envelope: where the encode puts each byte, the bytes of a decode, the two ways a decode is refused
(by its format and by a body line), and that a decode undoes an encode (R201 to R209). -/

namespace Sys2Proof.Machine

open Sys2Proof.Claims

/-! ### The encode -/

/-- A byte of the result, by the part of the result it stands in and what stands in front of that part. -/
theorem byte_of_part {s : State} {d tail front part : Bytes} {a j : Nat} {x : Byte} (hd : front ++ part <+: d)
    (ha : front.length = a) (hx : part[j]? = some x) : (s.succeed d tail).byte .output (a + j) = x := by
  obtain ⟨back, rfl⟩ := hd
  have hj : j < part.length := (List.getElem?_eq_some_iff.1 hx).1
  apply byte_of_getElem
  rw [← ha, List.append_assoc, List.getElem?_append_right (Nat.le_add_right _ _), Nat.add_sub_cancel_left,
    List.getElem?_append_left hj, hx]

/-- A byte of the mode field, by the list of the field's bytes. -/
theorem getElem?_modeBytes (s : State) {j : Nat} (h : j < s.modeLen) : s.modeBytes[j]? = some (s.byte .mode j) :=
  Buffer.getElem?_read _ _ _ _ h

/-- A byte of the name field, by the list of the field's bytes. -/
theorem getElem?_nameBytes (s : State) {j : Nat} (h : j < s.nameLen) : s.nameBytes[j]? = some (s.byte .name j) :=
  Buffer.getElem?_read _ _ _ _ h

/-- The length of the header line (R202). -/
theorem length_headerLine (mode name : Bytes) : (headerLine mode name).length = 8 + mode.length + name.length := by
  simp only [headerLine, beginText, List.length_append, List.length_cons, List.length_nil]
  omega

/-- The length of a chunk of the input (R202). -/
theorem length_chunk_inputBytes (s : State) (g : Nat) :
    (chunk s.inputBytes g).length = min 60 (s.inLen - 60 * g) := by rw [length_chunk, length_inputBytes]

/-- A window of a chunk's group is the window of the data at the chunk's place (R202). -/
theorem sextetAt_chunk (b : Bytes) (g k : Nat) {a : Nat} (ha : a + 2 < 60) :
    sextetAt (chunk b g) a k = sextetAt b (60 * g + a) k := by
  rw [sextetAt, natAt_chunk b g a (by omega), natAt_chunk b g (a + 1) (by omega), natAt_chunk b g (a + 2) ha]
  rfl

/-- The body line of chunk `g` without its LF: behind the count stand the symbols of the chunk's windows and the fillers
(R202, R204). -/
theorem getElem?_countedLine_chunk {s : State} {g q k : Nat} (hq : q < (min 60 (s.inLen - 60 * g) + 2) / 3) (hk : k < 4) :
    (countedLine (chunk s.inputBytes g))[1 + 4 * q + k]? =
      some (if 3 * q + k ≤ min 60 (s.inLen - 60 * g) then uuChar (sextet s (60 * g + 3 * q) k) else 0x60#8) := by
  have hlen := length_chunk_inputBytes s g
  rw [countedLine, show 1 + 4 * q + k = 4 * q + k + 1 by omega, List.getElem?_cons_succ, encUUL,
    getElem?_encSextets _ _ _ q k (by rwa [hlen]) hk, hlen, sextetAt_chunk _ _ _ (by omega), sextet_eq]
  rfl

/-- A byte of the body line of chunk `g`, its LF included, at its place in the result of `UUF.ENC` (R202, R203). -/
theorem byte_bodyLine {s : State} {tail : Bytes} {g j : Nat} {x : Byte} (hg : 60 * g < s.inLen)
    (hx : (countedLine (chunk s.inputBytes g) ++ [lf])[j]? = some x) :
    (s.succeed (encUUF s.inputBytes s.modeBytes s.nameBytes) tail).byte .output
      (8 + s.modeLen + s.nameLen + (82 * g + j)) = x := by
  have hj := (List.getElem?_eq_some_iff.1 hx).1
  refine byte_of_part (List.prefix_append _ trailer) (by simp [length_headerLine]) ?_
  rw [bodyLines_getElem _ _ (by simpa using hg) _ hj, hx]

/-- The body line of chunk `g` in the result of `UUF.ENC`: count character, symbols and LF (R202, R204). -/
theorem bodyLine_layout {s : State} {tail : Bytes} {g : Nat} (hg : 60 * g < s.inLen) {t : State}
    (ht : t = s.succeed (encUUF s.inputBytes s.modeBytes s.nameBytes) tail) :
    t.byte .output (8 + s.modeLen + s.nameLen + 82 * g) = uuChar (min 60 (s.inLen - 60 * g)) ∧
    SextetText s t uuChar 0x60#8 (60 * g) (min 60 (s.inLen - 60 * g)) (9 + s.modeLen + s.nameLen + 82 * g) ∧
    t.byte .output (9 + s.modeLen + s.nameLen + 82 * g + 4 * ((min 60 (s.inLen - 60 * g) + 2) / 3)) = 0x0A#8 := by
  subst ht
  have hlen := length_chunk_inputBytes s g
  have hline : (countedLine (chunk s.inputBytes g)).length = 1 + 4 * ((min 60 (s.inLen - 60 * g) + 2) / 3) := by
    rw [length_countedLine, hlen, ceilDiv_eq]
    rfl
  have hplace : ∀ n, 9 + s.modeLen + s.nameLen + 82 * g + n = 8 + s.modeLen + s.nameLen + (82 * g + (1 + n)) := by omega
  refine ⟨byte_bodyLine (j := 0) hg ?_, fun q k hq hk => ?_, ?_⟩
  · rw [countedLine, hlen]
    rfl
  · rw [Nat.add_assoc _ (4 * q), hplace]
    refine byte_bodyLine hg ?_
    rw [List.getElem?_append_left (by omega), ← Nat.add_assoc, getElem?_countedLine_chunk hq hk]
  · rw [hplace, ← hline]
    exact byte_bodyLine hg List.getElem?_concat_length

/-- The header line in the result of `UUF.ENC` (R202, R205). -/
theorem headerLine_layout {s : State} {tail : Bytes} {t : State}
    (ht : t = s.succeed (encUUF s.inputBytes s.modeBytes s.nameBytes) tail) :
    (∀ j, j < 6 → beginBytes[j]? = some (t.byte .output j)) ∧
    (∀ j, j < s.modeLen → t.byte .output (6 + j) = s.byte .mode j) ∧
    t.byte .output (6 + s.modeLen) = 0x20#8 ∧
    (∀ j, j < s.nameLen → t.byte .output (7 + s.modeLen + j) = s.byte .name j) ∧
    t.byte .output (7 + s.modeLen + s.nameLen) = 0x0A#8 := by
  subst ht
  have hbegin : beginText.length = 6 := rfl
  have hlenMode : (beginText ++ s.modeBytes).length = 6 + s.modeLen := by
    rw [List.length_append, hbegin, length_modeBytes]
  have hlenSpace : (beginText ++ s.modeBytes ++ [0x20#8]).length = 7 + s.modeLen := by
    rw [List.length_append, hlenMode, List.length_singleton]
    omega
  have hlenName : (beginText ++ s.modeBytes ++ [0x20#8] ++ s.nameBytes).length = 7 + s.modeLen + s.nameLen := by
    rw [List.length_append, hlenSpace, length_nameBytes]
  refine ⟨fun j hj => ?_, fun j hj => ?_, ?_, fun j hj => ?_, ?_⟩
  · have hget : beginText[j]? = some beginText[j] := List.getElem?_eq_getElem hj
    have hpart : [] ++ beginText <+: encUUF s.inputBytes s.modeBytes s.nameBytes := by simp [encUUF, headerLine]
    rw [← Nat.zero_add j, byte_of_part hpart List.length_nil hget, Nat.zero_add]
    exact hget
  · exact byte_of_part (by simp [encUUF, headerLine]) hbegin (getElem?_modeBytes s hj)
  · exact byte_of_part (part := [0x20#8]) (j := 0) (by simp [encUUF, headerLine]) hlenMode rfl
  · exact byte_of_part (by simp [encUUF, headerLine]) hlenSpace (getElem?_nameBytes s hj)
  · exact byte_of_part (part := [lf]) (j := 0) (by simp [encUUF, headerLine]) hlenName rfl

/-- The terminator line and `end` are the last five bytes of the result of `UUF.ENC` (R202). -/
theorem trailer_layout {s : State} {tail : Bytes} {t : State}
    (ht : t = s.succeed (encUUF s.inputBytes s.modeBytes s.nameBytes) tail) {j : Nat} (hj : j < 5) :
    endBytes[j]? = some (t.byte .output (t.outLen - 5 + j)) := by
  subst ht
  have hget : trailer[j]? = some trailer[j] := List.getElem?_eq_getElem hj
  have hfront : (headerLine s.modeBytes s.nameBytes ++ bodyLines s.inputBytes).length =
      (encUUF s.inputBytes s.modeBytes s.nameBytes).length - 5 := by
    rw [encUUF, List.length_append (bs := trailer)]
    rfl
  exact hget.trans (congrArg some (byte_of_part List.prefix_rfl hfront hget).symm)

/-- Settles O39, part by part of the envelope: the header line, each chunk's line, the trailer, the marker. -/
theorem envelopeEncodeLayout : Obligations.EnvelopeEncodeLayout := by
  intro s hfields hroom
  have hfits : s.fits .uufEnc = true := (fits_iff s _).2 ⟨hroom.1, fun _ => hfields, hroom.2⟩
  obtain ⟨hbegin, hmode, hspace, hname, hlf⟩ := headerLine_layout (s := s) (tail := tailOf .uufEnc) rfl
  refine ⟨_, exec_of_ok hfits rfl, succeeds_succeed _ _ _ _ ?_, hbegin, hmode, hspace, hname, hlf,
    fun g hg => bodyLine_layout hg rfl, fun j hj => trailer_layout rfl hj, byte_succeed_marker s _,
    unchanged_succeed s _ _⟩
  rw [length_encUUF, length_inputBytes, length_modeBytes, length_nameBytes, envelopeSize_eq]

/-! ### The decode of an envelope in the right format -/

/-- The result bytes of a success, read as the host reads them. -/
theorem read_succeed (s : State) (d tail : Bytes) : (s.succeed d tail).outBuf.read .output 0 d.length = d := by
  refine List.ext_getElem (by simp) fun j _ hj => ?_
  rw [Buffer.getElem_read, Nat.zero_add]
  exact byte_succeed s d tail hj

/-- Good lines decode to their bytes one after the other (R207, R189). -/
theorem decLines_good {ls : List (Bytes × Nat)} (h : ∀ x ∈ ls, GoodLine x.1 x.2) (pos : Nat) :
    decLines pos (ls.map Prod.fst) = .ok (ls.flatMap fun x => lineData x.1 x.2) := by
  induction ls generalizing pos with
  | nil => rfl
  | cons x ls ih =>
    obtain ⟨hx, hls⟩ := List.forall_mem_cons.1 h
    rw [List.map_cons, decLines, (decUUC_good hx).1, ih hls]
    rfl

/-- Good lines give as many bytes as their counts say (R189). -/
theorem length_goodData {ls : List (Bytes × Nat)} (h : ∀ x ∈ ls, GoodLine x.1 x.2) :
    (ls.flatMap fun x => lineData x.1 x.2).length = (ls.map Prod.snd).sum := by
  rw [List.length_flatMap]
  exact congrArg List.sum (List.map_congr_left fun x hx => (decUUC_good (h x hx)).2)

/-- Good lines, each as a line that can stand in a body in front of the sentinel (R207, R208 (b)). -/
theorem clean_of_good {ls : List (Bytes × Nat)} (h : ∀ x ∈ ls, GoodLine x.1 x.2) :
    ∀ l ∈ ls.map Prod.fst, lf ∉ l ∧ l ≠ [] ∧ l[0]? ≠ some 0x65#8 := by
  intro l hl
  obtain ⟨x, hx, rfl⟩ := List.mem_map.1 hl
  exact good_no_lf (h x hx)

/-- Settles O40: no good line holds an LF or begins the sentinel's `end`, so the lines that are decoded are the good
lines. -/
theorem envelopeDecodeBytes : Obligations.EnvelopeDecodeBytes := by
  intro s hdr rest ls hin hhdr hgood hroom
  have hclean := clean_of_good hgood
  have hown : decUUF s.inputBytes = .ok (ls.flatMap fun x => lineData x.1 x.2) := by
    rw [hin]
    exact (decUUF_eq hhdr (fun l hl => (hclean l hl).1) (not_sentinel_infix hclean)).trans (decLines_good hgood _)
  exact ⟨_, exec_of_ok (fits_decode_of_room rfl hroom) hown, succeeds_succeed _ _ _ _ (length_goodData hgood),
    read_succeed s _ _, unchanged_succeed s _ _⟩

/-! ### The ways a decode is refused -/

/-- No `begin ` at the front (R207). -/
theorem findBody_of_not_begin {t : Bytes} (h : ¬ beginText <+: t) : findBody t = .error ⟨.invalidFormat, 0⟩ :=
  if_neg fun hp => h (List.isPrefixOf_iff_prefix.1 hp)

/-- No LF (R207). -/
theorem findBody_of_no_lf {t : Bytes} (hb : beginText <+: t) (h : lf ∉ t) : findBody t = .error ⟨.invalidFormat, 0⟩ := by
  have hlf : findSub [lf] 0 t = none :=
    findSub_eq_none_of fun hin => h (hin.subset (List.mem_singleton_self lf))
  rw [findBody, if_pos (List.isPrefixOf_iff_prefix.2 hb), hlf]

/-- No sentinel at or after the first LF (R207, R208 (a), (b)). -/
theorem findBody_of_no_sentinel {hdr tail : Bytes} (hb : beginText <+: hdr ++ lf :: tail) (hh : lf ∉ hdr)
    (h : ¬ sentinel <:+: lf :: tail) : findBody (hdr ++ lf :: tail) = .error ⟨.invalidFormat, 0⟩ := by
  rw [findBody, if_pos (List.isPrefixOf_iff_prefix.2 hb), findSub_lf hh]
  simp only [Nat.zero_add, List.drop_left, findSub_eq_none_of h]

/-- A format check that fails is the failure of the decode (R207). -/
theorem decUUF_of_findBody_error {t : Bytes} {f : Failure} (h : findBody t = .error f) : decUUF t = .error f := by
  rw [decUUF, h]
  rfl

/-- Settles O41, by the first of the three checks that fails: `begin `, the LF, the sentinel. -/
theorem envelopeDecodeFormatFailures : Obligations.EnvelopeDecodeFormatFailures := by
  intro s hroom hbad
  refine exec_fails (fits_decode_of_room rfl hroom) (decUUF_of_findBody_error ?_)
  by_cases hb : beginText <+: s.inputBytes
  · rcases hbad with hnot | hlf | ⟨hdr, tail, hin, hhdr, hsent⟩
    · exact absurd hb hnot
    · exact findBody_of_no_lf hb hlf
    · rw [List.append_assoc] at hin
      rw [hin] at hb ⊢
      exact findBody_of_no_sentinel hb hhdr hsent
  · exact findBody_of_not_begin hb

/-- Settles O42: the good lines in front decode, and the bad line fails at its place in the input. -/
theorem envelopeDecodeLineFailures : Obligations.EnvelopeDecodeLineFailures := by
  intro s hdr rest bad good later k pos hin hhdr hgood hbadlf hbad hlater hsent hroom
  have hlines : ∀ l ∈ good.map Prod.fst ++ bad :: later, lf ∉ l := by
    rw [List.forall_mem_append, List.forall_mem_cons]
    exact ⟨fun l hl => (clean_of_good hgood l hl).1, hbadlf, hlater⟩
  have hdecode : ∀ l ∈ good.map Prod.fst, ∀ p, ∃ d, decUUC l p = .ok d := fun l hl p => by
    obtain ⟨x, hx, rfl⟩ := List.mem_map.1 hl
    exact ⟨_, (decUUC_good (hgood x hx)).1 p⟩
  have hpos : beginText.length + hdr.length + 1 + (joinLines (good.map Prod.fst)).length =
      (beginBytes ++ hdr ++ [0x0A#8] ++ asBody (good.map Prod.fst)).length := by
    simp only [List.length_append]
    rfl
  have hown : decUUF s.inputBytes =
      .error ⟨k, (beginBytes ++ hdr ++ [0x0A#8] ++ asBody (good.map Prod.fst)).length + pos⟩ := by
    rw [hin, ← hpos]
    exact (decUUF_eq hhdr hlines hsent).trans (decLines_first _ hdecode (decUUC_bad hbad))
  exact exec_fails (fits_decode_of_room rfl hroom) hown

/-! ### Decode undoes encode -/

/-- Settles O43, by `decUUF_encUUF` and the length of the envelope. -/
theorem envelopeRoundTrip : Obligations.EnvelopeRoundTrip := fun b mode name hmode hname =>
  ⟨decUUF_encUUF hmode hname, (length_encUUF b mode name).trans (envelopeSize_eq _ _ _).symm⟩

end Sys2Proof.Machine
end

section
/-! PROOFS. Size and control: what `REQ_LEN` reads, when a command does not fit and how long its result is when it does, the
turn of the core that runs a started command, and that the same command in unit steps ends in the same state. -/

namespace Sys2Proof.Machine

open Sys2Proof.Claims

/-! ### Size -/

/-- The ways the capacity check refuses a command, in the words of the claims (R226). -/
theorem fits_eq_false_iff (s : State) (i : Instr) :
    s.fits i = false ↔ s.par.inCap < s.inLen ∨
      (i = .uufEnc ∧ (s.par.auxCap < s.modeLen ∨ s.par.auxCap < s.nameLen)) ∨
      s.par.outCap < sizeTable i s.inLen s.modeLen s.nameLen := by
  rw [← Bool.not_eq_true, fits_iff, sizeTable_eq]
  simp only [not_and_or, Classical.not_imp, Nat.not_le]

/-- Settles O10: one of the three conditions refuses the command, which then takes the failure `BufferTooSmall` at 0. -/
theorem tooSmallBufferFails : Obligations.TooSmallBufferFails := fun s i h =>
  ⟨_, exec_of_not_fits ((fits_eq_false_iff s i).2 h), fails_raise s _ _, unchanged_raise s _⟩

/-- Settles O11: `REQ_LEN` reads the size of the word's command, and 0 for a word of none. -/
theorem requiredLengthIsTheSizeTable : Obligations.RequiredLengthIsTheSizeTable := by
  constructor
  · intro s i hcmd
    rw [State.readReg, hcmd, reqLen_encode]
  · intro s hword
    rw [State.readReg, reqLen_of_illegal hword, Nat.zero_mod]

/-- An encode's function gives bytes, and with the marker they are as long as `ReqLen` says (R66, R221). -/
theorem ownResult_encode_length {i : Instr} (hi : isEncode i = true) {t : Bytes} (ht : i = .uucEnc → t.length ≤ 63)
    (mode name : Bytes) :
    ∃ d, ownResult i t mode name = .ok d ∧ d.length + 1 = commandReqLen i t.length mode.length name.length := by
  cases i
  case b64Enc => exact ⟨_, rfl, congrArg (· + 1) (length_encB64 _ _)⟩
  case b64uEnc => exact ⟨_, rfl, congrArg (· + 1) (length_encB64 _ _)⟩
  case b32Enc => exact ⟨_, rfl, congrArg (· + 1) (length_encB32 _)⟩
  case b16Enc => exact ⟨_, rfl, congrArg (· + 1) (length_encB16 _)⟩
  case uulEnc => exact ⟨_, rfl, congrArg (· + 1) (length_encUUL _)⟩
  case uucEnc =>
    refine ⟨_, encUUC_of_le (ht rfl), ?_⟩
    rw [length_countedLine, commandReqLen]
    omega
  case uufEnc => exact ⟨_, rfl, congrArg (· + 1) (length_encUUF _ _ _)⟩
  all_goals cases hi

/-- The bytes of `OUT` that a success gives a value to are its result and what follows it (R36, R245). -/
theorem get?_succeed_ne_none_iff (s : State) (d tail : Bytes) (a : Nat) :
    Memory.get? (s.succeed d tail).outBuf.cells a ≠ none ↔ a < d.length + tail.length := by
  rw [State.succeed_outBuf, Memory.get?_write_nil, Ne, List.getElem?_eq_none_iff, Nat.not_le, List.length_append]

/-- Settles O19: the encode's function gives bytes of the tabled length, and the success writes them and the marker. -/
theorem encodeLengthIsRequiredLength : Obligations.EncodeLengthIsRequiredLength := by
  intro s i hi hshort hfields hroom
  obtain ⟨hin, hout⟩ := hroom
  obtain ⟨d, hd, hlen⟩ : ∃ d, ownResult i s.inputBytes s.modeBytes s.nameBytes = .ok d ∧
      d.length + 1 = sizeTable i s.inLen s.modeLen s.nameLen := by
    simpa [sizeTable_eq] using ownResult_encode_length hi (t := s.inputBytes) (by simpa using hshort) s.modeBytes s.nameBytes
  have hf : s.fits i = true := (fits_iff s i).2 ⟨hin, hfields, by rwa [← sizeTable_eq]⟩
  refine ⟨_, exec_of_ok hf hd, succeeds_succeed s _ _ _ (by omega), ?_, fun a => ?_, unchanged_succeed s _ _⟩
  · rw [tailOf_encode hi]
    exact byte_succeed_marker s d
  · rw [get?_succeed_ne_none_iff, length_tailOf, if_pos hi, hlen]

/-! ### The turn of the core -/

/-- With nothing pending the core has its turn (R20, R73). -/
theorem step_nil {s : State} (h : s.pending = []) : step s = coreTurn s := by
  rw [step, h]

/-- With its turn as the oldest event the core has it, on the state without that event (R20, R73). -/
theorem step_core {s : State} {rest : List Event} (h : s.pending = .core :: rest) :
    step s = coreTurn { s with pending := rest } := by
  rw [step, h]

/-- A turn of the core runs a started command (R225, R227). -/
theorem coreTurn_of_command {s : State} {i : Instr} (hp : s.phase = .busy) (hd : decode s.cmd = .ok i) :
    coreTurn s = exec i s := by
  simp only [coreTurn, hp, hd]

/-- A turn of the core brings a started command, or an illegal word, to `DONE` and takes nothing off the list (R97,
R227). -/
theorem coreTurn_completes {s : State} (hp : s.phase = .busy) :
    ∃ t, coreTurn s = .next t ∧ t.phase = .done ∧ Unchanged s t := by
  rcases coreTurn_cases s with ⟨hnot, -⟩ | ⟨-, i, -, hturn⟩ | ⟨-, _, -, hturn⟩
  · exact absurd hp hnot
  · have hexec := exec_eq_runCommand i s
    exact ⟨_, hturn.trans hexec, phase_exec hexec, unchanged_exec hexec⟩
  · exact ⟨_, hturn, rfl, unchanged_raise s _⟩

/-- Settles O7, by the turn of the core on the state with nothing pending and on the one without the oldest event. -/
theorem stepRunsTheCommandWord : Obligations.StepRunsTheCommandWord := fun s _ hp hd =>
  ⟨fun hpe => (step_nil hpe).trans (coreTurn_of_command hp hd),
    fun rest hpe => (step_core hpe).trans (coreTurn_of_command (s := { s with pending := rest }) hp hd)⟩

/-- A command's word placed by its number is the word itself (R91). -/
theorem withFetchWord_encode (s : State) (i : Instr) :
    s.withFetchWord 8 (encode i).toNat = s.placeCommand (encode i) := by
  rw [State.withFetchWord, Nat.mod_eq_of_lt (encode i).isLt, ofNat_encode]

/-- Settles O8: the placed command's turn is the oldest event, and its word decodes to it. -/
theorem placedCommandRunsNext : Obligations.PlacedCommandRunsNext := by
  intro s i
  rw [withFetchWord_encode, step_core (State.placeCommand_pending s _)]
  exact coreTurn_of_command (s := { s.start with cmd := encode i }) rfl (decode_encode i)

/-- Settles O13: a command completes in every state, and so does a turn of the core in every BUSY one. -/
theorem startedCommandReachesDone : Obligations.StartedCommandReachesDone := by
  refine ⟨fun s i => ⟨_, exec_eq_runCommand i s, phase_exec (exec_eq_runCommand i s)⟩,
    fun s hp => ⟨fun hpe => ?_, fun rest hpe => ?_⟩⟩
  · obtain ⟨t, hturn, hdone, -⟩ := coreTurn_completes hp
    exact ⟨t, (step_nil hpe).trans hturn, hdone⟩
  · obtain ⟨t, hturn, hdone, -, -, -, -, -, hpending, -⟩ := coreTurn_completes (s := { s with pending := rest }) hp
    exact ⟨t, (step_core hpe).trans hturn, hdone, hpending⟩

/-! ### Unit steps -/

/-- The units of an encode never fail: what can fail in an encode is checked before its units (R187, R235). -/
theorem unitsFrom_encode_ok {i : Instr} (hi : isEncode i = true) (t : Bytes) (k : Nat) (w : Work) :
    ∃ r, unitsFrom i t k w = .ok r := by
  have hunit : ∀ w, ∃ x, unitAt i t w = .ok x := fun w => by
    cases i
    case b64Enc | b64uEnc | b32Enc | b16Enc | uulEnc | uucEnc | uufEnc => exact ⟨_, rfl⟩
    all_goals cases hi
  have hlast : ∀ w, ∃ r, lastUnit i w = .ok r := fun w => by
    cases i
    case b64Enc | b64uEnc | b32Enc | b16Enc | uulEnc | uucEnc | uufEnc => exact ⟨_, rfl⟩
    all_goals cases hi
  induction k generalizing w with
  | zero => exact hlast w
  | succ k ih =>
    obtain ⟨⟨w', d⟩, hd⟩ := hunit w
    obtain ⟨r, hr⟩ := ih w'
    exact ⟨d ++ r, by rw [unitsFrom, hd]; simp only [bind, Except.bind, hr]⟩

/-- Nothing follows the result of a decode (R67). -/
theorem tailOf_decode {i : Instr} (h : isEncode i = false) : tailOf i = [] :=
  List.eq_nil_of_length_eq_zero (by rw [length_tailOf, h]; rfl)

/-- Why the bytes of `k` units from `w` on fit `OUT` behind the bytes `acc`: all of them together do, or the command is a
decode, which delivers no more than it has read (R70). It is the premise of `runUnits_middle`. -/
def UnitsFit (i : Instr) (s : State) (k : Nat) (w : Work) (acc : Bytes) : Prop :=
  (∃ r, unitsFrom i s.inputBytes k w = .ok r ∧ (acc ++ (r ++ tailOf i)).length ≤ s.par.outCap) ∨
  (tailOf i = [] ∧ (i = .uucDec → w.ip = 0 ∨ k = 0) ∧ acc.length ≤ w.ip ∧ w.ip ≤ s.inLen ∧ s.inLen ≤ s.par.outCap ∧
    (i = .uucDec → k ≤ 1))

/-- Then the bytes so far fit. -/
theorem UnitsFit.length_le {i : Instr} {s : State} {k : Nat} {w : Work} {acc : Bytes} (h : UnitsFit i s k w acc) :
    acc.length ≤ s.par.outCap := by
  rcases h with ⟨r, -, hall⟩ | ⟨-, -, hread, hip, hcap, -⟩
  · rw [List.length_append] at hall
    omega
  · omega

/-- After the pre-scan of a command that passed the capacity check everything its units deliver fits: an encode's result is
no longer than `ReqLen`, and `ReqLen` of a decode is its input's length (R221, R223, R226). -/
theorem unitsFit_of_preScan {i : Instr} {s : State} {w : Work} {d : Bytes} {k : Nat} (hf : s.fits i = true)
    (hpre : preScan i s.inputBytes s.modeBytes s.nameBytes = .ok (w, d)) (hk : w.left = some k) (op : Nat) :
    UnitsFit i s k { w with op := op } d := by
  obtain ⟨-, k', hk', hown, hdec⟩ := (preScan_units i s.inputBytes s.modeBytes s.nameBytes).2 w d hpre
  obtain rfl : k' = k := Option.some.inj (hk'.symm.trans hk)
  have hcap := ((fits_iff s i).1 hf).2.2
  cases hi : isEncode i with
  | true =>
    obtain ⟨r, hr⟩ := unitsFrom_encode_ok hi s.inputBytes k' w
    refine .inl ⟨r, (unitsFrom_own i s.inputBytes k' w op w.left).trans hr, ?_⟩
    rw [hr] at hown
    have hlen := ownResult_length hown
    rw [length_inputBytes, length_modeBytes, length_nameBytes, List.append_assoc] at hlen
    exact hlen.trans hcap
  | false =>
    obtain ⟨rfl, hip, huuc⟩ := hdec (tailOf_decode hi)
    rw [commandReqLen_decode hi] at hcap
    rw [length_inputBytes] at hip
    exact .inr ⟨tailOf_decode hi, fun h => .inl (huuc h).1, Nat.zero_le _, hip, hcap, fun h => (huuc h).2⟩

/-- Every started command takes at least one unit step (R301). -/
theorem unitCount_pos (i : Instr) (s : State) : 0 < unitCount i s := by
  unfold unitCount
  split
  · omega
  · exact Nat.one_pos

/-- A command whose first unit step fails has ended (R235, R244). -/
theorem runUnits_of_raise {i : Instr} {s : State} {f : Failure} (h : unitStep i s = .next (s.raise f)) :
    runUnits i (unitCount i s) s = .next (s.raise f) := by
  obtain ⟨n, hn⟩ := Nat.exists_eq_add_one.2 (unitCount_pos i s)
  rw [hn, runUnits, h]
  rfl

/-- A command that its first unit step leaves BUSY goes on with the others (R235). -/
theorem runUnits_of_busy {i : Instr} {n : Nat} {s t : State} (h : unitStep i s = .next t) (hp : t.phase = .busy) :
    runUnits i (n + 1) s = runUnits i n t := by
  rw [runUnits, h]
  exact if_pos hp

/-- The first unit step of a command whose pre-scan gives working registers and the bytes `d` (R235). -/
theorem unitStep_first {i : Instr} {s : State} {w : Work} {d : Bytes} (hwork : s.work = Work.init) (hf : s.fits i = true)
    (hpre : preScan i s.inputBytes s.modeBytes s.nameBytes = .ok (w, d)) (hop : w.op = 0)
    (hd : d.length ≤ s.par.outCap) :
    unitStep i s = .next { s with
      outBuf := { cells := Memory.write [] 0 d, epoch := s.outBuf.epoch }, work := { w with op := d.length } } := by
  have hroom : ¬ s.par.outCap < w.op + d.length := by omega
  have hleft : s.work.left = none := by rw [hwork]; rfl
  simp only [unitStep, hleft, hf, if_true, hpre, State.emit, if_neg hroom]
  rw [hop, Nat.zero_add]

/-- The unit steps of a started command, as many as R301 counts, end where the atomic step ends (R227, R235): at a failed
check, at the pre-scan's failure, or where the units behind the pre-scan end. -/
theorem runUnits_unitCount {i : Instr} {s : State} (hp : s.phase = .busy) (hwork : s.work = Work.init) :
    runUnits i (unitCount i s) s = exec i s := by
  have hleft : s.work.left = none := by rw [hwork]; rfl
  cases hf : s.fits i with
  | false =>
    rw [exec_of_not_fits hf]
    exact runUnits_of_raise (by simp [unitStep, hleft, hf])
  | true =>
    obtain ⟨herr, hok⟩ := preScan_units i s.inputBytes s.modeBytes s.nameBytes
    cases hpre : preScan i s.inputBytes s.modeBytes s.nameBytes with
    | error f =>
      rw [exec_of_error hf (herr f hpre)]
      exact runUnits_of_raise (by simp [unitStep, hleft, hf, hpre])
    | ok x =>
      obtain ⟨w, d⟩ := x
      obtain ⟨hop, k, hk, hown, -⟩ := hok w d hpre
      have hfit := unitsFit_of_preScan hf hpre hk d.length
      have hcount : unitCount i s = k + 1 + 1 := by
        rw [unitCount, hpre]
        simp only [hk, Option.getD_some]
        omega
      rw [hcount, runUnits_of_busy (unitStep_first hwork hf hpre hop hfit.length_le) hp,
        runUnits_middle hp s.outBuf.epoch k { w with op := d.length } d hk rfl hfit,
        unitsFrom_own i s.inputBytes k w d.length w.left]
      cases hr : unitsFrom i s.inputBytes k w with
      | error f => rw [hr] at hown; exact (exec_of_error hf hown).symm
      | ok r => rw [hr] at hown; exact (exec_of_ok hf hown).symm

/-- What is pending when events are played has no part in it, if there is an event. -/
theorem playEvents_pending {es : List Event} (h : es ≠ []) (s : State) (q : List Event) :
    playEvents es { s with pending := q } = playEvents es s := by
  cases es with
  | nil => exact absurd rfl h
  | cons e es => rfl

/-- That many `unit` events end where the atomic step ends (R227, R235). -/
theorem playEvents_unitCount {i : Instr} {s : State} (hp : s.phase = .busy) (hwork : s.work = Work.init)
    (hd : decode s.cmd = .ok i) :
    playEvents (List.replicate (unitCount i s) .unit) s = exec i { s with pending := [] } := by
  have hne : List.replicate (unitCount i s) Event.unit ≠ [] := by
    simpa [List.replicate_eq_nil_iff] using (unitCount_pos i s).ne'
  rw [← playEvents_pending hne s [], playEvents_units (s := { s with pending := [] }) _ hp hd rfl]
  exact runUnits_unitCount (s := { s with pending := [] }) hp hwork

/-- Settles O57: the unit event makes the unit step, and the units of an encode end where the atomic step ends. -/
theorem unitStepsAgreeForEncodes : Obligations.UnitStepsAgreeForEncodes := fun _ _ _ hp =>
  ⟨fun _ hd hpe => step_unit hp hd hpe, runUnits_unitCount hp, playEvents_unitCount hp⟩

/-- Settles O58: the unit event makes the unit step, and the units of a decode end where the atomic step ends, also in a
failure. -/
theorem unitStepsAgreeForDecodes : Obligations.UnitStepsAgreeForDecodes := fun _ _ _ hp =>
  ⟨fun _ hd hpe => step_unit hp hd hpe, runUnits_unitCount hp, playEvents_unitCount hp⟩

end Sys2Proof.Machine
end

section
/-! PROOFS. Failures and what follows them: the kinds each command can end with, the same command run again, and the core
between commands. -/

namespace Sys2Proof.Machine

open Sys2Proof.Claims

/-! ### The kinds of failure -/

/-- A command's own failure is of a kind that R243's table gives for it, and `BufferTooSmall` is the capacity check's
alone. -/
theorem ownResult_error_kind {i : Instr} {t mode name : Bytes} {e : Failure} (h : ownResult i t mode name = .error e) :
    mayRaise i e.kind = true ∧ e.kind ≠ .bufferTooSmall := by
  cases i <;> simp only [ownResult, reduceCtorEq] at h
  case b64Dec => rcases (decB64_error h).2 with hk | hk | hk <;> simp [hk, mayRaise]
  case b64uDec => rcases (decB64_error h).2 with hk | hk | hk <;> simp [hk, mayRaise]
  case b32Dec => rcases (decB32_error h).2 with hk | hk <;> simp [hk, mayRaise]
  case b16Dec => rcases (decB16_error h).2 with hk | hk <;> simp [hk, mayRaise]
  case uulDec => rcases (decUUL_error h).2 with hk | hk <;> simp [hk, mayRaise]
  case uucEnc =>
    rcases Nat.lt_or_ge 63 t.length with hlen | hlen
    · rw [encUUC_of_lt hlen] at h
      cases h
      exact ⟨rfl, nofun⟩
    · rw [encUUC_of_le hlen] at h
      cases h
  case uucDec => rcases (decUUC_error h).2.2 with hk | hk <;> simp [hk, mayRaise]
  case uufDec => rcases (decUUF_error h).2 with hk | hk | hk <;> simp [hk, mayRaise]

/-- Settles O16, by the three ways a command completes: the capacity check records position 0, and the kind and the
position of the command's own failure are those of its function on the `IN_LEN` input bytes. -/
theorem failureKindsOfEachCommand : Obligations.FailureKindsOfEachCommand := by
  intro s t i h
  rcases exec_cases h with ⟨-, rfl⟩ | ⟨-, f, hown, rfl⟩ | ⟨-, d, -, rfl⟩
  · exact .inr ⟨.bufferTooSmall, rfl, rfl, Nat.zero_le _, fun _ => rfl, nofun, nofun⟩
  · obtain ⟨hmay, hkind⟩ := ownResult_error_kind hown
    have hin := ownResult_pos hown
    obtain ⟨hformat, hlength, hsymbol⟩ := ownResult_error_pos hown
    rw [length_inputBytes] at hin hsymbol
    refine .inr ⟨f.kind, rfl, hmay, hin, ?_, hlength, hsymbol⟩
    rintro (hk | hk)
    · exact absurd hk hkind
    · exact hformat hk
  · exact .inl rfl

/-! ### The same command again -/

/-- The state a command leaves, started again, holds the inputs the command ran on (R36, R225, R244). -/
theorem sameInput_start_of_exec {s t : State} {i : Instr} (h : exec i s = .next t) : SameInput i s t.start := by
  obtain ⟨hpar, -, hin, hmode, hname, -, -, hbytes⟩ := unchanged_exec h
  exact ⟨hpar, hin, fun j _ => hbytes .input j nofun, fun _ =>
    ⟨hmode, hname, fun j _ => hbytes .mode j nofun, fun j _ => hbytes .name j nofun⟩⟩

/-- Settles O18: the second run answers as every run does, and it has the inputs of the first. -/
theorem rerunGivesTheSameResult : Obligations.RerunGivesTheSameResult := fun _ t i h =>
  have hrerun := exec_eq_runCommand i t.start
  ⟨_, hrerun, sameResult_exec (sameInput_start_of_exec h) h hrerun⟩

/-! ### Between commands -/

/-- A turn of the core without a started command keeps all state (R275). -/
theorem coreTurn_of_not_busy {s : State} (hp : s.phase ≠ .busy) : coreTurn s = .next s := by
  rcases coreTurn_cases s with ⟨-, h⟩ | ⟨hb, -⟩ | ⟨hb, -⟩
  · exact h
  · exact absurd hb hp
  · exact absurd hb hp

/-- So does a turn for one unit step (R275). -/
theorem unitTurn_of_not_busy {s : State} (hp : s.phase ≠ .busy) : unitTurn s = .next s := by
  rcases unitTurn_cases s with ⟨-, h⟩ | ⟨hb, -⟩ | ⟨hb, -⟩
  · exact h
  · exact absurd hb hp
  · exact absurd hb hp

/-- Settles O50, by whose turn it is. -/
theorem idleCoreKeepsAllState : Obligations.IdleCoreKeepsAllState := by
  intro s hp
  refine ⟨fun hpe => (step_nil hpe).trans (coreTurn_of_not_busy hp), fun rest hpe => ?_⟩
  rcases hpe with hpe | hpe
  · exact (step_core hpe).trans (coreTurn_of_not_busy (s := { s with pending := rest }) hp)
  · rw [step, hpe]
    exact unitTurn_of_not_busy (s := { s with pending := rest }) hp

end Sys2Proof.Machine
end

section
/-! PROOFS. The reset input, and the host's accesses while BUSY. -/

namespace Sys2Proof.Machine

/-! ### The reset input -/

/-- The reset input as the oldest event is the whole step (R20, R280). -/
theorem step_reset {s : State} {rest : List Event} (h : s.pending = .reset :: rest) :
    step s = .next (State.applyReset { s with pending := rest }) := by
  rw [step, h]

/-- The command word after reset is `B64.ENC`, and its size for an empty input is the marker (R43, R221). -/
theorem reqLen_reset : reqLen 0x00#8 0 0 0 = 1 := by decide

/-- After reset `REQ_LEN` reads 1, in a register wide enough for it (R43). -/
theorem State.readReg_reqLen_applyReset {s : State} (h : 1 < 2 ^ s.par.lenw) : s.applyReset.readReg .reqLen = 1 := by
  simp only [State.readReg, State.applyReset_cmd, State.applyReset_inLen, State.applyReset_modeLen,
    State.applyReset_nameLen, State.applyReset_par, reqLen_reset, Nat.mod_eq_of_lt h]

/-- After reset no buffer byte has a defined value (R43). -/
theorem State.get?_cells_applyReset (s : State) (sp : Space) (a : Nat) :
    Memory.get? (s.applyReset.buffer sp).cells a = none := by
  cases sp <;> exact Memory.get?_nil a

/-- Settles O51: the step is the reset, whose fields are the reset values. -/
theorem resetInputGivesResetValues : Obligations.ResetInputGivesResetValues := fun _ _ hpe =>
  ⟨_, step_reset hpe, rfl, rfl, rfl, rfl, rfl, rfl, rfl, rfl, rfl, State.readReg_reqLen_applyReset,
    State.get?_cells_applyReset _, rfl, rfl⟩

/-! ### The host's accesses while BUSY -/

/-- A host write of a register while BUSY stops the model (R290; log 7). -/
theorem hostAccess_writeReg_busy {s : State} (h : s.phase = .busy) (r : Reg) (v : Nat) :
    hostAccess (.writeReg r v) s = .fault .hostWriteWhileBusy := if_pos h

/-- A host write of a byte while BUSY stops the model, whether the byte exists or not (R290; log 7). -/
theorem hostAccess_writeByte_busy {s : State} (h : s.phase = .busy) (sp : Space) (a : Nat) (v : Byte) :
    hostAccess (.writeByte sp a v) s = .fault .hostWriteWhileBusy := if_pos h

/-- A host read of `PHASE` while BUSY delivers its code (R292). -/
theorem hostAccess_readPhase_busy {s : State} (h : s.phase = .busy) : hostAccess (.readReg .phase) s = .next (s.deliver 1) := by
  rw [hostAccess, State.hostReadReg, if_neg fun hr => hr.2 rfl, State.readReg, h, Phase.code]

/-- A host read of any other register while BUSY delivers a free value (R292; log 6). -/
theorem hostAccess_readReg_busy {s : State} {r : Reg} (h : s.phase = .busy) (hr : r ≠ .phase) :
    hostAccess (.readReg r) s = .next (s.deliverFree (s.regWidth r)) := by
  rw [hostAccess, State.hostReadReg, if_pos ⟨h, hr⟩]

/-- A host read of a byte that exists while BUSY delivers a free value (R292; log 6). -/
theorem hostAccess_readByte_busy {s : State} {sp : Space} {a : Nat} (h : s.phase = .busy) (ha : a < capOf s.par sp) :
    hostAccess (.readByte sp a) s = .next (s.deliverFree 8) := by
  rw [hostAccess, if_neg (Nat.not_le_of_lt ha), State.hostReadByte, if_pos h]

/-- Settles O55: the access is the whole step, and BUSY decides before anything else is looked at. -/
theorem hostWriteWhileBusyFaults : Obligations.HostWriteWhileBusyFaults := fun s rest hp =>
  have hp' : State.phase { s with pending := rest } = .busy := hp
  ⟨fun r v hpe => (step_host hpe).trans (hostAccess_writeReg_busy hp' r v),
    fun sp a v hpe => (step_host hpe).trans (hostAccess_writeByte_busy hp' sp a v)⟩

/-- Settles O56: `PHASE` delivers its code, every other register and a byte deliver a free value, and delivering sets
nothing but the reading and the draw counter. -/
theorem hostReadWhileBusy : Obligations.HostReadWhileBusy := by
  intro s rest hp
  have hp' : State.phase { s with pending := rest } = .busy := hp
  refine ⟨fun r hpe => ?_, fun sp a hpe ha => ?_⟩
  · by_cases hr : r = .phase
    · subst hr
      exact ⟨_, (step_host hpe).trans (hostAccess_readPhase_busy hp'), fun _ => rfl, ⟨_, rfl⟩, rfl⟩
    · exact ⟨_, (step_host hpe).trans (hostAccess_readReg_busy hp' hr), fun h => absurd h hr, ⟨_, rfl⟩, rfl⟩
  · have hcap : a < capOf s.par sp := by cases sp <;> exact ha
    exact ⟨_, (step_host hpe).trans (hostAccess_readByte_busy hp' hcap), ⟨_, rfl⟩, rfl⟩

end Sys2Proof.Machine
end
